-- ==== Sys2Proof/Word.lean ====
section
/-! DEFINITION. The unit of everything the block stores or sends: the byte (rule R12). -/

namespace Sys2Proof

/-- A byte (u8), an integer 0 to 255 (rule R12). -/
abbrev Byte := BitVec 8

end Sys2Proof
end

