-- ==== Sys2Proof/Config.lean ====
section
/-! DEFINITION. The constants the source fixes (rule R10), the parameters it leaves open (rule R11) and
the one free value of the model (log 3). -/

namespace Sys2Proof

/-- The two roles, fixed at instantiation (rules R11, R396). -/
inductive Role where
  | host
  | node
  deriving DecidableEq, Repr

/-- The three link speeds of `COMM_MODE` (rule R36). -/
inductive CommMode where
  | base
  | fast1
  | fast2
  deriving DecidableEq, Repr

/-- The parameters of rule R11. Functions of a byte are association lists, so that a configuration is
plain data; a byte that is not listed maps to `none`. -/
structure Config where
  /-- `ROLE` -/
  role : Role
  /-- `NDEV`, the number of slots of the address table -/
  ndev : Nat
  /-- `TICK_BITS`, the width of the tick counter -/
  tickBits : Nat
  /-- `T_SETTLE`, ticks -/
  tSettle : Nat
  /-- `T_RESPONSE`, ticks -/
  tResponse : Nat
  /-- `T_READY_GRACE`, ticks -/
  tReadyGrace : Nat
  /-- `T_GUARD_US`, microseconds -/
  tGuardUs : Nat
  /-- `T_TURNAROUND`: an obligation on the polling rate, used by no rule (rule R430) -/
  tTurnaround : Nat
  /-- `RESET_ARG` -/
  resetArg : Byte
  /-- `CMD_REV` -/
  cmdRev : Byte
  /-- `JV_REV` -/
  jvRev : Byte
  /-- `PROTO_VER` -/
  protoVer : Byte
  /-- `PROTO_VER_FAST` -/
  protoVerFast : Byte
  /-- `SPEED_MASK` -/
  speedMask : Byte
  /-- `SPEED_OF` -/
  speedOf : List (Byte × CommMode)
  /-- `VENDOR_SUBOP_OFFSET` -/
  vendorSubopOffset : Nat
  /-- `VENDOR_LEN` -/
  vendorLen : List (Byte × Nat)
  deriving DecidableEq, Repr

/-- The configuration of `State.reset`: the defaults of rule R11 where it gives one, the illustrative
vendor table of rule R169, and values the model's log names for the other open parameters.
DESIGN CHOICE (log 1, unsafe). -/
def Config.default : Config where
  role := .node
  ndev := 1
  tickBits := 16
  tSettle := 10
  tResponse := 5
  tReadyGrace := 3
  tGuardUs := 0
  tTurnaround := 0
  resetArg := 0xD9
  cmdRev := 0x13
  jvRev := 0x30
  protoVer := 0x10
  protoVerFast := 0x20
  speedMask := 0x00
  speedOf := [(0x00, .base), (0x01, .fast1), (0x02, .fast2)]
  vendorSubopOffset := 1
  vendorLen := [(0x18, 6)]

/-- What a frame marker stores in `DSR_SNAP` in host role, "an unspecified value" (rule R28), applied to
a count of the free values drawn so far. No body: nothing can be proved of it. DESIGN CHOICE (log 3, safe). -/
opaque Config.freeDsrSnap : Nat → Bool

/-- `SYNC`, the frame marker (rule R10). -/
def symSync : Byte := 0xE0
/-- `MARK`, the escape marker (rule R10). -/
def symMark : Byte := 0xD0
/-- `ADDR_HOST` (rule R10). -/
def addrHost : Byte := 0x00
/-- `ADDR_BCAST`, also the mark of an unassigned slot (rule R10). -/
def addrBcast : Byte := 0xFF
/-- `ST_OK` (rule R10). -/
def codeOk : Byte := 0x01
/-- `ST_UNKNOWN` (rule R10). -/
def codeUnknown : Byte := 0x02
/-- `ST_SUMERR` (rule R10). -/
def codeSumerr : Byte := 0x03
/-- `ST_OVERFLOW` (rule R10). -/
def codeOverflow : Byte := 0x04
/-- `RP_OK` (rule R10). -/
def reportOk : Byte := 0x01
/-- `RX_CAP` (rule R10). -/
def rxCap : Nat := 256
/-- `TX_REPORT_CAP` (rule R10). -/
def txReportCap : Nat := 253
/-- `HOST_DEV_CAP` (rule R10). -/
def hostDevCap : Nat := 4
/-- `PLAYER_CAP` (rule R10). -/
def playerCap : Nat := 4

end Sys2Proof
end

