-- ==== Sys2Proof/Syntax.lean ====
section
/-! DEFINITION. The instructions: one constructor per row of spec/opcode_table.json. The 24 commands are
those of rule R120; the other nine rows are the wire symbols (rules R104, R105), the status codes (rule
R110), the report code (rule R111) and the special addresses (rule R73). -/

namespace Sys2Proof

/-- One constructor per row of the opcode table, with the operand bytes its format gives it (rule R112).
A count byte is the number of data bytes that follow (of byte pairs for `anlout`) and is not kept twice;
the terminator of `mainid` is not kept either. -/
inductive Instr where
  /-- `0x10` identification query (rule R150) -/
  | ioident
  /-- `0x11` command revision query (rule R151) -/
  | cmdrev
  /-- `0x12` JV revision query (rule R152) -/
  | jvsrev
  /-- `0x13` protocol version query (rule R153) -/
  | commver
  /-- `0x14` function-check query (rule R154) -/
  | featchk
  /-- `0x15` main id, a zero-terminated text (rule R155) -/
  | mainid (text : List Byte)
  /-- `0x20` switch input (rule R156) -/
  | swinp (players bytesPerPlayer : Byte)
  /-- `0x21` coin input (rule R157) -/
  | coininp (slots : Byte)
  /-- `0x22` analog input (rule R158) -/
  | anlinp (channels : Byte)
  /-- `0x23` rotary input (rule R159) -/
  | rotinp (a : Byte)
  /-- `0x24` key input (rule R160) -/
  | keyinp
  /-- `0x25` screen position input (rule R161) -/
  | scrposinp (a : Byte)
  /-- `0x2F` retry (rule R162) -/
  | retry
  /-- `0x30` coin-subtract (rule R163) -/
  | coindec (slot amountHi amountLo : Byte)
  /-- `0x31` payout add (rule R164) -/
  | payinc (slot hi lo : Byte)
  /-- `0x32` driver output (rule R165) -/
  | output1 (data : List Byte)
  /-- `0x33` analog output, two bytes a channel (rule R166) -/
  | anlout (data : List Byte)
  /-- `0x34` character output (rule R167) -/
  | charout (data : List Byte)
  /-- `0x35` coin add (rule R168) -/
  | coininc (slot hi lo : Byte)
  /-- `0x70` vendor-extension; `body` is every byte after the opcode, the sub-op among them (rule R169) -/
  | vendor (body : List Byte)
  /-- `0xD0` link-speed capability query (rule R170) -/
  | commsup
  /-- `0xF0` reset (rule R171) -/
  | reset (arg : Byte)
  /-- `0xF1` address-set (rule R172) -/
  | setaddr (addr : Byte)
  /-- `0xF2` link-speed change (rule R173) -/
  | commchg (mode : Byte)
  /-- wire symbol `0xE0`, frame marker (rule R104) -/
  | sync
  /-- wire symbol `0xD0`, escape marker (rule R105) -/
  | mark
  /-- status `0x01` (rule R110) -/
  | stOk
  /-- status `0x02` (rule R110) -/
  | stUnknown
  /-- status `0x03` (rule R110) -/
  | stSumerr
  /-- status `0x04` (rule R110) -/
  | stOverflow
  /-- report code `0x01` (rule R111) -/
  | rpOk
  /-- address `0x00`, the host (rule R73) -/
  | addrHost
  /-- address `0xFF`, broadcast (rule R73) -/
  | addrBcast
  deriving DecidableEq, Repr

/-- Where on the bus a byte stands decides what it is (rules R3, R101, R109): a command in a request's
payload, a wire symbol, a status byte, a report code or an address byte. -/
inductive Level where
  | command
  | wire
  | status
  | report
  | address
  deriving DecidableEq, Repr

/-- The level an instruction belongs to: the "format" column of the opcode table. -/
def Instr.level : Instr → Level
  | .ioident => .command
  | .cmdrev => .command
  | .jvsrev => .command
  | .commver => .command
  | .featchk => .command
  | .mainid _ => .command
  | .swinp _ _ => .command
  | .coininp _ => .command
  | .anlinp _ => .command
  | .rotinp _ => .command
  | .keyinp => .command
  | .scrposinp _ => .command
  | .retry => .command
  | .coindec _ _ _ => .command
  | .payinc _ _ _ => .command
  | .output1 _ => .command
  | .anlout _ => .command
  | .charout _ => .command
  | .coininc _ _ _ => .command
  | .vendor _ => .command
  | .commsup => .command
  | .reset _ => .command
  | .setaddr _ => .command
  | .commchg _ => .command
  | .sync => .wire
  | .mark => .wire
  | .stOk => .status
  | .stUnknown => .status
  | .stSumerr => .status
  | .stOverflow => .status
  | .rpOk => .report
  | .addrHost => .address
  | .addrBcast => .address

end Sys2Proof
end

