-- ==== Sys2Proof/WellFormed.lean ====
section
/-! DEFINITION. Which instructions an encoding admits (rules R112, R145 to R148) and which configurations
rule R11 allows. -/

namespace Sys2Proof

/-- A configuration the spec allows: `NDEV`, `TICK_BITS` and `VENDOR_SUBOP_OFFSET` at least 1, the three host
timing parameters below `2^TICK_BITS` (rule R11), and `VENDOR_LEN(s) = some(n)` only with
`VENDOR_SUBOP_OFFSET < n <= 255` (rules R11, R148). -/
def Config.legal (c : Config) : Bool :=
  decide (1 ≤ c.ndev) && decide (1 ≤ c.tickBits) && decide (1 ≤ c.vendorSubopOffset) &&
  decide (c.tSettle < 2 ^ c.tickBits) && decide (c.tResponse < 2 ^ c.tickBits) &&
  decide (c.tReadyGrace < 2 ^ c.tickBits) &&
  c.vendorLen.all fun e => decide (c.vendorSubopOffset < e.2) && decide (e.2 ≤ 255)

/-- The operands an encoding admits: text bytes of `mainid` are not zero (rule R147), a count fits a byte
(rules R145, R146), analog data come in pairs (rule R146), and a vendor command carries a recognised
sub-op and has the length that sub-op gives (rule R148). -/
def Instr.wellFormed (c : Config) : Instr → Bool
  | .mainid text => text.all fun b => decide (b ≠ 0)
  | .output1 data => decide (data.length ≤ 255)
  | .anlout data => decide (data.length % 2 = 0) && decide (data.length ≤ 510)
  | .charout data => decide (data.length ≤ 255)
  | .vendor body =>
    match (0x70#8 :: body)[c.vendorSubopOffset]? with
    | none => false
    | some sub => decide (c.vendorLen.lookup sub = some (body.length + 1))
  | .ioident => true
  | .cmdrev => true
  | .jvsrev => true
  | .commver => true
  | .featchk => true
  | .swinp _ _ => true
  | .coininp _ => true
  | .anlinp _ => true
  | .rotinp _ => true
  | .keyinp => true
  | .scrposinp _ => true
  | .retry => true
  | .coindec _ _ _ => true
  | .payinc _ _ _ => true
  | .coininc _ _ _ => true
  | .commsup => true
  | .reset _ => true
  | .setaddr _ => true
  | .commchg _ => true
  | .sync => true
  | .mark => true
  | .stOk => true
  | .stUnknown => true
  | .stSumerr => true
  | .stOverflow => true
  | .rpOk => true
  | .addrHost => true
  | .addrBcast => true

end Sys2Proof
end

