-- ==== Sys2Proof/Decode.lean ====
section
/-! DEFINITION. The Command Table (rules R140 to R148), the decoder from bytes to an instruction, the
encoder, and the reading of a word of spec/opcode_table.json. -/

namespace Sys2Proof

/-! ## The Command Table -/

/-- The five command formats, by how the total length is found (rule R112). -/
inductive Format where
  | fix (n : Nat)
  | cnt (scale : Nat)
  | str
  | vnd
  deriving DecidableEq, Repr

/-- The answer of `CT_SIZE` (rule R140). -/
inductive CtResult where
  | size (n : Nat)
  | incomplete
  | unknown
  deriving DecidableEq, Repr

/-- The format of each of the 24 opcodes of rule R120; `none` for the other 232 values (rule R121). -/
def formatOf (op : Byte) : Option Format :=
  match op.toNat with
  | 0x10 => some (.fix 1)
  | 0x11 => some (.fix 1)
  | 0x12 => some (.fix 1)
  | 0x13 => some (.fix 1)
  | 0x14 => some (.fix 1)
  | 0x15 => some .str
  | 0x20 => some (.fix 3)
  | 0x21 => some (.fix 2)
  | 0x22 => some (.fix 2)
  | 0x23 => some (.fix 2)
  | 0x24 => some (.fix 1)
  | 0x25 => some (.fix 2)
  | 0x2F => some (.fix 1)
  | 0x30 => some (.fix 4)
  | 0x31 => some (.fix 4)
  | 0x32 => some (.cnt 1)
  | 0x33 => some (.cnt 2)
  | 0x34 => some (.cnt 1)
  | 0x35 => some (.fix 4)
  | 0x70 => some .vnd
  | 0xD0 => some (.fix 1)
  | 0xF0 => some (.fix 2)
  | 0xF1 => some (.fix 2)
  | 0xF2 => some (.fix 2)
  | _ => none

/-- How many bytes stand before the first zero byte; `none` when there is no zero byte (rule R147). -/
def textLength : List Byte → Option Nat
  | [] => none
  | b :: rest => if b = 0 then some 0 else (textLength rest).map (· + 1)

/-- `SizeCNT`: `scale * count + 2`, not reduced modulo 256 (rules R145, R146). -/
def sizeCnt (scale : Nat) : List Byte → CtResult
  | _ :: count :: _ => .size (scale * count.toNat + 2)
  | _ => .incomplete

/-- `SizeSTR`: the opcode, the text and its terminator (rule R147). -/
def sizeStr : List Byte → CtResult
  | _ :: text =>
    match textLength text with
    | some k => .size (k + 2)
    | none => .incomplete
  | [] => .incomplete

/-- `SizeVND`: the length the sub-op byte selects (rule R148). -/
def sizeVnd (cfg : Config) (c : List Byte) : CtResult :=
  match (c)[cfg.vendorSubopOffset]? with
  | none => .incomplete
  | some sub =>
    match cfg.vendorLen.lookup sub with
    | some n => .size n
    | none => .unknown

/-- `CT_SIZE(c, avail)` with `c` cut to its `avail` bytes already (rules R140, R142). -/
def ctSizeOf (cfg : Config) (c : List Byte) : CtResult :=
  match c with
  | [] => .incomplete
  | op :: _ =>
    match formatOf op with
    | none => .unknown
    | some (.fix n) => .size n
    | some (.cnt scale) => sizeCnt scale c
    | some .str => sizeStr c
    | some .vnd => sizeVnd cfg c

/-- `CT_SIZE(c, avail)`: "`c[0 .. avail)` may be read and nothing beyond" (rule R140). -/
def ctSize (cfg : Config) (c : List Byte) (avail : Nat) : CtResult :=
  ctSizeOf cfg (c.take avail)

/-! ## The decoder -/

/-- Why bytes are no instruction, by name. -/
inductive DecodeError where
  /-- the Command Table answers "unknown" (rule R174) -/
  | unknownOpcode (op : Byte)
  /-- the bytes at hand do not decide the length (rule R140) -/
  | incomplete
  /-- the length `n` is more than the bytes at hand (rule R256) -/
  | overrun (n : Nat)
  /-- the byte is none of the codes of its level: a plain wire byte, another status or report code, a
  node's address -/
  | plainByte (b : Byte)
  /-- there is no byte -/
  | noByte
  deriving DecidableEq, Repr

/-- A command with no operand. -/
def operands0 (i : Instr) : List Byte → Option Instr
  | [] => some i
  | _ => none

/-- A command with one operand byte. -/
def operands1 (f : Byte → Instr) : List Byte → Option Instr
  | [a] => some (f a)
  | _ => none

/-- A command with two operand bytes. -/
def operands2 (f : Byte → Byte → Instr) : List Byte → Option Instr
  | [a, b] => some (f a b)
  | _ => none

/-- A command with three operand bytes. -/
def operands3 (f : Byte → Byte → Byte → Instr) : List Byte → Option Instr
  | [a, b, c] => some (f a b c)
  | _ => none

/-- A command with a count byte and the data it counts; the count is the length of the data and is not kept. -/
def operandsCounted (f : List Byte → Instr) : List Byte → Option Instr
  | _ :: data => some (f data)
  | [] => none

/-- The instruction an opcode and its operand bytes stand for (rules R113, R120). -/
def ofOpcode (op : Byte) (args : List Byte) : Option Instr :=
  match op.toNat with
  | 0x10 => operands0 .ioident args
  | 0x11 => operands0 .cmdrev args
  | 0x12 => operands0 .jvsrev args
  | 0x13 => operands0 .commver args
  | 0x14 => operands0 .featchk args
  | 0x15 => some (.mainid args.dropLast)
  | 0x20 => operands2 .swinp args
  | 0x21 => operands1 .coininp args
  | 0x22 => operands1 .anlinp args
  | 0x23 => operands1 .rotinp args
  | 0x24 => operands0 .keyinp args
  | 0x25 => operands1 .scrposinp args
  | 0x2F => operands0 .retry args
  | 0x30 => operands3 .coindec args
  | 0x31 => operands3 .payinc args
  | 0x32 => operandsCounted .output1 args
  | 0x33 => operandsCounted .anlout args
  | 0x34 => operandsCounted .charout args
  | 0x35 => operands3 .coininc args
  | 0x70 => some (.vendor args)
  | 0xD0 => operands0 .commsup args
  | 0xF0 => operands1 .reset args
  | 0xF1 => operands1 .setaddr args
  | 0xF2 => operands1 .commchg args
  | _ => none

/-- The instruction a whole command stands for. -/
def ofBytes : List Byte → Option Instr
  | [] => none
  | op :: args => ofOpcode op args

/-- The command at the head of the bytes at hand, and the bytes after it (rules R252, R256). -/
def decodeCommand (cfg : Config) (bytes : List Byte) : Except DecodeError (Instr × List Byte) :=
  match bytes with
  | [] => .error .noByte
  | op :: _ =>
    match ctSize cfg bytes bytes.length with
    | .unknown => .error (.unknownOpcode op)
    | .incomplete => .error .incomplete
    | .size n =>
      if bytes.length < n then .error (.overrun n)
      else
        match ofBytes (bytes.take n) with
        | some i => .ok (i, bytes.drop n)
        | none => .error (.unknownOpcode op)

/-- The wire symbols (rule R107); every other wire byte is a plain byte. -/
def decodeWire (b : Byte) : Option Instr :=
  if b = symSync then some .sync else if b = symMark then some .mark else none

/-- The status codes (rule R110). -/
def decodeStatus (b : Byte) : Option Instr :=
  if b = codeOk then some .stOk
  else if b = codeUnknown then some .stUnknown
  else if b = codeSumerr then some .stSumerr
  else if b = codeOverflow then some .stOverflow
  else none

/-- The report code (rule R111). -/
def decodeReport (b : Byte) : Option Instr :=
  if b = reportOk then some .rpOk else none

/-- The special addresses (rule R73); the names of the constants are those of rule R10. -/
def decodeAddress (b : Byte) : Option Instr :=
  if b = addrHost then some .addrHost else if b = addrBcast then some .addrBcast else none

/-- A level of one byte: the byte is one of its codes or it is refused by name. -/
def decodeByte (codes : Byte → Option Instr) : List Byte → Except DecodeError (Instr × List Byte)
  | [] => .error .noByte
  | b :: rest =>
    match codes b with
    | some i => .ok (i, rest)
    | none => .error (.plainByte b)

/-- The decoder: what the bytes are depends on where they stand (`Level`). Total on any bytes. -/
def decode (cfg : Config) (l : Level) (bytes : List Byte) : Except DecodeError (Instr × List Byte) :=
  match l with
  | .command => decodeCommand cfg bytes
  | .wire => decodeByte decodeWire bytes
  | .status => decodeByte decodeStatus bytes
  | .report => decodeByte decodeReport bytes
  | .address => decodeByte decodeAddress bytes

/-! ## The encoder -/

/-- The decoded bytes of an instruction (rules R112, R120; single bytes for the other levels). The wire's
escaping comes after this (rule R105). -/
def encode : Instr → List Byte
  | .ioident => [0x10]
  | .cmdrev => [0x11]
  | .jvsrev => [0x12]
  | .commver => [0x13]
  | .featchk => [0x14]
  | .mainid text => 0x15 :: (text ++ [0x00])
  | .swinp a b => [0x20, a, b]
  | .coininp a => [0x21, a]
  | .anlinp a => [0x22, a]
  | .rotinp a => [0x23, a]
  | .keyinp => [0x24]
  | .scrposinp a => [0x25, a]
  | .retry => [0x2F]
  | .coindec a b c => [0x30, a, b, c]
  | .payinc a b c => [0x31, a, b, c]
  | .output1 data => 0x32 :: BitVec.ofNat 8 data.length :: data
  | .anlout data => 0x33 :: BitVec.ofNat 8 (data.length / 2) :: data
  | .charout data => 0x34 :: BitVec.ofNat 8 data.length :: data
  | .coininc a b c => [0x35, a, b, c]
  | .vendor body => 0x70 :: body
  | .commsup => [0xD0]
  | .reset a => [0xF0, a]
  | .setaddr a => [0xF1, a]
  | .commchg a => [0xF2, a]
  | .sync => [0xE0]
  | .mark => [0xD0]
  | .stOk => [0x01]
  | .stUnknown => [0x02]
  | .stSumerr => [0x03]
  | .stOverflow => [0x04]
  | .rpOk => [0x01]
  | .addrHost => [0x00]
  | .addrBcast => [0xFF]

/-! ## Words of the opcode table -/

/-- The first `n` bytes of the word `w`, the least significant first. -/
def wordBytes : Nat → Nat → List Byte
  | 0, _ => []
  | n + 1, w => BitVec.ofNat 8 w :: wordBytes n (w / 256)

/-- The configuration with a vendor table that recognises the sub-op of `bytes`. A vendor command is an
instruction only under a `VENDOR_LEN` that lists its sub-op, and the spec leaves `VENDOR_LEN` open (rules
R11, R148); an unlisted sub-op gets the shortest length that holds it. DESIGN CHOICE (log 7). -/
def Config.recognising (c : Config) (bytes : List Byte) : Config :=
  match bytes[c.vendorSubopOffset]? with
  | none => c
  | some sub =>
    if bytes.head? = some 0x70 ∧ c.vendorLen.lookup sub = none then
      { c with vendorLen := c.vendorLen ++ [(sub, c.vendorSubopOffset + 1)] }
    else c

/-- The bytes of a table word of `nbits` bits, followed by the zero bytes the table gives no bits, as many as the
command they begin has. -/
def tableBytes (cfg : Config) (nbits w : Nat) : List Byte :=
  let head := wordBytes ((nbits + 7) / 8) w ++ List.replicate (cfg.vendorSubopOffset + 3) 0
  match ctSize (cfg.recognising head) head head.length with
  | .size n => head ++ List.replicate (n - head.length) 0
  | .incomplete => head
  | .unknown => head

/-- The levels in the order in which a table word is tried: a byte value that is a code of two levels reads
as that of the first (log 6). -/
def tableLevels : List Level := [.command, .wire, .status, .report, .address]

/-- The first level at which the bytes are an instruction. -/
def decodeFirst (cfg : Config) (bytes : List Byte) : List Level → Option Instr
  | [] => none
  | l :: rest =>
    match decode cfg l bytes with
    | .ok (i, _) => some i
    | .error _ => decodeFirst cfg bytes rest

/-- The instruction the decoder reads from a word of spec/opcode_table.json. -/
def decodeTableWord (nbits w : Nat) : Option Instr :=
  let bytes := tableBytes Config.default nbits w
  decodeFirst (Config.default.recognising bytes) bytes tableLevels

end Sys2Proof
end

