-- ==== Sys2Proof/Machine/State.lean ====
section
/-! DEFINITION. The state: everything 10_state.md gives the block, what the collaborators of rules R400 to
R405 hold or do next, and the state after reset. Plain data throughout. -/

namespace Sys2Proof.Machine

/-! ## Buffers -/

/-- A byte buffer: the addresses that hold something other than `unlistedByte`, strictly rising. -/
abbrev Memory := List Host.Cell

/-- What an address reads as that nothing has written: the spec gives the buffers' contents no reset value
(rules R21, R30). DESIGN CHOICE (log 2, unsafe). -/
def unlistedByte : Byte := 0x00

/-! ## Names -/

/-- The 24 values of `HS`, in the order of rule R302. -/
inductive HostState where
  | disconnected
  | connected
  | reset1
  | reset2
  | address
  | addressWait
  | readyCheck
  | reqIoid
  | waitIoid
  | reqCmdrev
  | waitCmdrev
  | reqJvrev
  | waitJvrev
  | reqProtover
  | waitProtover
  | reqFeatchk
  | waitFeatchk
  | ready
  | reqSync
  | waitSync
  | waitCoinSync
  | timeout
  | invalidResponse
  | unexpected
  deriving DecidableEq, Repr

/-- The kinds of `EvCapability` (rule R300). -/
inductive CapKind where
  | ioid
  | cmdrev
  | jvrev
  | protover
  | featchk
  deriving DecidableEq, Repr

/-- `ChanDir` (rule R400). -/
inductive Dir where
  | input
  | output
  deriving DecidableEq, Repr

/-- The calls into the block (rule R405, and `INIT`, rule R420). -/
inductive Call where
  | neNext (spec : Bool)
  | nePush (b : Byte)
  | neBusy
  | neOverflow
  | neLinkLost
  | heRun
  | heSync
  | init
  deriving DecidableEq, Repr

/-- What a call returns: the three results of `NE_NEXT` (rule R251), the boolean of `HE_RUN`, `NE_BUSY` and
`NE_OVERFLOW` (rules R300, R282), or nothing. -/
inductive Result where
  | command (dev : Option Nat) (bytes : List Byte) (committed : Bool)
  | incomplete
  | none
  | bool (b : Bool)
  | unit
  deriving DecidableEq, Repr

/-- What leaves the block: output primitives (rules R400 to R403), events and results (rule R405). -/
inductive PortEvent where
  | txBegin
  | txEnd
  | dir (d : Dir)
  | write (b : Byte)
  /-- `ChanSpeed(m, true)` and what the channel answered -/
  | speedCommit (m : CommMode) (ok : Bool)
  | readyOut (v : Bool)
  | ledOut (v : Bool)
  | delayUs (n : Nat)
  | evCapability (addr : Nat) (kind : CapKind) (data : List Byte)
  | evSynced (players : Nat) (coin : Byte) (sw0 sw1 : Vector Byte 4)
  | evUnknownOpcode (op : Byte)
  | returned (r : Result)
  deriving DecidableEq, Repr

/-- What the environment may do (rules R8, R74, R402, R403, R401). -/
inductive EnvEvent where
  /-- a byte arrives at the end of the channel's receive queue -/
  | byte (b : Byte)
  | connected (v : Bool)
  | ready (v : Bool)
  | downstream (v : Bool)
  /-- `n` ticks pass -/
  | ticks (n : Nat)
  /-- from now on `ChanSpeed(m, commit)` answers true exactly for the pairs listed -/
  | speed (yes : List (CommMode × Bool))
  deriving DecidableEq, Repr

/-- One entry of what happens next outside the block: an event of the environment, a call of the
application, or a turn, which lets a running call do one step before the entry after it. -/
inductive Input where
  | env (e : EnvEvent)
  | call (c : Call)
  | turn
  deriving DecidableEq, Repr

/-- The two calls that begin with `FC_RECEIVE` (rule R210). -/
inductive Receiver where
  | neNext (spec : Bool)
  | heRun
  deriving DecidableEq, Repr

/-- Where in a call the block is (rules R252, R304, R313): the model's own program position (log 4). -/
inductive Phase where
  /-- no call is running -/
  | idle
  /-- in the loop of `FC_RECEIVE` -/
  | receive (r : Receiver)
  /-- at the head of the loop of `NE_NEXT(spec)` -/
  | nodeLoop (spec : Bool)
  /-- in `NE_PUSH(b)` called by the application -/
  | push (b : Byte)
  /-- at `case HS of` in `HE_RUN` -/
  | hostArm
  /-- in a wait state, the status byte of the reply having been `ST_OK` -/
  | hostReport
  deriving DecidableEq, Repr

/-! ## The state -/

/-- The state of one instance. -/
structure State where
  /-- the parameters of rule R11; no rule writes them (rule R46) -/
  cfg : Config
  /-- `RXB` (rule R21) -/
  rxb : Memory
  /-- `RXW`, an integer 0 to `RX_CAP` (rule R22) -/
  rxw : Fin 257
  /-- `RXR` (rule R23) -/
  rxr : Nat
  /-- `F_FRAMING` (rule R24) -/
  fFraming : Bool
  /-- `F_ESC` (rule R25) -/
  fEsc : Bool
  /-- `F_COMPLETE` (rule R26) -/
  fComplete : Bool
  /-- `F_SUMERR` (rule R27) -/
  fSumerr : Bool
  /-- `DSR_SNAP` (rule R28) -/
  dsrSnap : Bool
  /-- `TXR` (rule R30) -/
  txr : Memory
  /-- `TXN`, an integer 0 to `TX_REPORT_CAP` (rule R31) -/
  txn : Fin 254
  /-- `TXLAST` (rule R32) -/
  txlast : Option (List Byte)
  /-- `F_TXOVF` (rule R33) -/
  fTxovf : Bool
  /-- `ATAB` (rule R34) -/
  atab : List Byte
  /-- `NEWADDR` (rule R35) -/
  newaddr : Byte
  /-- `COMM_MODE` (rule R36) -/
  commMode : CommMode
  /-- `HS` (rule R37) -/
  hs : HostState
  /-- `HT0` (rule R38) -/
  ht0 : Nat
  /-- `HDEV` (rule R39) -/
  hdev : Nat
  /-- `HTGT` (rule R40) -/
  htgt : Nat
  /-- `HPLAYERS` (rule R41) -/
  hplayers : Vector Byte 4
  /-- `HBUTTONS` (rule R41) -/
  hbuttons : Vector Byte 4
  /-- `HCOINSLOTS` (rule R41) -/
  hcoinslots : Vector Byte 4
  /-- `HTOTAL` (rule R42) -/
  htotal : Nat
  /-- `HSW0` (rule R43) -/
  hsw0 : Vector Byte 4
  /-- `HSW1` (rule R43) -/
  hsw1 : Vector Byte 4
  /-- `HCOIN` (rule R44) -/
  hcoin : Byte
  /-- the channel's receive queue, oldest byte first (rule R74) -/
  chanRx : List Byte
  /-- `SigConnectedIn()` (rule R402) -/
  connectedIn : Bool
  /-- `SigReadyIn()` (rule R402) -/
  readyIn : Bool
  /-- `SigDownstreamReady()` (rule R402) -/
  downstreamReady : Bool
  /-- `Tick()` (rule R403) -/
  tick : Nat
  /-- the pairs for which `ChanSpeed(m, commit)` answers true (rule R401) -/
  speedYes : List (CommMode × Bool)
  /-- the model's own: where in a call the block is (log 4) -/
  phase : Phase
  /-- the model's own: what happens next outside the block (log 5) -/
  inputs : List Input
  /-- the output primitives, events and results so far, oldest first -/
  trace : List PortEvent
  /-- the model's own: how many free values have been drawn (log 3) -/
  freeCount : Nat
  deriving DecidableEq, Repr

/-- Why the machine stops. It has no constructor: "no hard faults are raised" (rules R9, R366). -/
inductive Fault where
  deriving DecidableEq, Repr

/-- Why an instruction or a call has no meaning where it stands. All safe: the model stops where the spec
gives nothing that could happen. -/
inductive Refusal where
  /-- raised by `exec`'s arm of an instruction that has no meaning yet (there is none) -/
  | notModelled (mnemonic : String)
  /-- raised by the meaning of a command, and by a call of a node entry point, in host role: a host instance
  has no Node Engine (rules R2, R250, R396) -/
  | noNodeEngine
  /-- raised by a call of a host entry point in node role: a node instance has no Host Engine (rules R2,
  R300, R396) -/
  | noHostEngine
  /-- raised by the meaning of a status or report code in host role when the host waits for no reply or no
  frame is pending: only a wait state reads them (rules R312, R313) -/
  | noReplyAwaited
  deriving DecidableEq, Repr

/-- The outcome of a step of this machine. -/
abbrev Outcome := Host.Outcome State Fault Refusal

/-! ## Reset -/

/-- The outputs `INIT` drives (rule R422). -/
def initOutputs : Role → List PortEvent
  | .node => [.readyOut false, .ledOut false, .dir .input]
  | .host => [.dir .input]

/-- The table `ATAB` after `INIT`: all unassigned in node role, the constant `[0x00]` in host role (rule R34). -/
def initTable (c : Config) : List Byte :=
  match c.role with
  | .node => List.replicate c.ndev addrBcast
  | .host => [addrHost]

/-- The state after `INIT(config)` (rules R420, R49), with the collaborators at the values of log 9. -/
def State.init (c : Config) : State where
  cfg := c
  rxb := []
  rxw := 0
  rxr := 2
  fFraming := false
  fEsc := false
  fComplete := false
  fSumerr := false
  dsrSnap := false
  txr := []
  txn := 0
  txlast := none
  fTxovf := false
  atab := initTable c
  newaddr := addrBcast
  commMode := .base
  hs := .disconnected
  ht0 := 0
  hdev := 0
  htgt := 1
  hplayers := Vector.replicate 4 0
  hbuttons := Vector.replicate 4 0
  hcoinslots := Vector.replicate 4 0
  htotal := 0
  hsw0 := Vector.replicate 4 0
  hsw1 := Vector.replicate 4 0
  hcoin := 0
  chanRx := []
  connectedIn := false
  readyIn := false
  downstreamReady := false
  tick := 0
  speedYes := []
  phase := .idle
  inputs := []
  trace := initOutputs c.role
  freeCount := 0

/-- The machine right after reset, with the configuration of log 1. -/
def State.reset : State := State.init Config.default

end Sys2Proof.Machine
end

