-- ==== Sys2Proof/Machine/Ops.lean ====
section
/-! DEFINITION. The shared operations: the two buffers, the frame codec's arithmetic, the trace, clearing,
transmitting, replying, and raising an error event. -/

namespace Sys2Proof.Machine

/-! ## Buffers -/

/-- The addresses rise strictly and no entry equals what an unlisted address reads as. -/
def Memory.wf : Memory → Bool
  | [] => true
  | (a, v) :: m => decide (v ≠ unlistedByte) && m.all (fun e => decide (a < e.1)) && Memory.wf m

/-- Every listed address is below `n`, the size of the buffer (rule R70). -/
def Memory.below (m : Memory) (n : Nat) : Bool := m.all fun e => decide (e.1 < n)

/-- `MemRead`: one byte, no side effect (rule R71). -/
def Memory.read : Memory → Nat → Byte
  | [], _ => unlistedByte
  | (k, v) :: m, a => if k = a then v else Memory.read m a

/-- `MemWrite`: one byte, keeping the canonical form (rule R71). -/
def Memory.write : Memory → Nat → Byte → Memory
  | [], a, v => if v = unlistedByte then [] else [(a, v)]
  | (k, w) :: m, a, v =>
    if a < k then
      if v = unlistedByte then (k, w) :: m else (a, v) :: (k, w) :: m
    else if a = k then
      if v = unlistedByte then m else (a, v) :: m
    else (k, w) :: Memory.write m a v

/-- The bytes at `i` up to but not including `j` (rule R12, `l[i..j)`). -/
def Memory.slice (m : Memory) (i j : Nat) : List Byte := (List.range' i (j - i)).map m.read

/-- `RXB[i]`. -/
def rxRead (s : State) (i : Nat) : Byte := s.rxb.read i

/-- `RXB[i .. j)`. -/
def rxSlice (s : State) (i j : Nat) : List Byte := s.rxb.slice i j

/-- `TXR[0 .. TXN)`, the pending reports (rule R30). -/
def pendingReports (s : State) : List Byte := s.txr.slice 0 s.txn.val

/-! ## Arithmetic of the codec -/

/-- `Sum8` (rules R15, R103). -/
def sum8 : List Byte → Byte
  | [] => 0
  | b :: rest => b + sum8 rest

/-- `Esc` (rules R15, R105). -/
def esc (b : Byte) : List Byte :=
  if b = symSync ∨ b = symMark then [symMark, b - 1] else [b]

/-- `EscAll` (rule R15). -/
def escAll : List Byte → List Byte
  | [] => []
  | b :: rest => esc b ++ escAll rest

/-- The payload operand of `FC_PACKET`: at most 254 bytes, by its type (rule R190, item U9). -/
structure Payload where
  bytes : List Byte
  bound : bytes.length ≤ 254
  deriving DecidableEq, Repr

/-- The bytes as a payload; `none` when they are more than one frame holds. -/
def Payload.ofBytes? (bytes : List Byte) : Option Payload :=
  if h : bytes.length ≤ 254 then some ⟨bytes, h⟩ else none

/-- `FC_PACKET(addr, payload)` (rule R190). -/
def fcPacket (addr : Byte) (payload : Payload) : List Byte :=
  let body := addr :: BitVec.ofNat 8 (payload.bytes.length + 1) :: payload.bytes
  body ++ [sum8 body]

/-- `FC_ENCODE(P)` (rule R192). -/
def fcEncode (p : List Byte) : List Byte := symSync :: escAll p

/-! ## The trace -/

/-- Output primitives and events are appended in call order (rules R75, R81). -/
def emitAll (es : List PortEvent) (s : State) : State := { s with trace := s.trace ++ es }

/-- One output primitive or event. -/
def emit (e : PortEvent) (s : State) : State := emitAll [e] s

/-- The end of a call: it returns `r` and no call is running. -/
def finish (r : Result) (s : State) : State :=
  { s with phase := .idle, trace := s.trace ++ [.returned r] }

/-! ## Clearing -/

/-- `RX_RESET` (rule R29). -/
def rxReset (s : State) : State :=
  { s with
    rxw := 0, rxr := 2
    fFraming := false, fEsc := false, fComplete := false, fSumerr := false }

/-- `FRAME_CLEAR` (rule R29). -/
def frameClear (s : State) : State :=
  { s with
    rxw := 0, rxr := 2
    fFraming := false, fEsc := false, fComplete := false, fSumerr := false
    txn := if s.cfg.role = .node then 0 else s.txn
    newaddr := if s.cfg.role = .node then addrBcast else s.newaddr
    fTxovf := if s.cfg.role = .node then false else s.fTxovf }

/-! ## Transmitting -/

/-- The port calls of `FC_TRANSMIT(P)`, in the order of rule R196. -/
def transmitEvents (p : List Byte) : List PortEvent :=
  [.txBegin, .dir .output] ++ (fcEncode p).map .write ++ [.dir .input, .txEnd]

/-- `FC_TRANSMIT(P)` (rule R196). -/
def fcTransmit (p : List Byte) (s : State) : State := emitAll (transmitEvents p) s

/-- The port calls of `NE_TRANSMIT(P)`: the guard delay at the base speed only, then the frame (rule R279). -/
def nodeTransmitEvents (s : State) (p : List Byte) : List PortEvent :=
  (if s.commMode = .base then [.delayUs s.cfg.tGuardUs] else []) ++ transmitEvents p

/-- `NE_TRANSMIT(P)` (rule R279). -/
def neTransmit (p : List Byte) (s : State) : State := emitAll (nodeTransmitEvents s p) s

/-- `HE_SEND(addr, payload)` (rule R310). -/
def heSend (addr : Byte) (payload : Payload) (s : State) : State :=
  { fcTransmit (fcPacket addr payload) (frameClear s) with ht0 := s.tick }

/-! ## Reports and status packets -/

/-- `NE_PUSH(b)` (rules R274, R276): ignored after an overflow; stored while there is room; otherwise the
overflow flag is raised. -/
def nePush (b : Byte) (s : State) : State :=
  { s with
    txr := if s.fTxovf = false ∧ s.txn.val < txReportCap then s.txr.write s.txn.val b else s.txr
    txn := if h : s.fTxovf = false ∧ s.txn.val < 253 then ⟨s.txn.val + 1, by omega⟩ else s.txn
    fTxovf := if s.txn.val < txReportCap then s.fTxovf else true }

/-- `NE_REPLY(st)`: an error status with no report (rule R277). -/
def neReply (st : Byte) (s : State) : State :=
  let p := fcPacket addrHost ⟨[st], by simp⟩
  neTransmit p { s with txlast := some p }

/-- The least index of an unassigned slot (rule R277). -/
def firstFree (table : List Byte) : Option Nat := table.findIdx? fun a => decide (a = addrBcast)

/-- The commit of a staged address by `NE_SEND_STATUS`: the first unassigned slot takes it, and filling the last
slot asserts both signals (rule R277). With no free slot, which rule R266 excludes, the address is dropped
(log 14). -/
def commitAddress (s : State) : State :=
  if s.newaddr = addrBcast then s
  else
    match firstFree s.atab with
    | none => { s with newaddr := addrBcast }
    | some i =>
      { s with
        atab := s.atab.set i s.newaddr
        newaddr := addrBcast
        trace := s.trace ++ (if i + 1 = s.cfg.ndev then [.readyOut true, .ledOut true] else []) }

/-- The status byte and the pending reports fit a payload: `TXN` is at most 253 (rules R31, R190). -/
theorem okReply_bound (s : State) : (codeOk :: pendingReports s).length ≤ 254 := by
  simp [pendingReports, Memory.slice]

/-- The payload of the OK status packet: the status byte, then the pending reports (rule R277). -/
def okReply (s : State) : Payload := ⟨codeOk :: pendingReports s, okReply_bound s⟩

/-- `NE_SEND_STATUS` (rule R277). -/
def neSendStatus (s : State) : State :=
  let p := fcPacket addrHost (okReply s)
  { neTransmit p { commitAddress s with txlast := some p } with txn := 0 }

/-! ## Disconnecting -/

/-- `HE_DISCONNECT` (rule R316). -/
def heDisconnect (s : State) : State :=
  frameClear
    { s with
      hs := .disconnected
      hdev := 0, htgt := 1, htotal := 0, hcoin := 0
      hplayers := Vector.replicate 4 0, hbuttons := Vector.replicate 4 0
      hcoinslots := Vector.replicate 4 0
      hsw0 := Vector.replicate 4 0, hsw1 := Vector.replicate 4 0 }

/-- The signal and table lines of rule R264, which `RESET` and `NE_LINK_LOST` share (rule R265). -/
def unassignAll (s : State) : State :=
  { s with
    atab := List.replicate s.atab.length addrBcast
    trace := s.trace ++ [.readyOut false, .ledOut false] }

/-! ## Error events -/

/-- The causes of `SessionError` (rule R380). -/
inductive SessionCause where
  | timeout
  | invalidResponse
  | unexpected
  deriving DecidableEq, Repr

/-- The six error events (rule R380). -/
inductive ErrorEvent where
  | checksumError
  | unknownCommand (op : Byte)
  | lengthOverrun
  | reportOverflow
  | sessionError (k : SessionCause)
  | linkLost
  deriving DecidableEq, Repr

/-- The error state a session error leaves the host in (rules R360 to R362). -/
def SessionCause.state : SessionCause → HostState
  | .timeout => .timeout
  | .invalidResponse => .invalidResponse
  | .unexpected => .unexpected

/-- "The received opcode" of a failed frame is the first payload byte, when there is one; reset and
comm-mode-change get no checksum-error reply (rule R226). -/
def exemptFrame (s : State) : Bool :=
  decide (2 ≤ (rxRead s 1).toNat) && (decide (rxRead s 2 = 0xF0) || decide (rxRead s 2 = 0xF2))

/-- An error status and the end of the frame (rules R254, R258, R260, R276). -/
def errorReply (st : Byte) (s : State) : State := frameClear (neReply st s)

/-- The effect of an error event, the whole of what the block has in place of a trap (rules R13, R380 to
R387): no cause register, no saved cursor, no change of mode (rule R390), and no return operation (rule
R391). The checksum error and the overflow are marked by a flag here and answered by the next `NE_NEXT`. -/
def raise (e : ErrorEvent) (s : State) : State :=
  match e with
  | .checksumError =>
    if s.cfg.role = .host ∨ exemptFrame s = true then frameClear s else { s with fSumerr := true }
  | .unknownCommand op => errorReply codeUnknown (emit (.evUnknownOpcode op) s)
  | .lengthOverrun => errorReply codeUnknown s
  | .reportOverflow => { s with fTxovf := true }
  | .sessionError k => { s with hs := k.state }
  | .linkLost =>
    match s.cfg.role with
    | .host => heDisconnect s
    | .node => frameClear (unassignAll s)

end Sys2Proof.Machine
end

