-- ==== Sys2Proof/Machine/Operands.lean ====
section
/-! DEFINITION. Where operands come from: the address table, the frame in the receive buffer, the reply a
host parses, the channel's answer to a speed request. -/

namespace Sys2Proof.Machine

/-! ## Addresses -/

/-- The address table the filter uses; in host role it is the constant `[0x00]` (rules R34, R223). -/
def addressTable (s : State) : List Byte :=
  match s.cfg.role with
  | .node => s.atab
  | .host => [addrHost]

/-- `AddrMatch(a)` (rule R223). -/
def addrMatch (s : State) (a : Byte) : Bool :=
  decide (a = addrBcast) || (addressTable s).any fun x => decide (x = a)

/-- `Dev(a)`, the resolved device index (rule R261). -/
def deviceIndex (s : State) (a : Byte) : Option Nat :=
  if a = addrBcast then none else s.atab.findIdx? fun x => decide (x = a)

/-- A slot of the table is unassigned (rule R266). -/
def hasFreeSlot (s : State) : Bool := s.atab.any fun x => decide (x = addrBcast)

/-! ## The command at the read cursor -/

/-- The index of the checksum byte, `RXB[1] + 1` (rule R252). -/
def checksumIndex (s : State) : Nat := (rxRead s 1).toNat + 1

/-- The end of the bytes a fetch may use: the checksum's index in a verified frame, else no further than what
is buffered (rule R252). -/
def fetchLimit (s : State) : Nat :=
  if s.fComplete then checksumIndex s else min (checksumIndex s) s.rxw.val

/-- The buffered payload bytes from the read cursor on (rule R256). -/
def fetchBytes (s : State) : List Byte := rxSlice s s.rxr (fetchLimit s)

/-! ## The reply a host parses -/

/-- `Pay(P)` for the frame in the receive buffer: without address, length and checksum (rule R308). -/
def replyPayload (s : State) : List Byte := rxSlice s 2 (s.rxw.val - 1)

/-- Element `i` of a host array of four; the rules index it with 0 to 3 only (rules R41, R43). -/
def cell (v : Vector Byte 4) (i : Nat) : Byte := (v)[i]?.getD 0

/-- The device index of the current target, `HTGT - 1` (rule R40). -/
def targetIndex (s : State) : Nat := s.htgt - 1

/-- Switch bytes per player of the current target (rule R352). -/
def bytesPerPlayer (s : State) : Nat := ((cell s.hbuttons (targetIndex s)).toNat + 7) / 8

/-- Players of the current target (rule R354). -/
def targetPlayers (s : State) : Nat := (cell s.hplayers (targetIndex s)).toNat

/-- Coin slots of the current target (rule R354). -/
def targetCoinSlots (s : State) : Nat := (cell s.hcoinslots (targetIndex s)).toNat

/-- The players of the devices before the current target (rule R354). -/
def playersBefore (s : State) : Nat :=
  ((List.range (targetIndex s)).map fun d => (cell s.hplayers d).toNat).sum

/-- Byte `i` of a payload. -/
def payAt (p : List Byte) (i : Nat) : Byte := (p)[i]?.getD 0

/-- The coin counter of slot `s` of a sync reply, high byte first, its low 14 bits (rules R78, R354, R355). -/
def coinCounter (p : List Byte) (q slot : Nat) : Nat :=
  ((payAt p (q + 1 + 2 * slot)).toNat % 64) * 256 + (payAt p (q + 2 + 2 * slot)).toNat

/-- `ParseFeatures` from the first record on (rule R345); `acc` holds players, buttons and coin slots. -/
def parseRecords : List Byte → Byte × Byte × Byte → Option (Byte × Byte × Byte)
  | f :: p1 :: p2 :: _ :: rest, (players, buttons, coins) =>
    if f = 0x00 then none
    else if f = 0x01 then parseRecords rest (p1, p2, coins)
    else if f = 0x02 then parseRecords rest (players, buttons, p1)
    else parseRecords rest (players, buttons, coins)
  | [f], acc => if f = 0x00 then some acc else none
  | _, _ => none

/-- `ParseFeatures(p)`: players, buttons and coin slots of a function-check reply (rule R345). -/
def parseFeatures (p : List Byte) : Option (Byte × Byte × Byte) := parseRecords (p.drop 2) (0, 0, 0)

/-! ## The channel -/

/-- `ChanSpeed(m, commit)`: what the channel answers (rule R401). -/
def chanSpeed (s : State) (m : CommMode) (commit : Bool) : Bool := s.speedYes.contains (m, commit)

/-- `SPEED_OF` (rule R11). -/
def speedOf (s : State) (b : Byte) : Option CommMode := s.cfg.speedOf.lookup b

end Sys2Proof.Machine
end

