-- ==== Sys2Proof/Machine/Flags.lean ====
section
/-! DEFINITION. The conditions the rules test: structural completion, checksum, timeouts, session states. -/

namespace Sys2Proof.Machine

/-! ## Receive flags -/

/-- A frame waits for the engine, and the decoder stalls (rule R212). -/
def framePending (s : State) : Bool := s.fComplete || s.fSumerr

/-- The frame is structurally complete and its end has not run yet: "two or more bytes are buffered and the
buffered count equals `length_field + 2`" (rule R220). -/
def frameEndDue (s : State) : Bool :=
  s.fFraming && decide (2 ≤ s.rxw.val) && decide (s.rxw.val = (rxRead s 1).toNat + 2)

/-- The checksum validator: the sum of all bytes except the last against the last (rules R103, R222). -/
def checksumOk (s : State) : Bool :=
  decide (sum8 (rxSlice s 0 (s.rxw.val - 1)) = rxRead s (s.rxw.val - 1))

/-! ## Time -/

/-- `Elapsed(t0, t1)` for ticks of `bits` bits (rules R15, R306). -/
def elapsed (bits t0 t1 : Nat) : Nat := (t1 + (2 ^ bits - t0 % 2 ^ bits)) % 2 ^ bits

/-- Ticks since `HT0` (rule R306). -/
def sinceHt0 (s : State) : Nat := elapsed s.cfg.tickBits s.ht0 s.tick

/-- `TimedOut()` (rule R306). -/
def timedOut (s : State) : Bool := decide (s.cfg.tResponse ≤ sinceHt0 s)

/-! ## Host states -/

/-- The wait states (rule R303). -/
def HostState.isWait : HostState → Bool
  | .disconnected => false
  | .connected => false
  | .reset1 => false
  | .reset2 => false
  | .address => false
  | .addressWait => true
  | .readyCheck => false
  | .reqIoid => false
  | .waitIoid => true
  | .reqCmdrev => false
  | .waitCmdrev => true
  | .reqJvrev => false
  | .waitJvrev => true
  | .reqProtover => false
  | .waitProtover => true
  | .reqFeatchk => false
  | .waitFeatchk => true
  | .ready => false
  | .reqSync => false
  | .waitSync => true
  | .waitCoinSync => true
  | .timeout => false
  | .invalidResponse => false
  | .unexpected => false

/-- The session states, in which `HE_RUN` returns true (rules R303, R318). -/
def HostState.isSession : HostState → Bool
  | .disconnected => false
  | .connected => false
  | .reset1 => false
  | .reset2 => false
  | .address => false
  | .addressWait => false
  | .readyCheck => false
  | .reqIoid => false
  | .waitIoid => false
  | .reqCmdrev => false
  | .waitCmdrev => false
  | .reqJvrev => false
  | .waitJvrev => false
  | .reqProtover => false
  | .waitProtover => false
  | .reqFeatchk => false
  | .waitFeatchk => false
  | .ready => true
  | .reqSync => true
  | .waitSync => true
  | .waitCoinSync => true
  | .timeout => false
  | .invalidResponse => false
  | .unexpected => false

/-- The number of a host state (rule R302). -/
def HostState.number : HostState → Nat
  | .disconnected => 0
  | .connected => 1
  | .reset1 => 2
  | .reset2 => 3
  | .address => 4
  | .addressWait => 5
  | .readyCheck => 6
  | .reqIoid => 7
  | .waitIoid => 8
  | .reqCmdrev => 9
  | .waitCmdrev => 10
  | .reqJvrev => 11
  | .waitJvrev => 12
  | .reqProtover => 13
  | .waitProtover => 14
  | .reqFeatchk => 15
  | .waitFeatchk => 16
  | .ready => 17
  | .reqSync => 18
  | .waitSync => 19
  | .waitCoinSync => 20
  | .timeout => 21
  | .invalidResponse => 22
  | .unexpected => 23

/-- A wait state of the host has a verified frame to look at (rule R313). -/
def replyAwaited (s : State) : Bool :=
  decide (s.cfg.role = .host) && s.hs.isWait && s.fComplete

/-- The part of a well-formed reply that stands before its status byte: `Addr(P) = 0x00` and at least two
payload bytes (rule R312). -/
def replyFramed (s : State) : Bool :=
  decide (rxRead s 0 = addrHost) && decide (2 ≤ (replyPayload s).length)

end Sys2Proof.Machine
end

