-- ==== Sys2Proof/Machine/Wire.lean ====
section
/-! DEFINITION. The frame decoder (42_frame_decoder.md): one byte, the end of a frame, and the meanings of
the wire symbols and of the special addresses. -/

namespace Sys2Proof.Machine

/-! ## One byte -/

/-- The arm `b = SYNC`: the frame so far is forgotten, the downstream-ready signal is snapshotted in node role,
framing begins (rules R213, R217). In host role `DSR_SNAP` gets an unspecified value (rule R28, log 3). -/
def takeSync (s : State) : State :=
  { frameClear s with
    dsrSnap := if s.cfg.role = .node then s.downstreamReady else Config.freeDsrSnap s.freeCount
    freeCount := if s.cfg.role = .node then s.freeCount else s.freeCount + 1
    fFraming := true }

/-- The arm `b = MARK`: discarded while not framing, else the escape flag is set and nothing is stored (rules
R214, R215). -/
def takeMark (s : State) : State := if s.fFraming then { s with fEsc := true } else s

/-- The value a byte is stored as: one more, modulo 256, after an escape marker (rules R106, R216). -/
def storedValue (s : State) (b : Byte) : Byte := if s.fEsc then b + 1 else b

/-- The arms of `FC_DECODE_BYTE` for a byte that is neither `SYNC` nor `MARK`, up to the test for the frame's
end: discarded while not framing, refused by a full buffer, else stored (rules R214, R216, R218). -/
def takePlain (b : Byte) (s : State) : State :=
  if s.fFraming = false then s
  else if h : s.rxw.val < 256 then
    { s with
      rxb := s.rxb.write s.rxw.val (storedValue s b)
      rxw := ⟨s.rxw.val + 1, by omega⟩
      fEsc := false }
  else frameClear s

/-- `FC_DECODE_BYTE(b)` up to the test for the frame's end, which `frameEndDue` is. -/
def takeByte (b : Byte) (s : State) : State :=
  if b = symSync then takeSync s else if b = symMark then takeMark s else takePlain b s

/-! ## The end of a frame -/

/-- `FC_FRAME_END` for a frame whose address byte is `a`: filter first, checksum second (rules R222, R223,
R224, R226, R227). -/
def frameEnd (a : Byte) (s : State) : State :=
  let ended := { s with fFraming := false }
  if addrMatch s a = false then frameClear ended
  else if checksumOk s then { ended with fComplete := true }
  else raise .checksumError ended

/-- `FC_FRAME_END` if the frame is structurally complete (rule R220). -/
def endIfDue (s : State) : State := if frameEndDue s then frameEnd (rxRead s 0) s else s

/-- `FC_DECODE_BYTE(b)` whole: the test for the frame's end is made only after a stored byte (rules R217,
R220). -/
def fcDecodeByte (b : Byte) (s : State) : State :=
  if b = symSync ∨ b = symMark ∨ s.fFraming = false then takeByte b s else endIfDue (takePlain b s)

/-! ## Meanings -/

/-- `SYNC`: `ChanRead()` takes the byte from the channel and the decoder restarts framing (rules R210, R213). -/
def execSync (s : State) : Outcome := .next (takeSync { s with chanRx := s.chanRx.tail })

/-- `MARK`: `ChanRead()` takes the byte from the channel and, while framing, the escape flag is set (rules
R210, R214, R215). -/
def execMark (s : State) : Outcome := .next (takeMark { s with chanRx := s.chanRx.tail })

/-- `ADDR_HOST` as the address of a structurally complete frame: a reply, which passes a host's filter (rules
R73, R222, R223). -/
def execAddrHost (s : State) : Outcome := .next (frameEnd addrHost s)

/-- `ADDR_BCAST` as the address of a structurally complete frame: a frame for every node, which passes every
filter (rules R73, R222, R223). -/
def execAddrBcast (s : State) : Outcome := .next (frameEnd addrBcast s)

end Sys2Proof.Machine
end

