-- ==== Sys2Proof/Machine/NodeOps.lean ====
section
/-! DEFINITION. What the Node Engine's dispatch rules share (43_node_engine.md, R262 to R273). -/

namespace Sys2Proof.Machine

/-- A meaning of the Node Engine: "Every rule here applies only when `ROLE = node`" (43_node_engine.md). -/
def onNode (f : State → State) (s : State) : Outcome :=
  match s.cfg.role with
  | .node => .next (f s)
  | .host => .refused .noNodeEngine

/-- The read cursor moves past the command (rules R252, R263). -/
def advance (i : Instr) (s : State) : State := { s with rxr := s.rxr + (encode i).length }

/-- A surfaced command: handed to the application as buffered, with the device index and whether its frame is
verified (rules R251, R273, R281). -/
def surface (i : Instr) (s : State) : State :=
  finish (.command (deviceIndex s (rxRead s 0)) (encode i) s.fComplete) (advance i s)

/-- A command answered inside the engine with `RP_OK` and one byte; the loop of `NE_NEXT` goes on (rules R267
to R269, R271). -/
def answerByte (i : Instr) (b : Byte) (s : State) : State := advance i (nePush b (nePush reportOk s))

/-- A command answered inside the engine with `RP_OK` alone (rule R270). -/
def answerOk (i : Instr) (s : State) : State := advance i (nePush reportOk s)

/-- The frame is abandoned: no reply, and `NE_NEXT` returns `None` (rule R262). -/
def abandon (s : State) : State := finish .none (frameClear s)

/-- `RESET`, `SETADDR`, `COMMCHG` and `RETRY` are withheld until the frame is verified: `NE_NEXT` returns
`Incomplete` and nothing else happens (rule R257). -/
def whenVerified (f : State → State) (s : State) : State :=
  if s.fComplete then f s else finish .incomplete s

end Sys2Proof.Machine
end

