-- ==== Sys2Proof/Machine/Bus.lean ====
section
/-! DEFINITION. The commands that act on the bus itself and are withheld until the frame is verified: reset,
address-set, link-speed change, retry (rules R257, R264, R266, R271, R272). -/

namespace Sys2Proof.Machine

/-- The effect of `RESET`: both signals deasserted, the table cleared, the frame abandoned, the command
surfaced with the device index it had before (rule R264). -/
def resetNode (arg : Byte) (s : State) : State :=
  finish (.command (deviceIndex s (rxRead s 0)) (encode (.reset arg)) true)
    (frameClear (unassignAll s))

/-- `RESET` (rules R257, R264). -/
def execReset (arg : Byte) (s : State) : Outcome := onNode (whenVerified (resetNode arg)) s

/-- The effect of `SETADDR`: with the snapshot true and a free slot the address is staged and answered OK,
otherwise the frame is abandoned (rule R266). -/
def stageAddress (addr : Byte) (s : State) : State :=
  if s.dsrSnap = true ∧ hasFreeSlot s = true then
    answerOk (.setaddr addr) { s with newaddr := addr }
  else abandon s

/-- `SETADDR` (rules R257, R266). -/
def execSetaddr (addr : Byte) (s : State) : Outcome := onNode (whenVerified (stageAddress addr)) s

/-- The speed switch of `COMMCHG`: the mode is kept if the argument selects none or the channel refuses (rule
R271). -/
def switchSpeed (mode : Byte) (s : State) : State :=
  match speedOf s mode with
  | none => s
  | some m =>
    if chanSpeed s m true then emit (.speedCommit m true) { s with commMode := m }
    else emit (.speedCommit m false) s

/-- `COMMCHG` (rules R257, R271). -/
def execCommchg (mode : Byte) (s : State) : Outcome :=
  onNode (whenVerified fun t => abandon (switchSpeed mode t)) s

/-- The re-transmission of `RETRY`: the last composed packet, if there is one (rule R272). -/
def resendLast (s : State) : State :=
  match s.txlast with
  | none => s
  | some p => neTransmit p s

/-- `RETRY` (rules R257, R272). -/
def execRetry (s : State) : Outcome := onNode (whenVerified fun t => abandon (resendLast t)) s

end Sys2Proof.Machine
end

