-- ==== Sys2Proof/Machine/Queries.lean ====
section
/-! DEFINITION. The commands the Node Engine answers itself from any frame: revisions, main id, link-speed
query (rules R267 to R271). -/

namespace Sys2Proof.Machine

/-- `CMDREV` (rule R267). -/
def execCmdrev (s : State) : Outcome := onNode (answerByte .cmdrev s.cfg.cmdRev) s

/-- `JVSREV` (rule R268). -/
def execJvsrev (s : State) : Outcome := onNode (answerByte .jvsrev s.cfg.jvRev) s

/-- The revision byte of the protocol-version query: which of the two depends on the dry run of the higher
speeds (rule R269). -/
def protocolVersion (s : State) : Byte :=
  if chanSpeed s .fast1 false || chanSpeed s .fast2 false then s.cfg.protoVerFast else s.cfg.protoVer

/-- `COMMVER` (rule R269). -/
def execCommver (s : State) : Outcome := onNode (answerByte .commver (protocolVersion s)) s

/-- `MAINID`: the text is dropped (rule R270). -/
def execMainid (text : List Byte) (s : State) : Outcome := onNode (answerOk (.mainid text)) s

/-- `COMMSUP` (rule R271). -/
def execCommsup (s : State) : Outcome := onNode (answerByte .commsup s.cfg.speedMask) s

end Sys2Proof.Machine
end

