-- ==== Sys2Proof/Machine/HostOps.lean ====
section
/-! DEFINITION. The Host Engine (44_host_engine.md): the arms of the 24 states. -/

namespace Sys2Proof.Machine

/-- The end of `HE_RUN`: it returns whether the state is now a session state (rules R304, R318). -/
def finishHost (s : State) : State := finish (.bool s.hs.isSession) s

/-- The state changes and the call ends. -/
def goHost (t : HostState) (s : State) : State := finishHost { s with hs := t }

/-- The pending frame is taken and not accepted: `invalid-response` (rules R308, R312, R313, R361). -/
def invalidReply (s : State) : State :=
  finishHost (raise (.sessionError .invalidResponse) (frameClear s))

/-! ## Send and timed states -/

/-- The single-command request of a `REQ_x` state (rule R332). -/
def query (op : Byte) (next : HostState) (s : State) : State :=
  goHost next (heSend (BitVec.ofNat 8 s.htgt) ⟨[op], by simp⟩ s)

/-- The sync request of `REQ_SYNC`: switch and coin input in one frame (rule R352). -/
def syncRequest (s : State) : Payload :=
  ⟨[0x20, cell s.hplayers (targetIndex s), BitVec.ofNat 8 (bytesPerPlayer s), 0x21,
    cell s.hcoinslots (targetIndex s)], by simp⟩

/-- The broadcast reset of `RESET1` and `RESET2` (rules R322, R323). -/
def sendReset (next : HostState) (s : State) : State :=
  goHost next (heSend addrBcast ⟨[0xF0, s.cfg.resetArg], by simp⟩ s)

/-- `ADDRESS`: the next address, or `unexpected` when it would be 255 (rule R326). -/
def assignAddress (s : State) : State :=
  if s.hdev + 1 = 255 then finishHost (raise (.sessionError .unexpected) s)
  else goHost .addressWait (heSend addrBcast ⟨[0xF1, BitVec.ofNat 8 (s.hdev + 1)], by simp⟩ s)

/-- `READY_CHECK`: the signal first, then the clock (rule R328). -/
def readyCheck (s : State) : State :=
  if s.readyIn then goHost .reqIoid { s with htgt := 1 }
  else if s.cfg.tReadyGrace ≤ sinceHt0 s then goHost .address s
  else finishHost s

/-- A wait state with no frame: the timeout, or it stays (rule R313). -/
def waitOn (s : State) : State :=
  if timedOut s then finishHost (raise (.sessionError .timeout) s) else finishHost s

/-- The arm of `case HS of` when no reply is looked at (rules R320 to R332, R348, R352, R360 to R362; a wait state
with no frame, rule R313). -/
def hostArm (s : State) : State :=
  match s.hs with
  | .disconnected => goHost .connected { s with ht0 := s.tick }
  | .connected => if s.cfg.tSettle ≤ sinceHt0 s then goHost .reset1 s else finishHost s
  | .reset1 => sendReset .reset2 s
  | .reset2 => sendReset .address s
  | .address => assignAddress s
  | .addressWait => waitOn s
  | .readyCheck => readyCheck s
  | .reqIoid => query 0x10 .waitIoid s
  | .waitIoid => waitOn s
  | .reqCmdrev => query 0x11 .waitCmdrev s
  | .waitCmdrev => waitOn s
  | .reqJvrev => query 0x12 .waitJvrev s
  | .waitJvrev => waitOn s
  | .reqProtover => query 0x13 .waitProtover s
  | .waitProtover => waitOn s
  | .reqFeatchk => query 0x14 .waitFeatchk s
  | .waitFeatchk => waitOn s
  | .ready => finishHost s
  | .reqSync => goHost .waitSync (heSend (BitVec.ofNat 8 s.htgt) (syncRequest s) s)
  | .waitSync => waitOn s
  | .waitCoinSync => waitOn s
  | .timeout => finishHost (heDisconnect s)
  | .invalidResponse => finishHost (heDisconnect s)
  | .unexpected => finishHost (heDisconnect s)

/-! ## Accepted replies -/

/-- `Advance()`: the next target, or the snapshot and `READY` (rule R358). -/
def advanceTarget (s : State) : State :=
  if s.htgt < min s.hdev hostDevCap then { s with htgt := s.htgt + 1, hs := .reqSync }
  else emit (.evSynced s.htotal s.hcoin s.hsw0 s.hsw1) { s with hs := .ready }

/-- The device's counts are cached, for the first four devices only (rule R344). -/
def cacheFeatures (players buttons coins : Byte) (s : State) : State :=
  if targetIndex s < hostDevCap then
    { s with
      hplayers := s.hplayers.setIfInBounds (targetIndex s) players
      hbuttons := s.hbuttons.setIfInBounds (targetIndex s) buttons
      hcoinslots := s.hcoinslots.setIfInBounds (targetIndex s) coins
      htotal := min playerCap (s.htotal + players.toNat) }
  else s

/-- After the function check: the next device, or `READY` (rule R346). -/
def afterFeatures (s : State) : State :=
  if s.htgt < s.hdev then { s with htgt := s.htgt + 1, hs := .reqIoid } else { s with hs := .ready }

/-- Switch byte `j` of player `k` of a sync reply, zero when the device reports fewer bytes (rule R354). -/
def switchByte (p : List Byte) (bpp k j : Nat) : Byte :=
  if j < bpp then payAt p (3 + k * bpp + j) else 0

/-- One switch map after a sync reply: slot `g` of the players `base` to `base + np - 1` takes switch byte `j`
of its player, for the first four slots (rule R354). -/
def switchMap (p : List Byte) (bpp np base j : Nat) (old : Vector Byte 4) : Vector Byte 4 :=
  (List.range np).foldl (fun v k => v.setIfInBounds (base + k) (switchByte p bpp k j)) old

/-- The first slot of a sync reply with coins whose global slot is one of the four (rule R355). -/
def coinSlot (p : List Byte) (q nc base : Nat) : Option Nat :=
  (List.range nc).find? fun slot => decide (0 < coinCounter p q slot) && decide (base + slot < playerCap)

/-- `CoinStep`: one coin is flagged and subtracted, or the cycle goes on (rules R355, R356). -/
def coinStep (p : List Byte) (q nc base : Nat) (s : State) : State :=
  match coinSlot p q nc base with
  | some slot =>
    { heSend (BitVec.ofNat 8 s.htgt) ⟨[0x30, BitVec.ofNat 8 (slot + 1), 0x00, 0x01], by simp⟩
        { s with hcoin := s.hcoin ||| (1#8 <<< (base + slot)) } with
      hs := .waitCoinSync }
  | none => advanceTarget s

/-- The index of the second report code of a sync reply (rule R354). -/
def secondReportIndex (s : State) : Nat := 3 + targetPlayers s * bytesPerPlayer s

/-- `Accept(P)` of `WAIT_SYNC` (rule R354). -/
def syncReplyOk (p : List Byte) (s : State) : Bool :=
  decide (p.length = 4 + targetPlayers s * bytesPerPlayer s + 2 * targetCoinSlots s) &&
  decide (payAt p (secondReportIndex s) = reportOk)

/-- The action of `WAIT_SYNC`: the switch maps, then the coins (rules R354, R355). -/
def takeSyncReply (p : List Byte) (s : State) : State :=
  coinStep p (secondReportIndex s) (targetCoinSlots s) (playersBefore s)
    { s with
      hsw0 := switchMap p (bytesPerPlayer s) (targetPlayers s) (playersBefore s) 0 s.hsw0
      hsw1 := switchMap p (bytesPerPlayer s) (targetPlayers s) (playersBefore s) 1 s.hsw1 }

/-- A revision reply: exactly three payload bytes (rules R338 to R340). -/
def takeRevision (p : List Byte) (kind : CapKind) (next : HostState) (s : State) : Option State :=
  if p.length = 3 then
    some { emit (.evCapability s.htgt kind [payAt p 2]) s with hs := next }
  else none

/-- `Accept(P)` and action of each wait state, for the payload `p` of a well-formed reply, from the state with the
frame taken; `none` when the state does not accept it (rules R327, R336 to R346, R354, R357). -/
def acceptReply (p : List Byte) (s : State) : Option State :=
  match s.hs with
  | .addressWait =>
    if p = [codeOk, reportOk] then
      some { s with hdev := s.hdev + 1, ht0 := s.tick, hs := .readyCheck }
    else none
  | .waitIoid => some { emit (.evCapability s.htgt .ioid (p.drop 2)) s with hs := .reqCmdrev }
  | .waitCmdrev => takeRevision p .cmdrev .reqJvrev s
  | .waitJvrev => takeRevision p .jvrev .reqProtover s
  | .waitProtover => takeRevision p .protover .reqFeatchk s
  | .waitFeatchk =>
    match parseFeatures p with
    | none => none
    | some (players, buttons, coins) =>
      some (afterFeatures
        (emit (.evCapability s.htgt .featchk (p.drop 2)) (cacheFeatures players buttons coins s)))
  | .waitSync => if syncReplyOk p s then some (takeSyncReply p s) else none
  | .waitCoinSync => if p = [codeOk, reportOk] then some (advanceTarget s) else none
  | .disconnected => none
  | .connected => none
  | .reset1 => none
  | .reset2 => none
  | .address => none
  | .readyCheck => none
  | .reqIoid => none
  | .reqCmdrev => none
  | .reqJvrev => none
  | .reqProtover => none
  | .reqFeatchk => none
  | .ready => none
  | .reqSync => none
  | .timeout => none
  | .invalidResponse => none
  | .unexpected => none

/-- A well-formed reply is taken: accepted with its action, or `invalid-response` (rules R308, R313). -/
def takeReply (s : State) : State :=
  match acceptReply (replyPayload s) (frameClear s) with
  | some t => finishHost t
  | none => invalidReply s

/-- `HE_SYNC()` (rule R350). -/
def heSync (s : State) : State :=
  if s.hs = .ready then { s with htgt := 1, hcoin := 0, hs := .reqSync } else s

end Sys2Proof.Machine
end

