-- ==== Sys2Proof/Machine/Status.lean ====
section
/-! DEFINITION. The status codes and the report code: a node sends a status packet or pushes a report, a host
reads the status byte and the report code of the reply it waits for (rules R110, R111, R312). -/

namespace Sys2Proof.Machine

/-- A code that a node sends and a host reads in a wait state with a frame pending (rules R312, R313). -/
def byRole (node host : State → State) (s : State) : Outcome :=
  match s.cfg.role with
  | .node => .next (node s)
  | .host => if replyAwaited s then .next (host s) else .refused .noReplyAwaited

/-- `ST_OK`. Node: the status packet with the pending reports, at the end of a verified payload (rules R253,
R277). Host: the status is accepted and the report code is looked at next (rule R312). -/
def execStOk (s : State) : Outcome :=
  byRole (fun t => finish .none (frameClear (neSendStatus t))) (fun t => { t with phase := .hostReport }) s

/-- An error status sent by a node ends the frame and `NE_NEXT` returns `None` (rule R252). -/
def replyAndReturn (st : Byte) (s : State) : State := finish .none (errorReply st s)

/-- `ST_UNKNOWN`. Node: the reply to an unknown command or a length overrun (rules R258, R260). Host:
`invalid-response` (rule R312). -/
def execStUnknown (s : State) : Outcome := byRole (replyAndReturn codeUnknown) invalidReply s

/-- `ST_SUMERR`. Node: the reply to a checksum error (rule R254). Host: `invalid-response` (rule R312). -/
def execStSumerr (s : State) : Outcome := byRole (replyAndReturn codeSumerr) invalidReply s

/-- `ST_OVERFLOW`. Node: the reply in place of an overflowed report (rule R276). Host: `invalid-response` (rule
R312). -/
def execStOverflow (s : State) : Outcome := byRole (replyAndReturn codeOverflow) invalidReply s

/-- `RP_OK`. Node: the application pushes it, `NE_PUSH(RP_OK)` (rules R111, R274). Host: the report code of a
well-formed reply, so that the wait state accepts or rejects the rest (rules R312, R313). -/
def execRpOk (s : State) : Outcome :=
  byRole (fun t => finish .unit (nePush reportOk t)) takeReply s

end Sys2Proof.Machine
end

