-- ==== Sys2Proof/Machine/Surfaced.lean ====
section
/-! DEFINITION. The commands surfaced verbatim to the application (rule R273). -/

namespace Sys2Proof.Machine

/-- `IOIDENT` (rules R150, R273). -/
def execIoident (s : State) : Outcome := onNode (surface .ioident) s

/-- `FEATCHK` (rules R154, R273). -/
def execFeatchk (s : State) : Outcome := onNode (surface .featchk) s

/-- `SWINP` (rules R156, R273). -/
def execSwinp (players bytesPerPlayer : Byte) (s : State) : Outcome :=
  onNode (surface (.swinp players bytesPerPlayer)) s

/-- `COININP` (rules R157, R273). -/
def execCoininp (slots : Byte) (s : State) : Outcome := onNode (surface (.coininp slots)) s

/-- `ANLINP` (rules R158, R273). -/
def execAnlinp (channels : Byte) (s : State) : Outcome := onNode (surface (.anlinp channels)) s

/-- `ROTINP` (rules R159, R273). -/
def execRotinp (a : Byte) (s : State) : Outcome := onNode (surface (.rotinp a)) s

/-- `KEYINP` (rules R160, R273). -/
def execKeyinp (s : State) : Outcome := onNode (surface .keyinp) s

/-- `SCRPOSINP` (rules R161, R273). -/
def execScrposinp (a : Byte) (s : State) : Outcome := onNode (surface (.scrposinp a)) s

/-- `COINDEC` (rules R163, R273). -/
def execCoindec (slot amountHi amountLo : Byte) (s : State) : Outcome :=
  onNode (surface (.coindec slot amountHi amountLo)) s

/-- `PAYINC` (rules R164, R273). -/
def execPayinc (slot hi lo : Byte) (s : State) : Outcome := onNode (surface (.payinc slot hi lo)) s

/-- `OUTPUT1` (rules R165, R273). -/
def execOutput1 (data : List Byte) (s : State) : Outcome := onNode (surface (.output1 data)) s

/-- `ANLOUT` (rules R166, R273). -/
def execAnlout (data : List Byte) (s : State) : Outcome := onNode (surface (.anlout data)) s

/-- `CHAROUT` (rules R167, R273). -/
def execCharout (data : List Byte) (s : State) : Outcome := onNode (surface (.charout data)) s

/-- `COININC` (rules R168, R273). -/
def execCoininc (slot hi lo : Byte) (s : State) : Outcome := onNode (surface (.coininc slot hi lo)) s

/-- `VENDOR` (rules R169, R273). -/
def execVendor (body : List Byte) (s : State) : Outcome := onNode (surface (.vendor body)) s

end Sys2Proof.Machine
end

