-- ==== Sys2Proof/Machine/Dispatch.lean ====
section
/-! DEFINITION. The meaning of every instruction: one arm per constructor of `Instr`, each a call of that
instruction's own meaning. -/

namespace Sys2Proof.Machine

def exec (i : Instr) (s : State) : Host.Outcome State Fault Refusal :=
  match i with
  | .ioident => Sys2Proof.Machine.execIoident s
  | .cmdrev => Sys2Proof.Machine.execCmdrev s
  | .jvsrev => Sys2Proof.Machine.execJvsrev s
  | .commver => Sys2Proof.Machine.execCommver s
  | .featchk => Sys2Proof.Machine.execFeatchk s
  | .mainid text => Sys2Proof.Machine.execMainid text s
  | .swinp players bytesPerPlayer => Sys2Proof.Machine.execSwinp players bytesPerPlayer s
  | .coininp slots => Sys2Proof.Machine.execCoininp slots s
  | .anlinp channels => Sys2Proof.Machine.execAnlinp channels s
  | .rotinp a => Sys2Proof.Machine.execRotinp a s
  | .keyinp => Sys2Proof.Machine.execKeyinp s
  | .scrposinp a => Sys2Proof.Machine.execScrposinp a s
  | .retry => Sys2Proof.Machine.execRetry s
  | .coindec slot amountHi amountLo => Sys2Proof.Machine.execCoindec slot amountHi amountLo s
  | .payinc slot hi lo => Sys2Proof.Machine.execPayinc slot hi lo s
  | .output1 data => Sys2Proof.Machine.execOutput1 data s
  | .anlout data => Sys2Proof.Machine.execAnlout data s
  | .charout data => Sys2Proof.Machine.execCharout data s
  | .coininc slot hi lo => Sys2Proof.Machine.execCoininc slot hi lo s
  | .vendor body => Sys2Proof.Machine.execVendor body s
  | .commsup => Sys2Proof.Machine.execCommsup s
  | .reset arg => Sys2Proof.Machine.execReset arg s
  | .setaddr addr => Sys2Proof.Machine.execSetaddr addr s
  | .commchg mode => Sys2Proof.Machine.execCommchg mode s
  | .sync => Sys2Proof.Machine.execSync s
  | .mark => Sys2Proof.Machine.execMark s
  | .stOk => Sys2Proof.Machine.execStOk s
  | .stUnknown => Sys2Proof.Machine.execStUnknown s
  | .stSumerr => Sys2Proof.Machine.execStSumerr s
  | .stOverflow => Sys2Proof.Machine.execStOverflow s
  | .rpOk => Sys2Proof.Machine.execRpOk s
  | .addrHost => Sys2Proof.Machine.execAddrHost s
  | .addrBcast => Sys2Proof.Machine.execAddrBcast s

end Sys2Proof.Machine
end

