-- ==== Sys2Proof/Machine/Fetch.lean ====
section
/-! DEFINITION. What a step does around an instruction: the environment, the beginning of a call, and the
fetch of the next instruction in each phase of a call; and how a word of the opcode table is placed where
the next step fetches. -/

namespace Sys2Proof.Machine

/-! ## Environment and calls -/

/-- An event of the environment (rules R8, R74, R401 to R403). -/
def applyEnv (e : EnvEvent) (s : State) : State :=
  match e with
  | .byte b => { s with chanRx := s.chanRx ++ [b] }
  | .connected v => { s with connectedIn := v }
  | .ready v => { s with readyIn := v }
  | .downstream v => { s with downstreamReady := v }
  | .ticks n => { s with tick := (s.tick + n) % 2 ^ s.cfg.tickBits }
  | .speed yes => { s with speedYes := yes }

/-- `INIT` on a live instance: the state after `INIT`, but for what belongs to the collaborators and to the
model; the outputs are driven (rules R420 to R422). -/
def reinit (s : State) : State :=
  { State.init s.cfg with
    chanRx := s.chanRx
    connectedIn := s.connectedIn
    readyIn := s.readyIn
    downstreamReady := s.downstreamReady
    tick := s.tick
    speedYes := s.speedYes
    inputs := s.inputs
    trace := s.trace ++ initOutputs s.cfg.role
    freeCount := s.freeCount }

/-- The beginning of a call; the calls that do one thing are whole (rules R252, R265, R274, R282, R304, R305,
R350, R420). -/
def begin (c : Call) (s : State) : Outcome :=
  match c, s.cfg.role with
  | .neNext spec, .node => .next { s with phase := .receive (.neNext spec) }
  | .nePush b, .node => .next { s with phase := .push b }
  | .neBusy, .node => .next (finish (.bool s.fFraming) s)
  | .neOverflow, .node => .next (finish (.bool s.fTxovf) s)
  | .neLinkLost, .node => .next (finish .unit (raise .linkLost s))
  | .heRun, .host =>
    if s.connectedIn then .next { s with phase := .receive .heRun }
    else .next (finish (.bool false) (raise .linkLost s))
  | .heSync, .host => .next (finish .unit (heSync s))
  | .init, .node => .next (finish .unit (reinit s))
  | .init, .host => .next (finish .unit (reinit s))
  | .neNext _, .host => .refused .noNodeEngine
  | .nePush _, .host => .refused .noNodeEngine
  | .neBusy, .host => .refused .noNodeEngine
  | .neOverflow, .host => .refused .noNodeEngine
  | .neLinkLost, .host => .refused .noNodeEngine
  | .heRun, .node => .refused .noHostEngine
  | .heSync, .node => .refused .noHostEngine

/-! ## Fetching -/

/-- What the next step of a call is: an instruction to run in a state, or something the engine does itself. -/
inductive Fetched where
  | run (i : Instr) (s : State)
  | done (o : Outcome)

/-- The phase after `FC_RECEIVE` (rules R252, R304). -/
def Receiver.after : Receiver → Phase
  | .neNext spec => .nodeLoop spec
  | .heRun => .hostArm

/-- One turn of `FC_RECEIVE`: the loop ends when a frame is pending or the channel is empty, a frame that is
structurally complete is ended, otherwise one byte is decoded (rules R210, R212, R217, R220). -/
def fetchReceive (r : Receiver) (s : State) : Fetched :=
  if framePending s then .done (.next { s with phase := r.after })
  else if frameEndDue s then
    match decodeAddress (rxRead s 0) with
    | some i => .run i s
    | none => .done (.next (frameEnd (rxRead s 0) s))
  else
    match s.chanRx with
    | [] => .done (.next { s with phase := r.after })
    | b :: rest =>
      match decodeWire b with
      | some i => .run i s
      | none => .done (.next (takePlain b { s with chanRx := rest }))

/-- What `NE_NEXT` returns without looking at a command while the frame is not verified; `none` when it may look
(rules R252, R255). -/
def unverifiedResult (spec : Bool) (s : State) : Option Result :=
  if s.fComplete then none
  else if s.fFraming = false then some .none
  else if spec = false ∨ s.rxw.val < 2 ∨ addrMatch s (rxRead s 0) = false then some .incomplete
  else none

/-- In an unverified frame `NE_NEXT` waits: `Incomplete` (rules R252, R256, R259, R276). -/
def orIncomplete (s : State) (f : Fetched) : Fetched :=
  if s.fComplete then f else .done (.next (finish .incomplete s))

/-- The command at the read cursor, or the error its bytes are (rules R252, R256, R258 to R260). -/
def fetchCommand (s : State) : Fetched :=
  match decodeCommand s.cfg (fetchBytes s) with
  | .ok (i, _) => .run i s
  | .error (.unknownOpcode op) => orIncomplete s (.run .stUnknown (emit (.evUnknownOpcode op) s))
  | .error .incomplete => orIncomplete s (.run .stUnknown s)
  | .error (.overrun _) => orIncomplete s (.run .stUnknown s)
  | .error (.plainByte _) => orIncomplete s (.run .stUnknown s)
  | .error .noByte => orIncomplete s (.run .stUnknown s)

/-- One turn of the loop of `NE_NEXT(spec)`, its tests in the order of rules R252 and R395. -/
def fetchNode (spec : Bool) (s : State) : Fetched :=
  if s.fSumerr then .run .stSumerr s
  else
    match unverifiedResult spec s with
    | some r => .done (.next (finish r s))
    | none =>
      if s.fTxovf then orIncomplete s (.run .stOverflow s)
      else if fetchLimit s ≤ s.rxr then orIncomplete s (.run .stOk s)
      else fetchCommand s

/-- `NE_PUSH(b)`: the report code, or a byte opaque to the block (rules R111, R274). -/
def fetchPush (b : Byte) (s : State) : Fetched :=
  match decodeReport b with
  | some i => .run i s
  | none => .done (.next (finish .unit (nePush b s)))

/-- `case HS of`: in a wait state with a frame the reply's status byte is looked at, otherwise the arm of the state
runs (rules R304, R312, R313). -/
def fetchHost (s : State) : Fetched :=
  if s.hs.isWait ∧ s.fComplete = true then
    if replyFramed s then
      match decodeStatus (payAt (replyPayload s) 0) with
      | some i => .run i s
      | none => .done (.next (invalidReply s))
    else .done (.next (invalidReply s))
  else .done (.next (hostArm s))

/-- The reply's report code, its status having been `ST_OK` (rule R312). -/
def fetchReport (s : State) : Fetched :=
  match decodeReport (payAt (replyPayload s) 1) with
  | some i => .run i s
  | none => .done (.next (invalidReply s))

/-- The next step of the running call; without one the block does nothing (rules R8, R408). -/
def fetch (s : State) : Fetched :=
  match s.phase with
  | .idle => .done (.next s)
  | .receive r => fetchReceive r s
  | .nodeLoop spec => fetchNode spec s
  | .push b => fetchPush b s
  | .hostArm => fetchHost s
  | .hostReport => fetchReport s

/-- Who acts next. -/
inductive Turn where
  /-- the environment -/
  | env (e : EnvEvent) (s : State)
  /-- the application calls an entry point -/
  | call (c : Call) (s : State)
  /-- the running call goes on -/
  | block (s : State)

/-- The environment acts whenever its event is next; a call waits until no call is running (rule R438); a turn
lets the block do one step (log 5). -/
def nextTurn (s : State) : Turn :=
  match s.inputs with
  | .env e :: rest => .env e { s with inputs := rest }
  | .turn :: rest => .block { s with inputs := rest }
  | .call c :: rest => if s.phase = .idle then .call c { s with inputs := rest } else .block s
  | [] => .block s

/-! ## Placing a word of the opcode table -/

/-- The buffer that holds the bytes from index `i` on. -/
def Memory.ofBytes : Nat → List Byte → Memory
  | _, [] => []
  | i, b :: rest =>
    if b = unlistedByte then Memory.ofBytes (i + 1) rest else (i, b) :: Memory.ofBytes (i + 1) rest

/-- The first level at which the bytes are an instruction. -/
def firstLevel (cfg : Config) (bytes : List Byte) : List Level → Level
  | [] => .command
  | l :: rest =>
    match decode cfg l bytes with
    | .ok _ => l
    | .error _ => firstLevel cfg bytes rest

/-- The bytes of the command at the head of `bytes`; the first `n` bytes where there is none. -/
def commandBytes (cfg : Config) (n : Nat) (bytes : List Byte) : List Byte :=
  match decodeCommand cfg bytes with
  | .ok (i, _) => encode i
  | .error _ => bytes.take n

/-- A buffer length as a cursor. -/
def cursor (n : Nat) : Fin 257 := ⟨min n 256, by omega⟩

/-- A verified broadcast frame with the one command `p`, and `NE_NEXT` about to fetch it. -/
def placeCommand (p : Payload) (s : State) : State :=
  { s with
    cfg := { s.cfg.recognising p.bytes with role := .node }
    rxb := Memory.ofBytes 0 (fcPacket addrBcast p)
    rxw := cursor (p.bytes.length + 3), rxr := 2
    fFraming := false, fEsc := false, fComplete := true, fSumerr := false, fTxovf := false
    phase := .nodeLoop false, inputs := [] }

/-- A byte at the head of the channel's queue, and `FC_RECEIVE` about to take it. -/
def placeWire (b : Byte) (s : State) : State :=
  { s with
    chanRx := b :: s.chanRx
    fFraming := false, fEsc := false, fComplete := false, fSumerr := false
    phase := .receive (match s.cfg.role with | .node => .neNext false | .host => .heRun)
    inputs := [] }

/-- A verified reply with status byte `b`, and a host in a wait state about to look at it. -/
def placeStatus (b : Byte) (s : State) : State :=
  { s with
    cfg := { s.cfg with role := .host }
    rxb := Memory.ofBytes 0 (fcPacket addrHost ⟨[b, reportOk], by simp⟩)
    rxw := cursor 5
    fFraming := false, fEsc := false, fComplete := true, fSumerr := false
    hs := .waitIoid
    phase := .hostArm, inputs := [] }

/-- A node in `NE_PUSH(b)`. -/
def placeReport (b : Byte) (s : State) : State :=
  { s with cfg := { s.cfg with role := .node }, phase := .push b, inputs := [] }

/-- A structurally complete frame with address byte `b` and no payload, and `FC_FRAME_END` about to run. -/
def placeAddress (b : Byte) (s : State) : State :=
  { s with
    rxb := Memory.ofBytes 0 (fcPacket b ⟨[], by simp⟩)
    rxw := cursor 3
    fFraming := true, fEsc := false, fComplete := false, fSumerr := false
    phase := .receive (match s.cfg.role with | .node => .neNext false | .host => .heRun)
    inputs := [] }

/-- The instruction whose bits are `w` stored where the next step fetches it, at the first level that reads it. A
command of more than 254 bytes fits no frame (rule R190), and nothing is placed (log 7). -/
def placeWord (nbits w : Nat) (s : State) : State :=
  let bytes := tableBytes s.cfg nbits w
  let cfg := s.cfg.recognising bytes
  let b := payAt bytes 0
  match firstLevel cfg bytes tableLevels with
  | .command =>
    match Payload.ofBytes? (commandBytes cfg ((nbits + 7) / 8) bytes) with
    | some p => placeCommand p s
    | none => s
  | .wire => placeWire b s
  | .status => placeStatus b s
  | .report => placeReport b s
  | .address => placeAddress b s

end Sys2Proof.Machine
end

