-- ==== Sys2Proof/Machine/Step.lean ====
section
/-! DEFINITION. One step: the environment, a call, or the next step of the running call, which runs the
instruction it fetches. -/

namespace Sys2Proof.Machine

/-- A step of the running call. -/
def work (s : State) : Host.Outcome State Fault Refusal :=
  match fetch s with
  | .run i t => exec i t
  | .done o => o

/-- One step of the machine. -/
def step (s : State) : Host.Outcome State Fault Refusal :=
  match nextTurn s with
  | .env e t => .next (applyEnv e t)
  | .call c t => begin c t
  | .block t => work t

/-- `s` with the instruction whose bits are `w` where the next step fetches it (log 5, log 6, log 7). -/
def State.withFetchWord (s : State) (nbits w : Nat) : State := placeWord nbits w s

end Sys2Proof.Machine
end

