-- ==== Sys2Proof/Safety.lean ====
section
/-! DEFINITION. What holds of every state a run can reach, in the terms the statements use: the invariants of
rules R21 to R44 and R29, the order in which slots fill (rule R283), and the groups of instructions a
statement speaks of. -/

namespace Sys2Proof.Machine

/-! ## The invariant -/

/-- The receive state (rules R21 to R29): the buffer in canonical form within its 256 bytes, `RXR` at most 256,
an escape only while framing, at most one of framing, complete and checksum-error, a complete frame whose
count and checksum fit, and no checksum-error flag in host role. -/
abbrev State.rxOk (s : State) : Prop :=
  Memory.wf s.rxb = true ∧ Memory.below s.rxb rxCap = true ∧ s.rxr ≤ rxCap ∧
  (s.fEsc = true → s.fFraming = true) ∧
  ¬(s.fFraming = true ∧ s.fComplete = true) ∧
  ¬(s.fFraming = true ∧ s.fSumerr = true) ∧
  ¬(s.fComplete = true ∧ s.fSumerr = true) ∧
  (s.fComplete = true →
    2 ≤ s.rxw.val ∧ s.rxw.val = (rxRead s 1).toNat + 2 ∧ checksumOk s = true) ∧
  (s.fSumerr = true → s.cfg.role = .node)

/-- A kept packet has 4 to 257 bytes (rule R32). -/
def packetLengthOk : Option (List Byte) → Bool
  | none => true
  | some p => decide (4 ≤ p.length) && decide (p.length ≤ 257)

/-- The transmit state (rules R30 to R32). -/
abbrev State.txOk (s : State) : Prop :=
  Memory.wf s.txr = true ∧ Memory.below s.txr txReportCap = true ∧ packetLengthOk s.txlast = true

/-- The device table (rules R34, R35, R266): `NDEV` slots in node role and a free one whenever an address is staged;
the constant `[0x00]` in host role. -/
abbrev State.tableOk (s : State) : Prop :=
  (s.cfg.role = .node →
    s.atab.length = s.cfg.ndev ∧ (s.newaddr ≠ addrBcast → hasFreeSlot s = true)) ∧
  (s.cfg.role = .host → s.atab = [addrHost])

/-- Ticks are `TICK_BITS` wide (rules R38, R403). -/
abbrev State.timeOk (s : State) : Prop :=
  s.tick < 2 ^ s.cfg.tickBits ∧ s.ht0 < 2 ^ s.cfg.tickBits

/-- The states of a polling cycle, in which the target is one of the first four devices (rule R358). -/
def HostState.inCycle (h : HostState) : Bool :=
  decide (h = .reqSync) || decide (h = .waitSync) || decide (h = .waitCoinSync)

/-- The host session (rules R39, R40, R42, R44, R326, R358). -/
abbrev State.sessionOk (s : State) : Prop :=
  s.hdev ≤ 254 ∧ 1 ≤ s.htgt ∧ s.htgt ≤ 254 ∧ s.htotal ≤ playerCap ∧ s.hcoin.toNat < 16 ∧
  (s.hs = .addressWait → s.hdev ≤ 253) ∧
  (s.hs.inCycle = true → s.htgt ≤ hostDevCap)

/-- The phases of a role's own engine (rule R2). -/
def State.phaseFits (s : State) : Bool :=
  match s.phase with
  | .idle => true
  | .receive (.neNext _) => decide (s.cfg.role = .node)
  | .receive .heRun => decide (s.cfg.role = .host)
  | .nodeLoop _ => decide (s.cfg.role = .node)
  | .push _ => decide (s.cfg.role = .node)
  | .hostArm => decide (s.cfg.role = .host)
  | .hostReport => replyAwaited s

/-- A receive loop is running. -/
def State.receiving (s : State) : Bool :=
  match s.phase with
  | .receive _ => true
  | .idle => false
  | .nodeLoop _ => false
  | .push _ => false
  | .hostArm => false
  | .hostReport => false

/-- The program position fits the role, and a structurally complete frame, whose last byte ended any escape, is ended
before anything else (rules R216, R220). -/
abbrev State.phaseOk (s : State) : Prop :=
  s.phaseFits = true ∧ (frameEndDue s = true → s.receiving = true ∧ s.fEsc = false)

/-- What holds of every state that a run from `INIT` with a legal configuration reaches. -/
abbrev State.Inv (s : State) : Prop :=
  s.cfg.legal = true ∧ s.rxOk ∧ s.txOk ∧ s.tableOk ∧ s.timeOk ∧ s.sessionOk ∧ s.phaseOk

/-- Slots fill in index order: behind the first unassigned slot every slot is unassigned (rule R283 c). -/
def filledInOrder : List Byte → Bool
  | [] => true
  | a :: rest => if a = addrBcast then rest.all fun b => decide (b = addrBcast) else filledInOrder rest

/-! ## Groups of instructions -/

/-- The commands surfaced verbatim to the application (rule R273). -/
def surfaced : Instr → Bool
  | .ioident => true
  | .cmdrev => false
  | .jvsrev => false
  | .commver => false
  | .featchk => true
  | .mainid _ => false
  | .swinp _ _ => true
  | .coininp _ => true
  | .anlinp _ => true
  | .rotinp _ => true
  | .keyinp => true
  | .scrposinp _ => true
  | .retry => false
  | .coindec _ _ _ => true
  | .payinc _ _ _ => true
  | .output1 _ => true
  | .anlout _ => true
  | .charout _ => true
  | .coininc _ _ _ => true
  | .vendor _ => true
  | .commsup => false
  | .reset _ => false
  | .setaddr _ => false
  | .commchg _ => false
  | .sync => false
  | .mark => false
  | .stOk => false
  | .stUnknown => false
  | .stSumerr => false
  | .stOverflow => false
  | .rpOk => false
  | .addrHost => false
  | .addrBcast => false

/-- The commands withheld until the frame is verified (rule R257). -/
def withheldCommands (arg : Byte) : List Instr := [.reset arg, .setaddr arg, .commchg arg, .retry]

/-- The states in which the host transmits (rule R310): the send states of rule R302 and `WAIT_SYNC`. -/
def sendingStates : List HostState :=
  [.reset1, .reset2, .address, .reqIoid, .reqCmdrev, .reqJvrev, .reqProtover, .reqFeatchk, .reqSync, .waitSync]

/-- What the trace has gained from `s` to `t`. -/
def gained (s t : State) : List PortEvent := t.trace.drop s.trace.length

/-- A byte was put on the bus (rule R401). -/
def transmits (es : List PortEvent) : Bool :=
  es.any fun e =>
    match e with
    | .write _ => true
    | .txBegin => false
    | .txEnd => false
    | .dir _ => false
    | .speedCommit _ _ => false
    | .readyOut _ => false
    | .ledOut _ => false
    | .delayUs _ => false
    | .evCapability _ _ _ => false
    | .evSynced _ _ _ _ => false
    | .evUnknownOpcode _ => false
    | .returned _ => false

end Sys2Proof.Machine
end

