-- ==== Sys2Proof/Certificates/Slice0/Obligations.lean ====
section
/-! DEFINITION. The statements about the machine, one definition each.  `nextTurn s = .block t` says that at `s` the
block is the one to act, and `t` is `s` with the entry that gave it its turn, if there was one, taken. -/

section

open Sys2Proof Sys2Proof.Machine

/-! ## Encodings and the Command Table -/

/-- Words written out from the opcode map of rule R120, from the formats of rule R112 and from the codes of
rules R73, R104, R105, R110 and R111. `decodeTableWord` reads a word that stands alone, with the configuration
of `State.reset`, whose values are a design choice (log 1), and at the first level that has it, in the model's
order of levels (log 6). What is the model's own here: log 7. Marks of the spec itself: own decisions in R112
and R120; general knowledge in R112 and R120. -/
def Obligations.SpecWordsDecode : Prop :=
  decodeTableWord 8 0x10 = some .ioident ∧ decodeTableWord 8 0x24 = some .keyinp ∧
  decodeTableWord 8 0x2F = some .retry ∧ decodeTableWord 8 0xE0 = some .sync ∧
  decodeTableWord 8 0x03 = some .stSumerr ∧ decodeTableWord 8 0xFF = some .addrBcast ∧
  decode Config.default .command [0xF1, 0x01] = .ok (.setaddr 0x01, []) ∧
  decode Config.default .command [0x20, 0x02, 0x03, 0x21] = .ok (.swinp 0x02 0x03, [0x21]) ∧
  decode Config.default .command [0x30, 0x01, 0x02, 0x03] = .ok (.coindec 0x01 0x02 0x03, []) ∧
  decode Config.default .command [0x33, 0x01, 0xAA, 0xBB] = .ok (.anlout [0xAA, 0xBB], []) ∧
  decode Config.default .command [0x15, 0x41, 0x00, 0x10] = .ok (.mainid [0x41], [0x10]) ∧
  decode Config.default .wire [0xD0] = .ok (.mark, []) ∧
  decode Config.default .report [0x01] = .ok (.rpOk, [])

/-- Decoding the encoding of a well-formed instruction, whatever follows it, gives that instruction and what
follows: no bit of an encoding is dropped (rules R112, R120). What is the model's own here: log 6. Marks of the
spec itself: own decisions in R112 and R120; general knowledge in R112 and R120. -/
def Obligations.DecodeEncodeAgree : Prop :=
  ∀ (cfg : Config) (i : Instr) (rest : List Byte), i.wellFormed cfg = true →
    decode cfg i.level (encode i ++ rest) = .ok (i, rest)

/-- What decodes is well-formed, belongs to the level it was read at, and encodes to the bytes it was read from
(rules R112, R120, R140). What is the model's own here: log 6. Marks of the spec itself: own decisions in R112
and R120; general knowledge in R112 and R120. -/
def Obligations.EncodeDecodeAgree : Prop :=
  ∀ (cfg : Config) (l : Level) (bytes rest : List Byte) (i : Instr), cfg.legal = true →
    decode cfg l bytes = .ok (i, rest) →
      i.level = l ∧ i.wellFormed cfg = true ∧ encode i ++ rest = bytes

/-- Rule R175: each of the 24 opcodes has its length from `a0` bytes on, with the `a0` the rule gives for its
format, and an answer other than "incomplete" never changes as more bytes come. Marks of the spec itself:
derivations in R175. -/
def Obligations.CommandTableComplete : Prop :=
  (∀ (cfg : Config) (op : Byte) (n : Nat) (args : List Byte) (avail : Nat),
    (op, n) ∈ [((0x10 : Byte), 1), (0x11, 1), (0x12, 1), (0x13, 1), (0x14, 1), (0x20, 3), (0x21, 2),
      (0x22, 2), (0x23, 2), (0x24, 1), (0x25, 2), (0x2F, 1), (0x30, 4), (0x31, 4), (0x35, 4), (0xD0, 1),
      (0xF0, 2), (0xF1, 2), (0xF2, 2)] →
    1 ≤ avail → ctSize cfg (op :: args) avail = .size n) ∧
  (∀ (cfg : Config) (op : Byte) (scale : Nat) (count : Byte) (args : List Byte) (avail : Nat),
    (op, scale) ∈ [((0x32 : Byte), 1), (0x33, 2), (0x34, 1)] →
    2 ≤ avail → ctSize cfg (op :: count :: args) avail = .size (scale * count.toNat + 2)) ∧
  (∀ (cfg : Config) (text args : List Byte) (avail : Nat), (∀ b ∈ text, b ≠ 0) →
    text.length + 2 ≤ avail →
    ctSize cfg (0x15 :: (text ++ 0x00 :: args)) avail = .size (text.length + 2)) ∧
  (∀ (cfg : Config) (args : List Byte) (sub : Byte) (avail : Nat), cfg.legal = true →
    (0x70 :: args)[cfg.vendorSubopOffset]? = some sub → cfg.vendorSubopOffset + 1 ≤ avail →
    (∀ n, cfg.vendorLen.lookup sub = some n → 1 ≤ n ∧ ctSize cfg (0x70 :: args) avail = .size n) ∧
    (cfg.vendorLen.lookup sub = none → ctSize cfg (0x70 :: args) avail = .unknown)) ∧
  (∀ (cfg : Config) (c : List Byte) (a b : Nat), a ≤ b → ctSize cfg c a ≠ .incomplete →
    ctSize cfg c b = ctSize cfg c a)

/-- Every opcode value but the 24 of rule R120 is unknown from its first byte on (rules R121, R174). Marks of
the spec itself: own decisions in R120; general knowledge in R120. -/
def Obligations.OtherOpcodesAreUnknown : Prop :=
  ∀ (cfg : Config) (op : Byte) (args : List Byte) (avail : Nat),
    op ∉ [(0x10 : Byte), 0x11, 0x12, 0x13, 0x14, 0x15, 0x20, 0x21, 0x22, 0x23, 0x24, 0x25, 0x2F, 0x30, 0x31,
      0x32, 0x33, 0x34, 0x35, 0x70, 0xD0, 0xF0, 0xF1, 0xF2] →
    1 ≤ avail → ctSize cfg (op :: args) avail = .unknown

/-! ## The frame codec -/

/-- The layout of a logical packet: address, length, payload, checksum, of `|payload| + 3` bytes; the payload
operand has at most 254 bytes by its type (rules R101, R102, R103, R190). -/
def Obligations.PacketLayout : Prop :=
  ∀ (a : Byte) (p : Payload), p.bytes.length ≤ 254 ∧
    ∃ len sum : Byte, fcPacket a p = [a, len] ++ p.bytes ++ [sum] ∧ len.toNat = p.bytes.length + 1 ∧
      sum.toNat = (a.toNat + len.toNat + (p.bytes.map BitVec.toNat).sum) % 256

/-- The frame marker stands only at the head of a wire frame, an escape marker is always followed by an escaped
reserved value, and escaping at most doubles the length (rule R193, a to c). Marks of the spec itself:
derivations in R193. -/
def Obligations.EncodedFrameIsUnambiguous : Prop :=
  ∀ p : List Byte,
    (fcEncode p)[0]? = some (0xE0 : Byte) ∧ (∀ k : Nat, 0 < k → (fcEncode p)[k]? ≠ some (0xE0 : Byte)) ∧
    (∀ k : Nat, (fcEncode p)[k]? = some (0xD0 : Byte) →
      (fcEncode p)[k + 1]? = some (0xCF : Byte) ∨ (fcEncode p)[k + 1]? = some (0xDF : Byte)) ∧
    p.length + 1 ≤ (fcEncode p).length ∧ (fcEncode p).length ≤ 2 * p.length + 1

/-- Rule R230: from any receive state with no frame pending, decoding the wire frame of a packet that passes the
filter ends in a verified frame with that packet in the buffer, however the bytes are split between calls of the
receive loop (one list of `calls` for each); with a payload of 254 bytes it does not. Marks of the spec itself:
derivations in R230. -/
def Obligations.WireFrameRoundTrip : Prop :=
  ∀ (s : State) (a : Byte) (p : Payload) (calls : List (List Byte)),
    Memory.wf s.rxb = true → s.fComplete = false → s.fSumerr = false →
    (a = 0xFF ∨ (s.cfg.role = .node ∧ a ∈ s.atab) ∨ (s.cfg.role = .host ∧ a = 0x00)) →
    calls.flatten = fcEncode (fcPacket a p) →
    (p.bytes.length ≤ 253 →
      (calls.foldl (fun u bytes => bytes.foldl (fun v b => fcDecodeByte b v) u) s).fComplete = true ∧
      (calls.foldl (fun u bytes => bytes.foldl (fun v b => fcDecodeByte b v) u) s).rxw.val =
        (fcPacket a p).length ∧
      rxSlice (calls.foldl (fun u bytes => bytes.foldl (fun v b => fcDecodeByte b v) u) s) 0
        (fcPacket a p).length = fcPacket a p) ∧
    (p.bytes.length = 254 →
      (calls.foldl (fun u bytes => bytes.foldl (fun v b => fcDecodeByte b v) u) s).fComplete = false)

/-- The receive loop's one or two steps for a byte do exactly `FC_DECODE_BYTE` of that byte (rules R210, R217):
the end of a frame is a step of its own (log 4). With the channel empty the loop ends: `NE_NEXT` goes on to its
own loop and `HE_RUN` to its `case`, and nothing else changes (rules R210, R252, R304). What is the model's own
here: log 5. Marks of the spec itself: own decisions in R252 and R304. -/
def Obligations.ReceiveLoopDecodesTheOldestByte : Prop :=
  (∀ (s : State) (r : Receiver) (b : Byte) (rest : List Byte),
    s.inputs = [] → s.phase = .receive r → framePending s = false → frameEndDue s = false →
    s.chanRx = b :: rest →
      Sys2Proof.core.run 1 s = .next (fcDecodeByte b { s with chanRx := rest }) ∨
      Sys2Proof.core.run 2 s = .next (fcDecodeByte b { s with chanRx := rest })) ∧
  (∀ s t : State, nextTurn s = .block t → t.fComplete = false → t.fSumerr = false →
    ¬(t.fFraming = true ∧ 2 ≤ t.rxw.val ∧ t.rxw.val = (rxRead t 1).toNat + 2) → t.chanRx = [] →
    (∀ spec, t.phase = .receive (.neNext spec) → step s = .next { t with phase := .nodeLoop spec }) ∧
    (t.phase = .receive .heRun → step s = .next { t with phase := .hostArm }))

/-- A packet with one byte other than the length byte replaced fails its checksum and is never verified (rule
R231). Marks of the spec itself: derivations in R231. -/
def Obligations.SingleByteErrorIsDetected : Prop :=
  ∀ (s : State) (a : Byte) (p : Payload) (i : Nat) (v : Byte),
    s.rxw.val = p.bytes.length + 3 → rxSlice s 0 s.rxw.val = (fcPacket a p).set i v →
    i < p.bytes.length + 3 → i ≠ 1 → (fcPacket a p)[i]? ≠ some v → s.fComplete = false →
      checksumOk s = false ∧ (endIfDue s).fComplete = false

/-- `FRAME_CLEAR` of rule R29, in each role: the buffers' contents, `DSR_SNAP`, `TXLAST`, `ATAB` and `COMM_MODE`
stay. `HE_DISCONNECT` of rule R316: the session's counts and snapshots are zero, `HT0` and `COMM_MODE` stay.
What is the model's own here: log 17. Marks of the spec itself: own decisions in R29 and R316. -/
def Obligations.FrameClearAndDisconnect : Prop :=
  ∀ s : State,
    (s.cfg.role = .node →
      frameClear s = { s with
        rxw := 0, rxr := 2, fFraming := false, fEsc := false, fComplete := false, fSumerr := false
        txn := 0, newaddr := 0xFF, fTxovf := false }) ∧
    (s.cfg.role = .host →
      frameClear s = { s with
        rxw := 0, rxr := 2, fFraming := false, fEsc := false, fComplete := false, fSumerr := false }) ∧
    heDisconnect s = { frameClear s with
      hs := .disconnected, hdev := 0, htgt := 1, htotal := 0, hcoin := 0
      hplayers := Vector.replicate 4 0, hbuttons := Vector.replicate 4 0
      hcoinslots := Vector.replicate 4 0
      hsw0 := Vector.replicate 4 0, hsw1 := Vector.replicate 4 0 }

/-- `SYNC` takes the oldest byte of the channel, forgets the frame so far, snapshots the downstream-ready signal
in node role and begins framing (rules R29, R213); in host role the snapshot gets some value, and the statement
holds for every one (rule R28, log 3). `MARK` takes the oldest byte and, while framing, sets the escape flag;
nothing is stored (rules R214, R215). What is the model's own here: logs 6 and 17. Marks of the spec itself: own
decisions in R28, R29, R213 and R215. -/
def Obligations.WireSymbolsFrameAndEscape : Prop :=
  (∀ s : State,
    (s.cfg.role = .node →
      exec .sync s = .next { s with
        chanRx := s.chanRx.tail
        rxw := 0, rxr := 2, fFraming := true, fEsc := false, fComplete := false, fSumerr := false
        txn := 0, newaddr := 0xFF, fTxovf := false
        dsrSnap := s.downstreamReady }) ∧
    (s.cfg.role = .host →
      ∃ v, exec .sync s = .next { s with
        chanRx := s.chanRx.tail
        rxw := 0, rxr := 2, fFraming := true, fEsc := false, fComplete := false, fSumerr := false
        dsrSnap := v
        freeCount := s.freeCount + 1 })) ∧
  (∀ s : State,
    (s.fFraming = true → exec .mark s = .next { s with chanRx := s.chanRx.tail, fEsc := true }) ∧
    (s.fFraming = false → exec .mark s = .next { s with chanRx := s.chanRx.tail }))

/-- A byte that is neither `SYNC` nor `MARK`: discarded while not framing, else stored at the write cursor, one
more modulo 256 after an escape marker, or, with the buffer full, the frame is forgotten (rules R214, R216,
R218). Every other byte of the buffer reads as before. What is the model's own here: logs 4 and 5. Marks of the
spec itself: own decisions in R216 and R218. -/
def Obligations.PlainByteIsStoredAtTheWriteCursor : Prop :=
  ∀ (s t : State) (r : Receiver) (b : Byte) (rest : List Byte),
    nextTurn s = .block t → t.phase = .receive r → framePending t = false → frameEndDue t = false →
    t.chanRx = b :: rest → b ≠ 0xE0 → b ≠ 0xD0 → Memory.wf t.rxb = true →
    (t.fFraming = false → step s = .next { t with chanRx := rest }) ∧
    (t.fFraming = true → t.rxw.val = 256 → step s = .next { frameClear t with chanRx := rest }) ∧
    (t.fFraming = true → t.rxw.val < 256 →
      ∃ u, step s = .next u ∧
        u.rxb.read t.rxw.val = (if t.fEsc then BitVec.ofNat 8 (b.toNat + 1) else b) ∧
        (∀ a, a ≠ t.rxw.val → u.rxb.read a = t.rxb.read a) ∧
        u.rxw.val = t.rxw.val + 1 ∧
        u = { t with chanRx := rest, rxb := u.rxb, rxw := u.rxw, fEsc := false })

/-- The end of a frame: the filter, then the checksum, then the policy for a failed one (rules R73, R222 to
R229), as the meaning of each of the two special addresses and, for any address, as the step of the receive
loop, which is a step of its own (log 4). The filter lets through `0xFF`, in node role an address of the table
and in host role `0x00` (rules R34, R223). What is the model's own here: logs 5 and 6. Marks of the spec itself:
own decisions in R34, R226, R227 and R229; derivations in R34. -/
def Obligations.FrameEndOutcomes : Prop :=
  (∀ (i : Instr) (a : Byte) (s : State), (i, a) ∈ [(Instr.addrHost, (0x00 : Byte)), (.addrBcast, 0xFF)] →
    (a ≠ 0xFF → s.cfg.role = .node → a ∉ s.atab → exec i s = .next (frameClear s)) ∧
    ((a = 0xFF ∨ s.cfg.role = .host ∨ a ∈ s.atab) →
      (sum8 (rxSlice s 0 (s.rxw.val - 1)) = rxRead s (s.rxw.val - 1) →
        exec i s = .next { s with fFraming := false, fComplete := true }) ∧
      (sum8 (rxSlice s 0 (s.rxw.val - 1)) ≠ rxRead s (s.rxw.val - 1) →
        ((s.cfg.role = .host ∨
            (2 ≤ (rxRead s 1).toNat ∧ (rxRead s 2 = 0xF0 ∨ rxRead s 2 = 0xF2))) →
          exec i s = .next (frameClear s)) ∧
        (s.cfg.role = .node → ¬(2 ≤ (rxRead s 1).toNat ∧ (rxRead s 2 = 0xF0 ∨ rxRead s 2 = 0xF2)) →
          exec i s = .next { s with fFraming := false, fSumerr := true })))) ∧
  (∀ (s t : State) (r : Receiver) (a : Byte), nextTurn s = .block t → t.phase = .receive r →
    framePending t = false → t.fFraming = true → 2 ≤ t.rxw.val →
    t.rxw.val = (rxRead t 1).toNat + 2 → rxRead t 0 = a →
    (a ≠ 0xFF → (t.cfg.role = .node → a ∉ t.atab) → (t.cfg.role = .host → a ≠ 0x00) →
      step s = .next (frameClear t)) ∧
    ((a = 0xFF ∨ (t.cfg.role = .node ∧ a ∈ t.atab) ∨ (t.cfg.role = .host ∧ a = 0x00)) →
      (sum8 (rxSlice t 0 (t.rxw.val - 1)) = rxRead t (t.rxw.val - 1) →
        step s = .next { t with fFraming := false, fComplete := true }) ∧
      (sum8 (rxSlice t 0 (t.rxw.val - 1)) ≠ rxRead t (t.rxw.val - 1) →
        ((t.cfg.role = .host ∨
            (2 ≤ (rxRead t 1).toNat ∧ (rxRead t 2 = 0xF0 ∨ rxRead t 2 = 0xF2))) →
          step s = .next (frameClear t)) ∧
        (t.cfg.role = .node → ¬(2 ≤ (rxRead t 1).toNat ∧ (rxRead t 2 = 0xF0 ∨ rxRead t 2 = 0xF2)) →
          step s = .next { t with fFraming := false, fSumerr := true }))))

/-- Rule R212: while a frame is pending no step takes a byte from the channel; what arrives stays behind what
waits there. The receive loop ends at once, whatever the channel holds: the call goes on to the engine's own
part and nothing else changes (rules R210, R252, R304). What is the model's own here: logs 4 and 5. Marks of the
spec itself: own decisions in R212, R252 and R304. -/
def Obligations.PendingFrameStallsTheDecoder : Prop :=
  (∀ s t : State, (s.fComplete = true ∨ s.fSumerr = true) → step s = .next t → s.chanRx <+: t.chanRx) ∧
  (∀ s t : State, nextTurn s = .block t → (t.fComplete = true ∨ t.fSumerr = true) →
    (∀ spec, t.phase = .receive (.neNext spec) → step s = .next { t with phase := .nodeLoop spec }) ∧
    (t.phase = .receive .heRun → step s = .next { t with phase := .hostArm }))

/-- The port calls of a transmission, in the order of rule R196, and the node's guard delay, made at the base
speed only (rule R279). Marks of the spec itself: own decisions in R196. -/
def Obligations.TransmissionPortCalls : Prop :=
  ∀ (p : List Byte) (s : State),
    transmitEvents p = [.txBegin, .dir .output] ++ (0xE0 :: escAll p).map PortEvent.write ++
      [.dir .input, .txEnd] ∧
    nodeTransmitEvents s p =
      (if s.commMode = .base then .delayUs s.cfg.tGuardUs :: transmitEvents p else transmitEvents p) ∧
    fcTransmit p s = { s with
      trace := s.trace ++ ([.txBegin, .dir .output] ++ (0xE0 :: escAll p).map PortEvent.write ++
        [.dir .input, .txEnd]) } ∧
    (s.commMode = .base → neTransmit p s = fcTransmit p { s with
      trace := s.trace ++ [.delayUs s.cfg.tGuardUs] }) ∧
    (s.commMode ≠ .base → neTransmit p s = fcTransmit p s)

/-! ## The Node Engine -/

/-- A step runs the instruction its fetch decodes, at each level: a command at the read cursor, a wire symbol,
the address of a complete frame, the status and the report code of a reply, a pushed report code (rules R210,
R222, R252, R274, R312). The bytes of a command end at the checksum's index and, in an unverified frame, at the
write cursor (rules R252, R255); those of a reply are its payload (rule R308). What is the model's own here:
logs 4, 5 and 6. Marks of the spec itself: own decisions in R252, R255 and R312; derivations in R308. -/
def Obligations.StepRunsTheDecodedInstruction : Prop :=
  ∀ (s t : State) (i : Instr), nextTurn s = .block t →
    (∀ spec limit rest, t.phase = .nodeLoop spec → t.fSumerr = false → t.fTxovf = false →
      ((t.fComplete = true ∧ limit = (rxRead t 1).toNat + 1) ∨
        (t.fComplete = false ∧ limit = min ((rxRead t 1).toNat + 1) t.rxw.val ∧
          spec = true ∧ t.fFraming = true ∧ 2 ≤ t.rxw.val ∧
          t.cfg.role = .node ∧ (rxRead t 0 = 0xFF ∨ rxRead t 0 ∈ t.atab))) →
      t.rxr < limit → decodeCommand t.cfg (rxSlice t t.rxr limit) = .ok (i, rest) →
      step s = exec i t) ∧
    (∀ r b rest, t.phase = .receive r → framePending t = false → frameEndDue t = false →
      t.chanRx = b :: rest → decodeWire b = some i → step s = exec i t) ∧
    (∀ r, t.phase = .receive r → framePending t = false → frameEndDue t = true →
      decodeAddress (rxRead t 0) = some i → step s = exec i t) ∧
    (∀ p, p = rxSlice t 2 (t.rxw.val - 1) →
      (t.phase = .hostArm → t.hs.isWait = true → t.fComplete = true →
        rxRead t 0 = 0x00 → 2 ≤ p.length → decodeStatus (p.getD 0 0) = some i → step s = exec i t) ∧
      (t.phase = .hostReport → decodeReport (p.getD 1 0) = some i → step s = exec i t)) ∧
    (∀ b, t.phase = .push b → decodeReport b = some i → step s = exec i t)

/-- The tests of `NE_NEXT` before a command is looked at, in their order (rules R252, R253, R254, R255, R276,
R395 c). In an unverified frame no byte at or beyond the checksum's index or the write cursor is looked at, and
none at all while the address does not pass the filter (rules R223, R255). What is the model's own here: logs 4,
5 and 15. Marks of the spec itself: own decisions in R252, R254, R255, R276 and R395; derivations in R253. -/
def Obligations.NodeTestsInOrder : Prop :=
  ∀ (s t : State) (spec : Bool), nextTurn s = .block t → t.phase = .nodeLoop spec →
    (t.fSumerr = true → step s = exec .stSumerr t) ∧
    (t.fSumerr = false → t.fComplete = false → t.fFraming = false →
      step s = .next { t with phase := .idle, trace := t.trace ++ [.returned .none] }) ∧
    (t.fSumerr = false → t.fComplete = false → t.fFraming = true →
      (spec = false ∨ t.rxw.val < 2 ∨
        (t.cfg.role = .node ∧ rxRead t 0 ≠ 0xFF ∧ rxRead t 0 ∉ t.atab) ∨ t.fTxovf = true ∨
        min ((rxRead t 1).toNat + 1) t.rxw.val ≤ t.rxr) →
      step s = .next { t with phase := .idle, trace := t.trace ++ [.returned .incomplete] }) ∧
    (t.fSumerr = false → t.fComplete = true → t.fTxovf = true → step s = exec .stOverflow t) ∧
    (t.fSumerr = false → t.fComplete = true → t.fTxovf = false → (rxRead t 1).toNat + 1 ≤ t.rxr →
      step s = exec .stOk t)

/-- A verified frame with an unknown opcode at the read cursor: the event once, status `0x02` with no report,
the frame cleared (rules R149, R260). A length that runs past the payload is answered alike, with no event (rule
R258). In a frame still being received, where only the bytes below the checksum's index and the write cursor are
looked at, neither is acted on: `Incomplete`, and nothing else changes (rules R252, R255, R256, R259). What is
the model's own here: logs 4 and 5. Marks of the spec itself: own decisions in R149, R252, R255, R258, R259 and
R260; derivations in R256. -/
def Obligations.CommandErrorsAreAnsweredOnce : Prop :=
  (∀ (s t : State) (spec : Bool) (bytes : List Byte),
    nextTurn s = .block t → t.phase = .nodeLoop spec → t.cfg.role = .node →
    t.fSumerr = false → t.fComplete = true → t.fTxovf = false → t.rxr < (rxRead t 1).toNat + 1 →
    bytes = rxSlice t t.rxr ((rxRead t 1).toNat + 1) →
    (ctSize t.cfg bytes bytes.length = .unknown →
      step s = .next { frameClear t with
        txlast := some [0x00, 0x02, 0x02, 0x04]
        phase := .idle
        trace := t.trace ++ [.evUnknownOpcode (rxRead t t.rxr)] ++
          nodeTransmitEvents t [0x00, 0x02, 0x02, 0x04] ++ [.returned .none] }) ∧
    ((ctSize t.cfg bytes bytes.length = .incomplete ∨
        ∃ n, ctSize t.cfg bytes bytes.length = .size n ∧ bytes.length < n) →
      step s = .next { frameClear t with
        txlast := some [0x00, 0x02, 0x02, 0x04]
        phase := .idle
        trace := t.trace ++ nodeTransmitEvents t [0x00, 0x02, 0x02, 0x04] ++ [.returned .none] })) ∧
  (∀ (s t : State) (limit : Nat) (bytes : List Byte), nextTurn s = .block t → t.phase = .nodeLoop true →
    t.fSumerr = false → t.fComplete = false → t.fFraming = true → 2 ≤ t.rxw.val →
    t.cfg.role = .node → (rxRead t 0 = 0xFF ∨ rxRead t 0 ∈ t.atab) →
    limit = min ((rxRead t 1).toNat + 1) t.rxw.val → t.rxr < limit → bytes = rxSlice t t.rxr limit →
    (ctSize t.cfg bytes bytes.length = .unknown ∨ ctSize t.cfg bytes bytes.length = .incomplete ∨
      ∃ n, ctSize t.cfg bytes bytes.length = .size n ∧ bytes.length < n) →
    step s = .next { t with phase := .idle, trace := t.trace ++ [.returned .incomplete] })

/-- A surfaced command goes to the application with the device index of the frame's address (rule R261) and
whether the frame is verified (rule R281); only the read cursor moves, and `NE_NEXT` returns (rule R273). The
bytes handed over are the buffer's bytes from the read cursor on, below the checksum's index and, in an
unverified frame, below the write cursor, and the cursor moves past them (rules R251, R252, R255). The first
clause says what a slice of the buffer is (rule R12). What is the model's own here: logs 4 and 5. Marks of the
spec itself: own decisions in R12, R252, R255, R261 and R273. -/
def Obligations.SurfacedCommandsGoToTheApplication : Prop :=
  (∀ (s : State) (i j k : Nat),
    (rxSlice s i j)[k]? = if i + k < j then some (rxRead s (i + k)) else none) ∧
  (∀ (i : Instr) (s : State), surfaced i = true → s.cfg.role = .node →
    exec i s = .next { s with
      rxr := s.rxr + (encode i).length
      phase := .idle
      trace := s.trace ++ [.returned (.command
        (if rxRead s 0 = 0xFF then none else s.atab.findIdx? fun a => decide (a = rxRead s 0))
        (encode i) s.fComplete)] }) ∧
  (∀ (s t : State) (spec : Bool) (limit : Nat) (i : Instr) (rest : List Byte),
    nextTurn s = .block t → t.phase = .nodeLoop spec → t.cfg.legal = true → t.cfg.role = .node →
    t.fSumerr = false → t.fTxovf = false →
    ((t.fComplete = true ∧ limit = (rxRead t 1).toNat + 1) ∨
      (t.fComplete = false ∧ limit = min ((rxRead t 1).toNat + 1) t.rxw.val ∧
        spec = true ∧ t.fFraming = true ∧ 2 ≤ t.rxw.val ∧
        (rxRead t 0 = 0xFF ∨ rxRead t 0 ∈ t.atab))) →
    t.rxr < limit → decodeCommand t.cfg (rxSlice t t.rxr limit) = .ok (i, rest) → surfaced i = true →
    ∃ n, 1 ≤ n ∧ t.rxr + n ≤ limit ∧
      step s = .next { t with
        rxr := t.rxr + n
        phase := .idle
        trace := t.trace ++ [.returned (.command
          (if rxRead t 0 = 0xFF then none else t.atab.findIdx? fun a => decide (a = rxRead t 0))
          (rxSlice t t.rxr (t.rxr + n)) t.fComplete)] })

/-- The four queries the engine answers with two bytes, when both fit: `RP_OK` and the byte of the rule, behind
the reports already pending (rules R267, R268, R269, R271); every other byte of the report buffer reads as
before. What is the model's own here: logs 4 and 10. Marks of the spec itself: own decisions in R269 and R271.
-/
def Obligations.QueriesQueueOkAndOneByte : Prop :=
  ∀ (i : Instr) (b : Byte) (s : State),
    (i, b) ∈ [(Instr.cmdrev, s.cfg.cmdRev), (.jvsrev, s.cfg.jvRev), (.commsup, s.cfg.speedMask),
      (.commver,
        if s.speedYes.contains (.fast1, false) || s.speedYes.contains (.fast2, false)
        then s.cfg.protoVerFast else s.cfg.protoVer)] →
    s.cfg.role = .node → Memory.wf s.txr = true → s.fTxovf = false → s.txn.val ≤ 251 →
    ∃ t, exec i s = .next t ∧ pendingReports t = pendingReports s ++ [0x01, b] ∧
      t.txn.val = s.txn.val + 2 ∧
      (∀ a, a ≠ s.txn.val → a ≠ s.txn.val + 1 → t.txr.read a = s.txr.read a) ∧
      t = { s with rxr := s.rxr + 1, txr := t.txr, txn := t.txn }

/-- The same four where the two bytes do not both fit: the byte that fits is queued, the overflow flag is
raised, and after an overflow nothing is queued (rules R274, R276). What is the model's own here: logs 4 and 15.
Marks of the spec itself: own decisions in R276. -/
def Obligations.QueriesWithoutRoomOverflow : Prop :=
  ∀ (i : Instr) (s : State), i ∈ [Instr.cmdrev, .jvsrev, .commsup, .commver] → s.cfg.role = .node →
    (s.fTxovf = true → exec i s = .next { s with rxr := s.rxr + 1 }) ∧
    (s.fTxovf = false → s.txn.val = 253 →
      exec i s = .next { s with rxr := s.rxr + 1, fTxovf := true }) ∧
    (s.fTxovf = false → s.txn.val = 252 → Memory.wf s.txr = true →
      ∃ t, exec i s = .next t ∧ pendingReports t = pendingReports s ++ [0x01] ∧ t.txn.val = 253 ∧
        (∀ a, a ≠ s.txn.val → t.txr.read a = s.txr.read a) ∧
        t = { s with rxr := s.rxr + 1, txr := t.txr, txn := t.txn, fTxovf := true })

/-- `MAINID` queues `RP_OK` and drops its text (rule R270), with room, without room, where only the overflow
flag is raised (rules R274, R276; log 15), and after an overflow. The read cursor moves past the opcode, the
text and its terminator (rules R147, R155). What is the model's own here: log 4. Marks of the spec itself: own
decisions in R147 and R276; general knowledge in R147. -/
def Obligations.MainidDropsItsText : Prop :=
  ∀ (text : List Byte) (s : State), s.cfg.role = .node →
    (s.fTxovf = true → exec (.mainid text) s = .next { s with rxr := s.rxr + (text.length + 2) }) ∧
    (s.fTxovf = false → s.txn.val = 253 →
      exec (.mainid text) s = .next { s with rxr := s.rxr + (text.length + 2), fTxovf := true }) ∧
    (s.fTxovf = false → s.txn.val ≤ 252 → Memory.wf s.txr = true →
      ∃ t, exec (.mainid text) s = .next t ∧ pendingReports t = pendingReports s ++ [0x01] ∧
        t.txn.val = s.txn.val + 1 ∧
        (∀ a, a ≠ s.txn.val → t.txr.read a = s.txr.read a) ∧
        t = { s with rxr := s.rxr + (text.length + 2), txr := t.txr, txn := t.txn })

/-- `RESET` in a verified frame: both signals deasserted, every slot unassigned, the frame abandoned with no
reply, the command returned with the device index it had before (rule R264). -/
def Obligations.ResetUnassignsEverySlot : Prop :=
  ∀ (arg : Byte) (s : State), s.cfg.role = .node → s.fComplete = true →
    exec (.reset arg) s = .next { frameClear s with
      atab := List.replicate s.atab.length 0xFF
      phase := .idle
      trace := s.trace ++ [.readyOut false, .ledOut false,
        .returned (.command (deviceIndex s (rxRead s 0)) [0xF0, arg] true)] }

/-- `SETADDR` in a verified frame: with the snapshot true and a slot free the address is staged and `RP_OK`
queued; otherwise the frame is abandoned in silence (rule R266; rules R274, R276 where there is no room). What
is the model's own here: logs 4 and 15. Marks of the spec itself: own decisions in R266 and R276. -/
def Obligations.SetaddrStagesOrAbandons : Prop :=
  ∀ (addr : Byte) (s : State), s.cfg.role = .node → s.fComplete = true →
    (s.dsrSnap = true → 0xFF ∈ s.atab →
      (s.fTxovf = true → exec (.setaddr addr) s = .next { s with newaddr := addr, rxr := s.rxr + 2 }) ∧
      (s.fTxovf = false → s.txn.val = 253 →
        exec (.setaddr addr) s = .next { s with newaddr := addr, rxr := s.rxr + 2, fTxovf := true }) ∧
      (s.fTxovf = false → s.txn.val ≤ 252 → Memory.wf s.txr = true →
        ∃ t, exec (.setaddr addr) s = .next t ∧ pendingReports t = pendingReports s ++ [0x01] ∧
          t.txn.val = s.txn.val + 1 ∧
          (∀ a, a ≠ s.txn.val → t.txr.read a = s.txr.read a) ∧
          t = { s with newaddr := addr, rxr := s.rxr + 2, txr := t.txr, txn := t.txn })) ∧
    ((s.dsrSnap = false ∨ 0xFF ∉ s.atab) →
      exec (.setaddr addr) s =
        .next { frameClear s with phase := .idle, trace := s.trace ++ [.returned .none] })

/-- `COMMCHG` in a verified frame asks the channel to switch and keeps the new mode on success; the frame is
abandoned either way (rule R271). What is the model's own here: logs 4 and 10. Marks of the spec itself: own
decisions in R271. -/
def Obligations.CommchgSwitchesTheSpeed : Prop :=
  ∀ (mode : Byte) (s : State), s.cfg.role = .node → s.fComplete = true →
    (s.cfg.speedOf.lookup mode = none →
      exec (.commchg mode) s =
        .next { frameClear s with phase := .idle, trace := s.trace ++ [.returned .none] }) ∧
    (∀ m, s.cfg.speedOf.lookup mode = some m → (m, true) ∈ s.speedYes →
      exec (.commchg mode) s = .next { frameClear s with
        commMode := m
        phase := .idle
        trace := s.trace ++ [.speedCommit m true, .returned .none] }) ∧
    (∀ m, s.cfg.speedOf.lookup mode = some m → (m, true) ∉ s.speedYes →
      exec (.commchg mode) s = .next { frameClear s with
        phase := .idle
        trace := s.trace ++ [.speedCommit m false, .returned .none] })

/-- `RETRY` in a verified frame sends the last composed packet again, if there is one, and the frame is
abandoned (rule R272). What is the model's own here: log 4. Marks of the spec itself: own decisions in R272. -/
def Obligations.RetryResendsTheLastPacket : Prop :=
  ∀ s : State, s.cfg.role = .node → s.fComplete = true →
    (s.txlast = none →
      exec .retry s = .next { frameClear s with phase := .idle, trace := s.trace ++ [.returned .none] }) ∧
    (∀ p, s.txlast = some p →
      exec .retry s = .next { frameClear s with
        phase := .idle
        trace := s.trace ++ nodeTransmitEvents s p ++ [.returned .none] })

/-- Rule R257: in an unverified frame the four withheld commands do nothing but return `Incomplete`. What is the
model's own here: log 4. Marks of the spec itself: own decisions in R257. -/
def Obligations.WithheldUntilVerified : Prop :=
  ∀ (i : Instr) (arg : Byte) (s : State), i ∈ [Instr.reset arg, .setaddr arg, .commchg arg, .retry] →
    s.cfg.role = .node → s.fComplete = false →
    exec i s = .next { s with phase := .idle, trace := s.trace ++ [.returned .incomplete] }

/-- The OK status packet carries the pending reports, `TXR[0 .. TXN)` (rule R30); a staged address goes into the
first unassigned slot, and filling the last slot asserts both signals; the packet is kept for a retry and the
frame is cleared (rules R253, R277, R279). What is the model's own here: logs 4, 6 and 11. Marks of the spec
itself: own decisions in R30 and R277; derivations in R253. -/
def Obligations.StatusOkSendsTheReports : Prop :=
  ∀ s : State, s.cfg.role = .node →
    (∀ k : Nat, (pendingReports s)[k]? = if k < s.txn.val then some (s.txr.read k) else none) ∧
    (s.newaddr = 0xFF →
      exec .stOk s = .next { frameClear s with
        txlast := some (fcPacket 0x00 ⟨0x01 :: pendingReports s, okReply_bound s⟩)
        phase := .idle
        trace := s.trace ++
          nodeTransmitEvents s (fcPacket 0x00 ⟨0x01 :: pendingReports s, okReply_bound s⟩) ++
          [.returned .none] }) ∧
    (∀ i, s.newaddr ≠ 0xFF → s.atab[i]? = some 0xFF → (∀ j, j < i → s.atab[j]? ≠ some 0xFF) →
      exec .stOk s = .next { frameClear s with
        atab := s.atab.set i s.newaddr
        txlast := some (fcPacket 0x00 ⟨0x01 :: pendingReports s, okReply_bound s⟩)
        phase := .idle
        trace := s.trace ++ (if i + 1 = s.cfg.ndev then [.readyOut true, .ledOut true] else []) ++
          nodeTransmitEvents s (fcPacket 0x00 ⟨0x01 :: pendingReports s, okReply_bound s⟩) ++
          [.returned .none] })

/-- The three error statuses: the packet of four bytes, kept for a retry, with no report, and the frame cleared
(rules R254, R258, R276, R277). What is the model's own here: logs 4 and 6. Marks of the spec itself: own
decisions in R254, R258, R276 and R277. -/
def Obligations.ErrorStatusesReplyAndClear : Prop :=
  ∀ (i : Instr) (p : List Byte) (s : State),
    (i, p) ∈ [(Instr.stUnknown, [(0x00 : Byte), 0x02, 0x02, 0x04]), (.stSumerr, [0x00, 0x02, 0x03, 0x05]),
      (.stOverflow, [0x00, 0x02, 0x04, 0x06])] →
    s.cfg.role = .node →
    exec i s = .next { frameClear s with
      txlast := some p
      phase := .idle
      trace := s.trace ++ nodeTransmitEvents s p ++ [.returned .none] }

/-- A pushed byte is appended while there is room, ignored after an overflow, and raises the overflow flag
without room, the overflow status being sent by a later `NE_NEXT` (rules R274, R276; log 15); as the meaning of
`RP_OK`, the report code the application pushes (rule R111), and as the step of `NE_PUSH(b)` for any byte. The
call `NE_PUSH(b)` begins the push of that very byte. What is the model's own here: logs 4, 5 and 6. Marks of the
spec itself: own decisions in R276. -/
def Obligations.PushAppendsOneByte : Prop :=
  (∀ s : State, s.cfg.role = .node →
    (s.fTxovf = true →
      exec .rpOk s = .next { s with phase := .idle, trace := s.trace ++ [.returned .unit] }) ∧
    (s.fTxovf = false → s.txn.val = 253 →
      exec .rpOk s = .next { s with
        fTxovf := true, phase := .idle, trace := s.trace ++ [.returned .unit] }) ∧
    (s.fTxovf = false → s.txn.val ≤ 252 → Memory.wf s.txr = true →
      ∃ t, exec .rpOk s = .next t ∧ pendingReports t = pendingReports s ++ [0x01] ∧
        t.txn.val = s.txn.val + 1 ∧
        (∀ a, a ≠ s.txn.val → t.txr.read a = s.txr.read a) ∧
        t = { s with
          txr := t.txr, txn := t.txn, phase := .idle, trace := s.trace ++ [.returned .unit] })) ∧
  (∀ (s t : State) (b : Byte), nextTurn s = .block t → t.phase = .push b → t.cfg.role = .node →
    (t.fTxovf = true →
      step s = .next { t with phase := .idle, trace := t.trace ++ [.returned .unit] }) ∧
    (t.fTxovf = false → t.txn.val = 253 →
      step s = .next { t with
        fTxovf := true, phase := .idle, trace := t.trace ++ [.returned .unit] }) ∧
    (t.fTxovf = false → t.txn.val ≤ 252 → Memory.wf t.txr = true →
      ∃ u, step s = .next u ∧ pendingReports u = pendingReports t ++ [b] ∧
        u.txn.val = t.txn.val + 1 ∧
        (∀ a, a ≠ t.txn.val → u.txr.read a = t.txr.read a) ∧
        u = { t with
          txr := u.txr, txn := u.txn, phase := .idle, trace := t.trace ++ [.returned .unit] })) ∧
  (∀ (s : State) (b : Byte) (rest : List Input), s.phase = .idle → s.cfg.role = .node →
    s.inputs = .call (.nePush b) :: rest → step s = .next { s with inputs := rest, phase := .push b })

/-- The two queries of the application return a flag and change no state of the block (rule R282).
`NE_LINK_LOST` does the signal and table lines of a reset and clears the frame; nothing is returned (rule R265).
The call `NE_NEXT(spec)` begins with the receive loop of that very mode (rules R210, R252). What is the model's
own here: logs 4 and 5. Marks of the spec itself: own decisions in R252, R265 and R282. -/
def Obligations.NodeQueriesAndLinkLoss : Prop :=
  (∀ (s : State) (rest : List Input), s.phase = .idle → s.cfg.role = .node →
    (s.inputs = .call .neBusy :: rest →
      step s = .next { s with inputs := rest, trace := s.trace ++ [.returned (.bool s.fFraming)] }) ∧
    (s.inputs = .call .neOverflow :: rest →
      step s = .next { s with inputs := rest, trace := s.trace ++ [.returned (.bool s.fTxovf)] })) ∧
  (∀ (s : State) (rest : List Input), s.phase = .idle → s.cfg.role = .node →
    s.inputs = .call .neLinkLost :: rest →
    step s = .next { frameClear s with
      inputs := rest
      atab := List.replicate s.atab.length 0xFF
      trace := s.trace ++ [.readyOut false, .ledOut false, .returned .unit] }) ∧
  (∀ (s : State) (spec : Bool) (rest : List Input), s.phase = .idle → s.cfg.role = .node →
    s.inputs = .call (.neNext spec) :: rest →
    step s = .next { s with inputs := rest, phase := .receive (.neNext spec) })

/-- Slots fill in index order: an assigned slot has none unassigned before it, whatever runs (rule R283 c).
Marks of the spec itself: derivations in R283. -/
def Obligations.SlotsFillInOrder : Prop :=
  ∀ s t : State, filledInOrder s.atab = true → step s = .next t → filledInOrder t.atab = true

/-- The ready signal is asserted only by the step that fills the last unassigned slot (rules R277, R283 b).
Marks of the spec itself: own decisions in R277; derivations in R283. -/
def Obligations.ReadyMeansTheTableIsFull : Prop :=
  ∀ s t : State, s.Inv → step s = .next t →
    PortEvent.readyOut true ∈ gained s t → 0xFF ∈ s.atab ∧ 0xFF ∉ t.atab

/-- A node puts bytes on the bus only in `NE_NEXT`, on a frame that is verified or has failed its checksum,
which it then clears (rules R278, R283 d, R431). What is the model's own here: log 4. Marks of the spec itself:
derivations in R278, R283 and R431. -/
def Obligations.NodeTransmitsOnlyOnAnEndedFrame : Prop :=
  ∀ s t : State, s.Inv → s.cfg.role = .node → step s = .next t → transmits (gained s t) = true →
    (∃ spec, s.phase = .nodeLoop spec) ∧ framePending s = true ∧ framePending t = false ∧
      t.phase = .idle

/-! ## The Host Engine -/

/-- Presence is sampled at the start of `HE_RUN`; when it is false the session is reset and the call returns
false, with no byte read and no frame sent (rules R304, R305, R316); when it is true the call goes on to its
receive loop, which is the phase `receive` (rule R304; log 4). The signal is an input of the host (rule R402),
which an entry of `inputs` sets (log 5). It is sampled nowhere else: but for the signal itself, no other step
comes out otherwise when the signal is changed (rule R305). Marks of the spec itself: own decisions in R304 and
R316. -/
def Obligations.PresenceLossDisconnects : Prop :=
  (∀ (s : State) (rest : List Input),
    (s.phase = .idle → s.cfg.role = .host → s.inputs = .call .heRun :: rest →
      (s.connectedIn = false →
        step s = .next { heDisconnect s with
          inputs := rest, trace := s.trace ++ [.returned (.bool false)] }) ∧
      (s.connectedIn = true → step s = .next { s with inputs := rest, phase := .receive .heRun })) ∧
    (∀ v, s.inputs = .env (.connected v) :: rest →
      step s = .next { s with inputs := rest, connectedIn := v })) ∧
  (∀ (s : State) (v : Bool),
    (∀ rest, ¬(s.phase = .idle ∧ s.cfg.role = .host ∧ s.inputs = .call .heRun :: rest)) →
    (∀ w rest, s.inputs ≠ .env (.connected w) :: rest) →
    (∀ t, step s = .next t → step { s with connectedIn := v } = .next { t with connectedIn := v }) ∧
    (∀ r, step s = .refused r → step { s with connectedIn := v } = .refused r))

/-- The host's way through a handshake: `DISCONNECTED` (rule R320), the second broadcast reset (rule R323),
address assignment (rule R326) and the ready check, the signal before the clock (rules R306, R328). A send
clears the frame, puts the packet on the bus and notes the tick (rule R310); the call returns whether the state
it leaves is a session state (rule R318). What is the model's own here: logs 4 and 5. Marks of the spec itself:
own decisions in R306, R310 and R318. -/
def Obligations.HandshakeStatesOfTheHost : Prop :=
  ∀ s t : State, nextTurn s = .block t → t.phase = .hostArm →
    (t.hs = .disconnected →
      step s = .next { t with
        hs := .connected, ht0 := t.tick, phase := .idle, trace := t.trace ++ [.returned (.bool false)] }) ∧
    (t.hs = .reset2 →
      step s = .next { frameClear t with
        hs := .address, ht0 := t.tick, phase := .idle
        trace := t.trace ++ transmitEvents (fcPacket 0xFF ⟨[0xF0, t.cfg.resetArg], by simp⟩) ++
          [.returned (.bool false)] }) ∧
    (t.hs = .address → t.hdev + 1 = 255 →
      step s = .next { t with
        hs := .unexpected, phase := .idle, trace := t.trace ++ [.returned (.bool false)] }) ∧
    (t.hs = .address → t.hdev + 1 < 255 →
      step s = .next { frameClear t with
        hs := .addressWait, ht0 := t.tick, phase := .idle
        trace := t.trace ++ transmitEvents (fcPacket 0xFF ⟨[0xF1, BitVec.ofNat 8 (t.hdev + 1)], by simp⟩) ++
          [.returned (.bool false)] }) ∧
    (t.hs = .readyCheck → t.readyIn = true →
      step s = .next { t with
        hs := .reqIoid, htgt := 1, phase := .idle, trace := t.trace ++ [.returned (.bool false)] }) ∧
    (t.hs = .readyCheck → t.readyIn = false →
      t.cfg.tReadyGrace ≤ elapsed t.cfg.tickBits t.ht0 t.tick →
      step s = .next { t with
        hs := .address, phase := .idle, trace := t.trace ++ [.returned (.bool false)] }) ∧
    (t.hs = .readyCheck → t.readyIn = false →
      elapsed t.cfg.tickBits t.ht0 t.tick < t.cfg.tReadyGrace →
      step s = .next { t with phase := .idle, trace := t.trace ++ [.returned (.bool false)] })

/-- The settle interval (rule R321), the first broadcast reset (rule R322), `READY`, in which `HE_RUN` changes
nothing (rule R348), and the three error states (rules R360 to R362). The interval test is that of rule R306,
the send that of rule R310, the value returned that of rule R318. What is the model's own here: logs 4 and 5.
Marks of the spec itself: own decisions in R306, R310, R318, R322 and R362; general knowledge in R322. -/
def Obligations.SettlingReadyAndErrorStates : Prop :=
  ∀ s t : State, nextTurn s = .block t → t.phase = .hostArm →
    (t.hs = .connected → t.cfg.tSettle ≤ elapsed t.cfg.tickBits t.ht0 t.tick →
      step s = .next { t with
        hs := .reset1, phase := .idle, trace := t.trace ++ [.returned (.bool false)] }) ∧
    (t.hs = .connected → elapsed t.cfg.tickBits t.ht0 t.tick < t.cfg.tSettle →
      step s = .next { t with phase := .idle, trace := t.trace ++ [.returned (.bool false)] }) ∧
    (t.hs = .reset1 →
      step s = .next { frameClear t with
        hs := .reset2, ht0 := t.tick, phase := .idle
        trace := t.trace ++ transmitEvents (fcPacket 0xFF ⟨[0xF0, t.cfg.resetArg], by simp⟩) ++
          [.returned (.bool false)] }) ∧
    (t.hs = .ready →
      step s = .next { t with phase := .idle, trace := t.trace ++ [.returned (.bool true)] }) ∧
    (t.hs ∈ [HostState.timeout, .invalidResponse, .unexpected] →
      step s = .next { heDisconnect t with
        phase := .idle, trace := t.trace ++ [.returned (.bool false)] })

/-- Rule R332: the five request states send one single-command frame to the target (rule R310). The value
returned is that of rule R318. What is the model's own here: logs 4 and 5. Marks of the spec itself: own
decisions in R310 and R318; general knowledge in R332. -/
def Obligations.HostQueriesTheTarget : Prop :=
  ∀ (s t : State) (h w : HostState) (op : Byte), nextTurn s = .block t → t.phase = .hostArm →
    (h, op, w) ∈ [(HostState.reqIoid, (0x10 : Byte), HostState.waitIoid), (.reqCmdrev, 0x11, .waitCmdrev),
      (.reqJvrev, 0x12, .waitJvrev), (.reqProtover, 0x13, .waitProtover),
      (.reqFeatchk, 0x14, .waitFeatchk)] →
    t.hs = h →
    step s = .next { frameClear t with
      hs := w, ht0 := t.tick, phase := .idle
      trace := t.trace ++ transmitEvents (fcPacket (BitVec.ofNat 8 t.htgt) ⟨[op], by simp⟩) ++
        [.returned (.bool false)] }

/-- Rule R352: the sync request asks the target for its switches and its coins (rule R310). The value returned
is that of rule R318. What is the model's own here: logs 4 and 5. Marks of the spec itself: own decisions in
R310, R318 and R352; general knowledge in R352. -/
def Obligations.SyncRequestNamesTheCachedCounts : Prop :=
  ∀ (s t : State) (d : Fin 4), nextTurn s = .block t → t.phase = .hostArm → t.hs = .reqSync →
    t.htgt = d.val + 1 →
    step s = .next { frameClear t with
      hs := .waitSync, ht0 := t.tick, phase := .idle
      trace := t.trace ++
        transmitEvents (fcPacket (BitVec.ofNat 8 t.htgt)
          ⟨[0x20, t.hplayers[d], BitVec.ofNat 8 ((t.hbuttons[d].toNat + 7) / 8), 0x21,
            t.hcoinslots[d]], by simp⟩) ++ [.returned (.bool true)] }

/-- A wait state with no frame: `TIMEOUT` once `T_RESPONSE` ticks have passed, else it stays (rules R306, R313).
The value returned is that of rule R318. What is the model's own here: logs 4 and 5. Marks of the spec itself:
own decisions in R306, R313 and R318. -/
def Obligations.WaitStatesTimeOut : Prop :=
  ∀ s t : State, nextTurn s = .block t → t.phase = .hostArm →
    t.hs ∈ [HostState.addressWait, .waitIoid, .waitCmdrev, .waitJvrev, .waitProtover, .waitFeatchk,
      .waitSync, .waitCoinSync] → t.fComplete = false →
    (t.cfg.tResponse ≤ elapsed t.cfg.tickBits t.ht0 t.tick →
      step s = .next { t with
        hs := .timeout, phase := .idle, trace := t.trace ++ [.returned (.bool false)] }) ∧
    (elapsed t.cfg.tickBits t.ht0 t.tick < t.cfg.tResponse →
      step s = .next { t with
        phase := .idle
        trace := t.trace ++
          [.returned (.bool (decide (t.hs = .waitSync) || decide (t.hs = .waitCoinSync)))] })

/-- The status byte of a reply as a host reads it in a wait state with a verified frame (rules R303, R313):
`ST_OK` goes on to the report code; the three error statuses are an invalid response (rules R110, R312, R313).
That `ST_OK` is an instruction with a step of its own, which only moves the phase to `hostReport`, is the
model's choice (logs 4 and 6). Marks of the spec itself: own decisions in R312 and R313; derivations in R303. -/
def Obligations.HostReadsTheStatusByte : Prop :=
  ∀ s : State,
    (replyAwaited s = true ↔ s.cfg.role = .host ∧
      s.hs ∈ [HostState.addressWait, .waitIoid, .waitCmdrev, .waitJvrev, .waitProtover, .waitFeatchk,
        .waitSync, .waitCoinSync] ∧ s.fComplete = true) ∧
    (replyAwaited s = true →
      exec .stOk s = .next { s with phase := .hostReport } ∧
      (∀ i, i ∈ [Instr.stUnknown, .stSumerr, .stOverflow] →
        exec i s = .next { frameClear s with
          hs := .invalidResponse, phase := .idle, trace := s.trace ++ [.returned (.bool false)] }))

/-- The template of a wait state with a verified frame: a frame that is no well-formed reply leaves the host in
`INVALID_RESPONSE` with the frame taken (rules R308, R312, R313, R361); a well-formed reply reaches, as `RP_OK`,
what the state itself accepts. The payload of a reply is `RXB[2 .. RXW - 1)`: without address, length and
checksum, as the first clause spells out. The steps counted and the phase between them are the model's own (log
4), and so is `RP_OK` as the instruction that takes the reply (log 6). What is the model's own here: log 5.
Marks of the spec itself: own decisions in R312 and R313; derivations in R308. -/
def Obligations.RejectedFrameIsAnInvalidResponse : Prop :=
  ∀ (s : State) (p : List Byte), p = rxSlice s 2 (s.rxw.val - 1) →
    s.inputs = [] → s.phase = .hostArm → s.cfg.role = .host → s.hs.isWait = true → s.fComplete = true →
    (p.length = s.rxw.val - 3 ∧ ∀ k, k < p.length → p.getD k 0 = rxRead s (k + 2)) ∧
    (rxRead s 0 = 0x00 → [0x01, 0x01] <+: p →
      Sys2Proof.core.run 2 s = exec .rpOk { s with phase := .hostReport }) ∧
    (rxRead s 0 ≠ 0x00 ∨ ¬ [0x01, 0x01] <+: p →
      ∃ k, (k = 1 ∨ k = 2) ∧
        Sys2Proof.core.run k s = .next { frameClear s with
          hs := .invalidResponse, phase := .idle, trace := s.trace ++ [.returned (.bool false)] })

/-- `RP_OK` in `ADDRESS_WAIT` and in `WAIT_COIN_SYNC`: only the payload `[0x01, 0x01]` is accepted (rule R308).
The first counts one more device (rule R327); after the second the next target is polled, or the snapshot is
delivered (rules R357, R358). The value returned is that of rule R318. What is the model's own here: logs 4 and
6. Marks of the spec itself: own decisions in R318, R357 and R358; derivations in R308. -/
def Obligations.AcknowledgmentsAdvanceTheHost : Prop :=
  (∀ (s : State) (p : List Byte), p = rxSlice s 2 (s.rxw.val - 1) →
    replyAwaited s = true → s.hs = .addressWait →
    (p = [0x01, 0x01] →
      exec .rpOk s = .next { frameClear s with
        hdev := s.hdev + 1, ht0 := s.tick, hs := .readyCheck
        phase := .idle, trace := s.trace ++ [.returned (.bool false)] }) ∧
    (p ≠ [0x01, 0x01] →
      exec .rpOk s = .next { frameClear s with
        hs := .invalidResponse, phase := .idle, trace := s.trace ++ [.returned (.bool false)] })) ∧
  (∀ (s : State) (p : List Byte), p = rxSlice s 2 (s.rxw.val - 1) →
    replyAwaited s = true → s.hs = .waitCoinSync →
    (p = [0x01, 0x01] → s.htgt < s.hdev → s.htgt < 4 →
      exec .rpOk s = .next { frameClear s with
        htgt := s.htgt + 1, hs := .reqSync, phase := .idle
        trace := s.trace ++ [.returned (.bool true)] }) ∧
    (p = [0x01, 0x01] → (s.hdev ≤ s.htgt ∨ 4 ≤ s.htgt) →
      exec .rpOk s = .next { frameClear s with
        hs := .ready, phase := .idle
        trace := s.trace ++ [.evSynced s.htotal s.hcoin s.hsw0 s.hsw1, .returned (.bool true)] }) ∧
    (p ≠ [0x01, 0x01] →
      exec .rpOk s = .next { frameClear s with
        hs := .invalidResponse, phase := .idle, trace := s.trace ++ [.returned (.bool false)] }))

/-- `RP_OK` in the four wait states that report a capability: the data goes to the application and the next
request follows; a revision reply has exactly three bytes (rules R308, R336, R338 to R340). The value returned
is that of rule R318. What is the model's own here: logs 4 and 6. Marks of the spec itself: own decisions in
R318, R336, R338, R339 and R340; derivations in R308. -/
def Obligations.CapabilityRepliesAreReported : Prop :=
  ∀ (s : State) (p : List Byte) (h n : HostState) (k : CapKind),
    p = rxSlice s 2 (s.rxw.val - 1) → replyAwaited s = true → s.hs = h →
    (h, k, n) ∈ [(HostState.waitIoid, CapKind.ioid, HostState.reqCmdrev), (.waitCmdrev, .cmdrev, .reqJvrev),
      (.waitJvrev, .jvrev, .reqProtover), (.waitProtover, .protover, .reqFeatchk)] →
    (h = .waitIoid ∨ p.length = 3 →
      exec .rpOk s = .next { frameClear s with
        hs := n, phase := .idle
        trace := s.trace ++ [.evCapability s.htgt k (p.drop 2),
          .returned (.bool false)] }) ∧
    (h ≠ .waitIoid → p.length ≠ 3 →
      exec .rpOk s = .next { frameClear s with
        hs := .invalidResponse, phase := .idle, trace := s.trace ++ [.returned (.bool false)] })

/-- `ParseFeatures` accepts exactly the records of four bytes with a function code other than zero, ended by one
zero byte that is the last; the last record of a kind wins (rule R345). Marks of the spec itself: own decisions
in R345; general knowledge in R345. -/
def Obligations.FeatureRecordsParse : Prop :=
  ∀ (p : List Byte) (players buttons coins : Byte),
    parseFeatures p = some (players, buttons, coins) ↔
      ∃ records : List (Byte × Byte × Byte × Byte),
        p.drop 2 = (records.flatMap fun r => [r.1, r.2.1, r.2.2.1, r.2.2.2]) ++ [0x00] ∧
        (∀ r ∈ records, r.1 ≠ 0x00) ∧
        (players, buttons, coins) =
          records.foldl (fun acc r =>
            if r.1 = 0x01 then (r.2.1, r.2.2.1, acc.2.2)
            else if r.1 = 0x02 then (acc.1, acc.2.1, r.2.1) else acc) (0, 0, 0)

/-- `RP_OK` in `WAIT_FEATCHK`: the counts of the first four devices are cached, the total is capped at four, and
the next device is asked or the handshake is over (rules R308, R344, R346). The value returned is that of rule
R318. What is the model's own here: logs 4, 6 and 16. Marks of the spec itself: own decisions in R318 and R344;
derivations in R308. -/
def Obligations.FunctionCheckIsCached : Prop :=
  ∀ (s : State) (p : List Byte), p = rxSlice s 2 (s.rxw.val - 1) → replyAwaited s = true →
    s.hs = .waitFeatchk →
    (parseFeatures p = none →
      exec .rpOk s = .next { frameClear s with
        hs := .invalidResponse, phase := .idle, trace := s.trace ++ [.returned (.bool false)] }) ∧
    (∀ players buttons coins, parseFeatures p = some (players, buttons, coins) →
      exec .rpOk s = .next { frameClear s with
        hplayers :=
          if s.htgt ≤ 4 then s.hplayers.setIfInBounds (s.htgt - 1) players else s.hplayers
        hbuttons :=
          if s.htgt ≤ 4 then s.hbuttons.setIfInBounds (s.htgt - 1) buttons else s.hbuttons
        hcoinslots :=
          if s.htgt ≤ 4 then s.hcoinslots.setIfInBounds (s.htgt - 1) coins else s.hcoinslots
        htotal := if s.htgt ≤ 4 then min 4 (s.htotal + players.toNat) else s.htotal
        htgt := if s.htgt < s.hdev then s.htgt + 1 else s.htgt
        hs := if s.htgt < s.hdev then .reqIoid else .ready
        phase := .idle
        trace := s.trace ++ [.evCapability s.htgt .featchk (p.drop 2),
          .returned (.bool (decide (s.hdev ≤ s.htgt)))] })

/-- `RP_OK` in `WAIT_SYNC`: a reply of the expected length with its second report code is taken into the two
switch maps (rule R354); the first slot with coins is flagged and subtracted (rules R355, R356), or the cycle
goes on (rule R358); any other reply is an invalid response. A coin counter is two bytes, the high byte first,
of which the low 14 bits count (rules R78, R308, R354). The send is that of rule R310, the value returned that
of rule R318. What is the model's own here: logs 4, 6 and 16. Marks of the spec itself: own decisions in R78,
R310, R318, R354, R355, R356 and R358; derivations in R308; general knowledge in R78, R354 and R356. -/
def Obligations.SyncReplyIsTaken : Prop :=
  ∀ (s : State) (d : Fin 4) (p : List Byte) (cnt : Nat → Nat) (np bpp nc q base : Nat),
    p = rxSlice s 2 (s.rxw.val - 1) → replyAwaited s = true → s.hs = .waitSync →
    s.htgt = d.val + 1 → np = s.hplayers[d].toNat → bpp = (s.hbuttons[d].toNat + 7) / 8 →
    nc = s.hcoinslots[d].toNat → q = 3 + np * bpp →
    (∀ slot, cnt slot =
      (p.getD (q + 1 + 2 * slot) 0).toNat % 64 * 256 + (p.getD (q + 2 + 2 * slot) 0).toNat) →
    base = ((s.hplayers.toList.take d.val).map BitVec.toNat).sum →
    (p.length ≠ 4 + np * bpp + 2 * nc ∨ p.getD q 0 ≠ 0x01 →
      exec .rpOk s = .next { frameClear s with
        hs := .invalidResponse, phase := .idle, trace := s.trace ++ [.returned (.bool false)] }) ∧
    (p.length = 4 + np * bpp + 2 * nc → p.getD q 0 = 0x01 →
      ∃ u, exec .rpOk s = .next u ∧
        (∀ (g : Nat) (hg : g < 4),
          (base ≤ g ∧ g < base + np →
            u.hsw0[g] = (if 1 ≤ bpp then p.getD (3 + (g - base) * bpp) 0 else 0) ∧
            u.hsw1[g] = (if 2 ≤ bpp then p.getD (3 + (g - base) * bpp + 1) 0 else 0)) ∧
          (¬(base ≤ g ∧ g < base + np) → u.hsw0[g] = s.hsw0[g] ∧ u.hsw1[g] = s.hsw1[g])) ∧
        (∀ slot, slot < nc → base + slot < 4 → 0 < cnt slot →
          (∀ j, j < slot → cnt j = 0) →
          u = { frameClear s with
            hsw0 := u.hsw0, hsw1 := u.hsw1
            hcoin := s.hcoin ||| BitVec.ofNat 8 (2 ^ (base + slot))
            hs := .waitCoinSync, ht0 := s.tick, phase := .idle
            trace := s.trace ++
              transmitEvents (fcPacket (BitVec.ofNat 8 s.htgt)
                ⟨[0x30, BitVec.ofNat 8 (slot + 1), 0x00, 0x01], by simp⟩) ++ [.returned (.bool true)] }) ∧
        ((∀ slot, slot < nc → base + slot < 4 → cnt slot = 0) →
          (s.htgt < s.hdev → s.htgt < 4 →
            u = { frameClear s with
              hsw0 := u.hsw0, hsw1 := u.hsw1, htgt := s.htgt + 1, hs := .reqSync, phase := .idle
              trace := s.trace ++ [.returned (.bool true)] }) ∧
          (s.hdev ≤ s.htgt ∨ 4 ≤ s.htgt →
            u = { frameClear s with
              hsw0 := u.hsw0, hsw1 := u.hsw1, hs := .ready, phase := .idle
              trace := s.trace ++ [.evSynced s.htotal s.hcoin u.hsw0 u.hsw1,
                .returned (.bool true)] })))

/-- Rule R350: `HE_SYNC` starts a cycle at the first target in `READY` and is ignored in every other state. What
is the model's own here: logs 4 and 5. Marks of the spec itself: own decisions in R350. -/
def Obligations.SyncTriggerStartsACycle : Prop :=
  ∀ (s : State) (rest : List Input), s.phase = .idle → s.cfg.role = .host →
    s.inputs = .call .heSync :: rest →
    (s.hs = .ready →
      step s = .next { s with
        inputs := rest, htgt := 1, hcoin := 0, hs := .reqSync
        trace := s.trace ++ [.returned .unit] }) ∧
    (s.hs ≠ .ready → step s = .next { s with inputs := rest, trace := s.trace ++ [.returned .unit] })

/-- Rule R318: a call of `HE_RUN` that ends returns true exactly when the state it leaves is a session state.
What is the model's own here: logs 4 and 5. Marks of the spec itself: own decisions in R318. -/
def Obligations.RunReturnsSessionReady : Prop :=
  ∀ s t : State, s.cfg.role = .host →
    (s.phase = .receive .heRun ∨ s.phase = .hostArm ∨ s.phase = .hostReport ∨
      (s.phase = .idle ∧ ∃ rest, s.inputs = .call .heRun :: rest)) →
    step s = .next t → t.phase = .idle →
    ∃ pre, t.trace = pre ++
      [.returned (.bool (decide (t.hs ∈ [HostState.ready, .reqSync, .waitSync, .waitCoinSync])))]

/-- A host puts bytes on the bus only from the send states and from `WAIT_SYNC`, where it has just taken a
verified reply (rule R310). What is the model's own here: log 4. Marks of the spec itself: own decisions in
R310. -/
def Obligations.HostTransmitsOnlyFromSendStates : Prop :=
  ∀ s t : State, s.Inv → s.cfg.role = .host → step s = .next t → transmits (gained s t) = true →
    s.hs ∈ sendingStates ∧ (s.hs = .waitSync → s.phase = .hostReport ∧ s.fComplete = true) ∧
      framePending t = false ∧ t.phase = .idle ∧ t.ht0 = s.tick

/-! ## The whole machine -/

/-- `INIT` loads every element with the reset value of rule R49 and drives the outputs of rule R422; the
buffers' contents and the collaborators' values are the model's choice (log 2, log 9). `INIT` on a live instance
gives the same state, with the environment and what has left the block as they are (rules R420, R421). What is
the model's own here: logs 4, 5 and 17. Marks of the spec itself: own decisions in R49, R420 and R422. -/
def Obligations.InitLoadsTheResetValues : Prop :=
  (∀ c : Config,
    (State.init c).cfg = c ∧ (State.init c).rxw = 0 ∧ (State.init c).rxr = 2 ∧
    (State.init c).fFraming = false ∧ (State.init c).fEsc = false ∧
    (State.init c).fComplete = false ∧ (State.init c).fSumerr = false ∧
    (State.init c).dsrSnap = false ∧ (State.init c).txn = 0 ∧ (State.init c).txlast = none ∧
    (State.init c).fTxovf = false ∧ (State.init c).newaddr = 0xFF ∧
    (State.init c).commMode = .base ∧ (State.init c).hs = .disconnected ∧ (State.init c).ht0 = 0 ∧
    (State.init c).hdev = 0 ∧ (State.init c).htgt = 1 ∧ (State.init c).htotal = 0 ∧
    (State.init c).hcoin = 0 ∧
    (∀ (d : Fin 4), (State.init c).hplayers[d] = 0 ∧ (State.init c).hbuttons[d] = 0 ∧
      (State.init c).hcoinslots[d] = 0 ∧ (State.init c).hsw0[d] = 0 ∧ (State.init c).hsw1[d] = 0) ∧
    (c.role = .node →
      (State.init c).atab.length = c.ndev ∧ (∀ a ∈ (State.init c).atab, a = 0xFF) ∧
      (State.init c).trace = [.readyOut false, .ledOut false, .dir .input]) ∧
    (c.role = .host → (State.init c).atab = [0x00] ∧ (State.init c).trace = [.dir .input])) ∧
  (∀ (s : State) (rest : List Input), s.phase = .idle → s.inputs = .call .init :: rest →
    step s = .next { State.init s.cfg with
      chanRx := s.chanRx, connectedIn := s.connectedIn, readyIn := s.readyIn
      downstreamReady := s.downstreamReady, tick := s.tick, speedYes := s.speedYes
      inputs := rest, freeCount := s.freeCount
      trace := s.trace ++ (State.init s.cfg).trace ++ [.returned .unit] })

/-- The invariant holds after `INIT` with any configuration rule R11 allows, and after reset. The invariant is
what rules R21 to R44 say of the state. The second clause rests on the values `State.reset` takes for the
parameters R11 leaves open, which are a design choice (log 1, unsafe), and both clauses rest on those the model
takes for the buffers and the collaborators (logs 2 and 9). Marks of the spec itself: own decisions in R11, R22,
R23, R24, R28, R29, R30, R33, R34, R35, R36, R43 and R44; derivations in R11, R21, R27, R34, R36 and R38;
general knowledge in R11 and R36. -/
def Obligations.InvHoldsAfterInit : Prop :=
  (∀ c : Config, c.legal = true → (State.init c).Inv) ∧ State.reset.Inv

/-- Every step keeps the invariant: the buffers stay canonical and within their bounds, the receive flags
exclude one another, a complete frame has its count and its checksum, the table keeps its slots, the session
stays in range (rules R21 to R44, R29). What is the model's own here: logs 2 and 11. Marks of the spec itself:
own decisions in R22, R23, R24, R28, R29, R30, R33, R34, R35, R36, R43 and R44; derivations in R21, R27, R34,
R36 and R38; general knowledge in R36. -/
def Obligations.StepKeepsInv : Prop :=
  ∀ s t : State, s.Inv → step s = .next t → t.Inv

/-- No step faults, and a step refuses only a call of the engine this role does not have: "no hard faults are
raised" (rules R2, R9, R366, R396). The refusals themselves are the model's (log 8). What is the model's own
here: logs 4 and 5. Marks of the spec itself: own decisions in R396. -/
def Obligations.OnlyForeignCallsAreRefused : Prop :=
  ∀ s : State, s.Inv →
    (∃ t, step s = .next t) ∨
    (s.cfg.role = .host ∧ s.phase = .idle ∧ step s = .refused .noNodeEngine ∧
      ∃ c rest, s.inputs = .call c :: rest ∧ c ≠ .heRun ∧ c ≠ .heSync ∧ c ≠ .init) ∨
    (s.cfg.role = .node ∧ s.phase = .idle ∧ step s = .refused .noHostEngine ∧
      ∃ c rest, s.inputs = .call c :: rest ∧ (c = .heRun ∨ c = .heSync))

/-- Every call returns: with nothing happening outside, a running call is over after a number of steps bounded
by the bytes that wait in the channel and the size of the receive buffer (rules R250, R252, R300). The steps
counted are the model's own (log 4). What is the model's own here: log 5. Marks of the spec itself: own
decisions in R252. -/
def Obligations.EveryCallReturns : Prop :=
  ∀ s : State, s.Inv → s.inputs = [] →
    ∃ k t, k ≤ 2 * s.chanRx.length + 300 ∧ Sys2Proof.core.run k s = .next t ∧ t.phase = .idle

/-- The configuration is never written (rule R46), and what has left the block is never taken back: outputs,
events and results are appended in order (rules R75, R81). -/
def Obligations.ConfigurationStaysAndOutputsGrow : Prop :=
  (∀ s t : State, step s = .next t → t.cfg = s.cfg) ∧
  (∀ s t : State, step s = .next t → s.trace <+: t.trace)

/-- The link speed is written only by a committed change, made from a verified frame, and by `INIT` (rules R36,
R271). What is the model's own here: logs 4, 5 and 10. Marks of the spec itself: own decisions in R36 and R271;
derivations in R36; general knowledge in R36. -/
def Obligations.LinkSpeedChangesOnlyOnCommit : Prop :=
  ∀ s t : State, step s = .next t → t.commMode ≠ s.commMode →
    (s.fComplete = true ∧ (t.commMode, true) ∈ s.speedYes ∧
      PortEvent.speedCommit t.commMode true ∈ gained s t) ∨
    (∃ rest, s.inputs = .call .init :: rest ∧ t.commMode = .base)

/-- What the environment does is all that its step changes (rules R74, R401 to R403): the channel's queue is
first in, first out, and ticks are counted modulo `2^TICK_BITS`. The time since `HT0` is the ticks that have
passed, across a wrap, as long as they are fewer than `2^TICK_BITS` (rules R306, R437). What is the model's own
here: logs 5 and 10. Marks of the spec itself: own decisions in R306; derivations in R437. -/
def Obligations.EnvironmentActsAlone : Prop :=
  (∀ (s : State) (rest : List Input),
    (∀ b, s.inputs = .env (.byte b) :: rest →
      step s = .next { s with inputs := rest, chanRx := s.chanRx ++ [b] }) ∧
    (∀ v, s.inputs = .env (.ready v) :: rest →
      step s = .next { s with inputs := rest, readyIn := v }) ∧
    (∀ v, s.inputs = .env (.downstream v) :: rest →
      step s = .next { s with inputs := rest, downstreamReady := v }) ∧
    (∀ yes, s.inputs = .env (.speed yes) :: rest →
      step s = .next { s with inputs := rest, speedYes := yes }) ∧
    (∀ n, s.inputs = .env (.ticks n) :: rest →
      step s = .next { s with inputs := rest, tick := (s.tick + n) % 2 ^ s.cfg.tickBits })) ∧
  (∀ (s : State) (n : Nat) (rest : List Input), s.inputs = .env (.ticks n) :: rest → s.ht0 = s.tick →
    s.tick < 2 ^ s.cfg.tickBits → n < 2 ^ s.cfg.tickBits →
    ∃ t, step s = .next t ∧ elapsed t.cfg.tickBits t.ht0 t.tick = n)

/-- A host instance has no Node Engine: each of the 24 commands is refused there (rules R2, R250, R396; the
refusal is the model's, log 8). Marks of the spec itself: own decisions in R396. -/
def Obligations.HostRunsNoCommand : Prop :=
  ∀ (i : Instr) (s : State), i.level = .command → s.cfg.role = .host →
    exec i s = .refused .noNodeEngine

end
end

