-- ==== Sys2Proof/Laws/Memory.lean ====
section
/-! SUPPORT. The laws of a byte buffer: a write keeps the canonical form and the buffer's bound, a read after a
write gives the value written, and every other address reads as before. -/

namespace Sys2Proof.Machine

theorem Memory.wf_tail {e : Host.Cell} {m : Memory} (h : Memory.wf (e :: m) = true) :
    Memory.wf m = true := by
  obtain ⟨k, w⟩ := e
  simp only [Memory.wf, Bool.and_eq_true] at h
  exact h.2

theorem Memory.wf_head_value {k : Nat} {w : Byte} {m : Memory}
    (h : Memory.wf ((k, w) :: m) = true) : w ≠ unlistedByte := by
  simp only [Memory.wf, Bool.and_eq_true, decide_eq_true_eq] at h
  exact h.1.1

theorem Memory.wf_head_lt {k : Nat} {w : Byte} {m : Memory} (h : Memory.wf ((k, w) :: m) = true) :
    ∀ e ∈ m, k < e.1 := by
  simp only [Memory.wf, Bool.and_eq_true, List.all_eq_true, decide_eq_true_eq] at h
  exact h.1.2

theorem Memory.wf_cons {k : Nat} {w : Byte} {m : Memory} (hw : w ≠ unlistedByte)
    (hk : ∀ e ∈ m, k < e.1) (hm : Memory.wf m = true) : Memory.wf ((k, w) :: m) = true := by
  simp only [Memory.wf, Bool.and_eq_true, List.all_eq_true, decide_eq_true_eq]
  exact ⟨⟨hw, hk⟩, hm⟩

/-- Every address of a buffer after a write was there before or is the one written. -/
theorem Memory.mem_write {m : Memory} {a : Nat} {v : Byte} {e : Host.Cell}
    (h : e ∈ Memory.write m a v) : e ∈ m ∨ e = (a, v) := by
  induction m with
  | nil =>
    simp only [Memory.write] at h
    split at h <;> simp_all
  | cons c m ih =>
    obtain ⟨k, w⟩ := c
    simp only [Memory.write] at h
    split at h
    · split at h
      · exact .inl h
      · simp only [List.mem_cons] at h ⊢; tauto
    · split at h
      · split at h
        · exact .inl (List.mem_cons_of_mem _ h)
        · simp only [List.mem_cons] at h ⊢; tauto
      · simp only [List.mem_cons] at h ⊢
        rcases h with h | h
        · exact .inl (.inl h)
        · rcases ih h with h | h
          · exact .inl (.inr h)
          · exact .inr h

/-- A write keeps the canonical form. -/
theorem Memory.wf_write {m : Memory} (h : Memory.wf m = true) (a : Nat) (v : Byte) :
    Memory.wf (Memory.write m a v) = true := by
  induction m with
  | nil =>
    simp only [Memory.write]
    split
    · rfl
    · exact Memory.wf_cons ‹_› (by simp) rfl
  | cons c m ih =>
    obtain ⟨k, w⟩ := c
    have hm := Memory.wf_tail h
    have hlt := Memory.wf_head_lt h
    simp only [Memory.write]
    split
    · split
      · exact h
      · refine Memory.wf_cons ‹_› ?_ h
        intro e he
        rcases List.mem_cons.mp he with rfl | he
        · assumption
        · have := hlt e he; omega
    · split
      · split
        · exact hm
        · subst_vars; exact Memory.wf_cons ‹_› hlt hm
      · refine Memory.wf_cons (Memory.wf_head_value h) ?_ (ih hm)
        intro e he
        rcases Memory.mem_write he with he | rfl
        · exact hlt e he
        · show k < a; omega

/-- A write keeps the buffer within its bound. -/
theorem Memory.below_write {m : Memory} {n : Nat} (h : Memory.below m n = true) {a : Nat} (ha : a < n)
    (v : Byte) : Memory.below (Memory.write m a v) n = true := by
  simp only [Memory.below, List.all_eq_true, decide_eq_true_eq] at h ⊢
  intro e he
  rcases Memory.mem_write he with he | rfl
  · exact h e he
  · exact ha

/-- An address below every listed one is not listed. -/
theorem Memory.read_of_lt {m : Memory} {a : Nat} (h : ∀ e ∈ m, a < e.1) :
    Memory.read m a = unlistedByte := by
  induction m with
  | nil => rfl
  | cons c m ih =>
    obtain ⟨k, w⟩ := c
    have hk : a < k := h (k, w) (by simp)
    rw [Memory.read, if_neg (by omega)]
    exact ih fun e he => h e (List.mem_cons_of_mem _ he)

/-- A read after a write to the same address gives the value written. -/
theorem Memory.read_write_same {m : Memory} (h : Memory.wf m = true) (a : Nat) (v : Byte) :
    Memory.read (Memory.write m a v) a = v := by
  induction m with
  | nil =>
    simp only [Memory.write]
    split
    · simp only [Memory.read]; symm; assumption
    · simp only [Memory.read, if_true]
  | cons c m ih =>
    obtain ⟨k, w⟩ := c
    have hlt := Memory.wf_head_lt h
    simp only [Memory.write]
    split
    · split
      · rw [Memory.read_of_lt]
        · symm; assumption
        · intro e he
          rcases List.mem_cons.mp he with rfl | he
          · assumption
          · have := hlt e he; omega
      · simp only [Memory.read, if_true]
    · split
      · split
        · subst_vars; rw [Memory.read_of_lt hlt]
        · simp only [Memory.read, if_true]
      · rw [Memory.read, if_neg (by omega)]
        exact ih (Memory.wf_tail h)

/-- A write leaves every other address as it was. -/
theorem Memory.read_write_other (m : Memory) {a b : Nat} (hab : b ≠ a) (v : Byte) :
    Memory.read (Memory.write m a v) b = Memory.read m b := by
  induction m with
  | nil =>
    simp only [Memory.write]
    split
    · rfl
    · simp only [Memory.read, if_neg (Ne.symm hab)]
  | cons c m ih =>
    obtain ⟨k, w⟩ := c
    simp only [Memory.write]
    split
    · split
      · rfl
      · simp only [Memory.read, if_neg (Ne.symm hab)]
    · split
      · split
        · subst_vars; simp only [Memory.read, if_neg (Ne.symm hab)]
        · subst_vars; simp only [Memory.read, if_neg (Ne.symm hab)]
      · simp only [Memory.read, ih]

@[simp] theorem Memory.length_slice (m : Memory) (i j : Nat) : (Memory.slice m i j).length = j - i := by
  simp [Memory.slice]

/-- The elements of a slice are the bytes read. -/
theorem Memory.getElem?_slice (m : Memory) (i j k : Nat) :
    (Memory.slice m i j)[k]? = if k < j - i then some (Memory.read m (i + k)) else none := by
  unfold Memory.slice
  split
  · rename_i h
    simp [List.getElem?_range' h]
  · rename_i h
    simp; omega

/-- A slice that ends at or before an address written to does not change. -/
theorem Memory.slice_write_of_le (m : Memory) (i : Nat) {j a : Nat} (h : j ≤ a) (v : Byte) :
    Memory.slice (Memory.write m a v) i j = Memory.slice m i j := by
  unfold Memory.slice
  refine List.map_congr_left fun k hk => ?_
  have := List.mem_range'_1.mp hk
  exact Memory.read_write_other m (by omega) v

/-- A slice one longer than another ends in the byte read there. -/
theorem Memory.slice_succ (m : Memory) {i j : Nat} (h : i ≤ j) :
    Memory.slice m i (j + 1) = Memory.slice m i j ++ [Memory.read m j] := by
  unfold Memory.slice
  rw [show j + 1 - i = (j - i) + 1 by omega, List.range'_concat, List.map_append]
  simp only [List.map_cons, List.map_nil, Nat.one_mul]
  rw [show i + (j - i) = j by omega]

/-- Writing at the end of a slice appends to it. -/
theorem Memory.slice_write_end {m : Memory} (hm : Memory.wf m = true) {i j : Nat} (h : i ≤ j)
    (v : Byte) : Memory.slice (Memory.write m j v) i (j + 1) = Memory.slice m i j ++ [v] := by
  rw [Memory.slice_succ _ h, Memory.slice_write_of_le _ _ (le_refl _), Memory.read_write_same hm]

theorem Memory.mem_ofBytes {i : Nat} {l : List Byte} {e : Host.Cell} (h : e ∈ Memory.ofBytes i l) :
    i ≤ e.1 ∧ e.1 < i + l.length := by
  induction l generalizing i with
  | nil => simp [Memory.ofBytes] at h
  | cons b l ih =>
    simp only [Memory.ofBytes] at h
    simp only [List.length_cons]
    split at h
    · have := ih h; omega
    · rcases List.mem_cons.mp h with rfl | h
      · simp
      · have := ih h; omega

/-- The buffer made of a list of bytes is canonical. -/
theorem Memory.wf_ofBytes (i : Nat) (l : List Byte) : Memory.wf (Memory.ofBytes i l) = true := by
  induction l generalizing i with
  | nil => rfl
  | cons b l ih =>
    simp only [Memory.ofBytes]
    split
    · exact ih (i + 1)
    · refine Memory.wf_cons ‹_› (fun e he => ?_) (ih (i + 1))
      have := Memory.mem_ofBytes he
      omega

/-- The buffers after `INIT` are canonical. -/
theorem init_memory_wf (c : Config) :
    Memory.wf (State.init c).rxb = true ∧ Memory.wf (State.init c).txr = true := ⟨rfl, rfl⟩

/-- The buffers after reset are canonical. -/
theorem reset_memory_wf :
    Memory.wf State.reset.rxb = true ∧ Memory.wf State.reset.txr = true := ⟨rfl, rfl⟩

end Sys2Proof.Machine
end

