-- ==== Sys2Proof/Laws/Codec.lean ====
section
/-! SUPPORT. The arithmetic of the codec: sums, escapes, the length of a packet, and the Command Table's text
scan. -/

namespace Sys2Proof.Machine

@[simp] theorem sum8_nil : sum8 [] = 0 := rfl

@[simp] theorem sum8_cons (b : Byte) (l : List Byte) : sum8 (b :: l) = b + sum8 l := rfl

theorem sum8_append (l m : List Byte) : sum8 (l ++ m) = sum8 l + sum8 m := by
  induction l with
  | nil => simp
  | cons b l ih => simp only [List.cons_append, sum8_cons, ih]; exact (BitVec.add_assoc _ _ _).symm

@[simp] theorem escAll_nil : escAll [] = [] := rfl

@[simp] theorem escAll_cons (b : Byte) (l : List Byte) : escAll (b :: l) = esc b ++ escAll l := rfl

theorem escAll_append (l m : List Byte) : escAll (l ++ m) = escAll l ++ escAll m := by
  induction l with
  | nil => rfl
  | cons b l ih => simp [ih]

/-- `Esc` gives the byte itself or the escape marker and one less (rule R15). -/
theorem esc_cases (b : Byte) :
    (b = symSync ∧ esc b = [symMark, 0xDF]) ∨ (b = symMark ∧ esc b = [symMark, 0xCF]) ∨
    (b ≠ symSync ∧ b ≠ symMark ∧ esc b = [b]) := by
  by_cases h : b = symSync
  · subst h; exact .inl ⟨rfl, by decide⟩
  · by_cases h' : b = symMark
    · subst h'; exact .inr (.inl ⟨rfl, by decide⟩)
    · exact .inr (.inr ⟨h, h', by simp [esc, h, h']⟩)

@[simp] theorem length_fcPacket (a : Byte) (p : Payload) : (fcPacket a p).length = p.bytes.length + 3 := by
  simp [fcPacket]

/-- A packet is its body and the body's sum (rules R103, R190). -/
theorem fcPacket_eq (a : Byte) (p : Payload) :
    fcPacket a p =
      a :: BitVec.ofNat 8 (p.bytes.length + 1) ::
        (p.bytes ++ [sum8 (a :: BitVec.ofNat 8 (p.bytes.length + 1) :: p.bytes)]) := rfl

/-- Bytes are a payload exactly when they are at most 254 (rule R190). -/
theorem payload_ofBytes?_eq_some {l : List Byte} {p : Payload} :
    Payload.ofBytes? l = some p ↔ p.bytes = l := by
  unfold Payload.ofBytes?
  split
  · rename_i h
    cases p
    simp [eq_comm]
  · rename_i h
    have := p.bound
    constructor
    · intro e; cases e
    · rintro rfl; exact absurd this h

/-- The text scan stops at the first zero byte (rule R147). -/
theorem textLength_eq_some {l : List Byte} {k : Nat} :
    textLength l = some k ↔
      ∃ text rest, l = text ++ 0 :: rest ∧ text.length = k ∧ ∀ b ∈ text, b ≠ 0 := by
  induction l generalizing k with
  | nil => simp [textLength]
  | cons b l ih =>
    unfold textLength
    by_cases hb : b = 0
    · subst hb
      simp only [if_true, Option.some.injEq]
      constructor
      · rintro rfl; exact ⟨[], l, rfl, rfl, by simp⟩
      · rintro ⟨text, rest, hl, hk, hz⟩
        cases text with
        | nil => simpa using hk
        | cons c text => exact absurd (by simpa using (List.cons.inj hl).1.symm) (hz c (by simp))
    · simp only [if_neg hb, Option.map_eq_some_iff]
      constructor
      · rintro ⟨k', hk', rfl⟩
        obtain ⟨text, rest, rfl, rfl, hz⟩ := ih.mp hk'
        refine ⟨b :: text, rest, rfl, rfl, ?_⟩
        intro c hc
        rcases List.mem_cons.mp hc with rfl | hc
        · exact hb
        · exact hz c hc
      · rintro ⟨text, rest, hl, hk, hz⟩
        cases text with
        | nil => exact absurd (List.cons.inj hl).1 hb
        | cons c text =>
          obtain ⟨rfl, rfl⟩ := List.cons.inj hl
          exact ⟨text.length, ih.mpr ⟨text, rest, rfl, rfl, fun d hd => hz d (by simp [hd])⟩,
            by simpa using hk⟩

/-! ## Commands -/

theorem opcode_of_toNat {b : Byte} {n : Nat} (h : b.toNat = n) : b = BitVec.ofNat 8 n := by
  subst h; simp

/-- What an opcode and its operands stand for: an instruction of fixed length that encodes to just them, or one of
the formats whose length depends on the operands (rules R112, R120). -/
theorem ofOpcode_some {op : Byte} {args : List Byte} {i : Instr} (h : ofOpcode op args = some i) :
    (∃ n, formatOf op = some (.fix n) ∧ i.level = .command ∧ encode i = op :: args ∧
      ∀ cfg, i.wellFormed cfg = true) ∨
    (∃ count data, op = 0x32 ∧ args = count :: data ∧ i = .output1 data) ∨
    (∃ count data, op = 0x33 ∧ args = count :: data ∧ i = .anlout data) ∨
    (∃ count data, op = 0x34 ∧ args = count :: data ∧ i = .charout data) ∨
    (op = 0x15 ∧ i = .mainid args.dropLast) ∨
    (op = 0x70 ∧ i = .vendor args) := by
  unfold ofOpcode at h
  split at h
  all_goals first | (cases h; done) | skip
  all_goals
    rename_i hop
    obtain rfl := opcode_of_toNat hop
    first
    | (unfold operands0 at h; split at h <;> cases h; exact .inl ⟨_, rfl, rfl, rfl, fun _ => rfl⟩)
    | (unfold operands1 at h; split at h <;> cases h; exact .inl ⟨_, rfl, rfl, rfl, fun _ => rfl⟩)
    | (unfold operands2 at h; split at h <;> cases h; exact .inl ⟨_, rfl, rfl, rfl, fun _ => rfl⟩)
    | (unfold operands3 at h; split at h <;> cases h; exact .inl ⟨_, rfl, rfl, rfl, fun _ => rfl⟩)
    | (unfold operandsCounted at h; split at h <;> cases h; simp)
    | (cases h; simp)

/-- The bytes of a command stand for that command. -/
theorem ofBytes_encode {i : Instr} (h : i.level = .command) : ofBytes (encode i) = some i := by
  cases i <;> first | (cases h; done) | (simp [encode, ofBytes, ofOpcode, operandsCounted]; done) | rfl

end Sys2Proof.Machine
end

