-- ==== Sys2Proof/Laws/State.lean ====
section
/-! SUPPORT. One lemma per field per update: what each shared operation leaves in each field of the state. Every
one holds by `rfl`, so that no later proof unfolds a record update. -/

namespace Sys2Proof.Machine

/-! ## `emitAll` -/

@[simp] theorem emitAll_cfg (es : List PortEvent) (s : State) :
    (emitAll es s).cfg = s.cfg := rfl
@[simp] theorem emitAll_rxb (es : List PortEvent) (s : State) :
    (emitAll es s).rxb = s.rxb := rfl
@[simp] theorem emitAll_rxw (es : List PortEvent) (s : State) :
    (emitAll es s).rxw = s.rxw := rfl
@[simp] theorem emitAll_rxr (es : List PortEvent) (s : State) :
    (emitAll es s).rxr = s.rxr := rfl
@[simp] theorem emitAll_fFraming (es : List PortEvent) (s : State) :
    (emitAll es s).fFraming = s.fFraming := rfl
@[simp] theorem emitAll_fEsc (es : List PortEvent) (s : State) :
    (emitAll es s).fEsc = s.fEsc := rfl
@[simp] theorem emitAll_fComplete (es : List PortEvent) (s : State) :
    (emitAll es s).fComplete = s.fComplete := rfl
@[simp] theorem emitAll_fSumerr (es : List PortEvent) (s : State) :
    (emitAll es s).fSumerr = s.fSumerr := rfl
@[simp] theorem emitAll_dsrSnap (es : List PortEvent) (s : State) :
    (emitAll es s).dsrSnap = s.dsrSnap := rfl
@[simp] theorem emitAll_txr (es : List PortEvent) (s : State) :
    (emitAll es s).txr = s.txr := rfl
@[simp] theorem emitAll_txn (es : List PortEvent) (s : State) :
    (emitAll es s).txn = s.txn := rfl
@[simp] theorem emitAll_txlast (es : List PortEvent) (s : State) :
    (emitAll es s).txlast = s.txlast := rfl
@[simp] theorem emitAll_fTxovf (es : List PortEvent) (s : State) :
    (emitAll es s).fTxovf = s.fTxovf := rfl
@[simp] theorem emitAll_atab (es : List PortEvent) (s : State) :
    (emitAll es s).atab = s.atab := rfl
@[simp] theorem emitAll_newaddr (es : List PortEvent) (s : State) :
    (emitAll es s).newaddr = s.newaddr := rfl
@[simp] theorem emitAll_commMode (es : List PortEvent) (s : State) :
    (emitAll es s).commMode = s.commMode := rfl
@[simp] theorem emitAll_hs (es : List PortEvent) (s : State) :
    (emitAll es s).hs = s.hs := rfl
@[simp] theorem emitAll_ht0 (es : List PortEvent) (s : State) :
    (emitAll es s).ht0 = s.ht0 := rfl
@[simp] theorem emitAll_hdev (es : List PortEvent) (s : State) :
    (emitAll es s).hdev = s.hdev := rfl
@[simp] theorem emitAll_htgt (es : List PortEvent) (s : State) :
    (emitAll es s).htgt = s.htgt := rfl
@[simp] theorem emitAll_hplayers (es : List PortEvent) (s : State) :
    (emitAll es s).hplayers = s.hplayers := rfl
@[simp] theorem emitAll_hbuttons (es : List PortEvent) (s : State) :
    (emitAll es s).hbuttons = s.hbuttons := rfl
@[simp] theorem emitAll_hcoinslots (es : List PortEvent) (s : State) :
    (emitAll es s).hcoinslots = s.hcoinslots := rfl
@[simp] theorem emitAll_htotal (es : List PortEvent) (s : State) :
    (emitAll es s).htotal = s.htotal := rfl
@[simp] theorem emitAll_hsw0 (es : List PortEvent) (s : State) :
    (emitAll es s).hsw0 = s.hsw0 := rfl
@[simp] theorem emitAll_hsw1 (es : List PortEvent) (s : State) :
    (emitAll es s).hsw1 = s.hsw1 := rfl
@[simp] theorem emitAll_hcoin (es : List PortEvent) (s : State) :
    (emitAll es s).hcoin = s.hcoin := rfl
@[simp] theorem emitAll_chanRx (es : List PortEvent) (s : State) :
    (emitAll es s).chanRx = s.chanRx := rfl
@[simp] theorem emitAll_connectedIn (es : List PortEvent) (s : State) :
    (emitAll es s).connectedIn = s.connectedIn := rfl
@[simp] theorem emitAll_readyIn (es : List PortEvent) (s : State) :
    (emitAll es s).readyIn = s.readyIn := rfl
@[simp] theorem emitAll_downstreamReady (es : List PortEvent) (s : State) :
    (emitAll es s).downstreamReady = s.downstreamReady := rfl
@[simp] theorem emitAll_tick (es : List PortEvent) (s : State) :
    (emitAll es s).tick = s.tick := rfl
@[simp] theorem emitAll_speedYes (es : List PortEvent) (s : State) :
    (emitAll es s).speedYes = s.speedYes := rfl
@[simp] theorem emitAll_phase (es : List PortEvent) (s : State) :
    (emitAll es s).phase = s.phase := rfl
@[simp] theorem emitAll_inputs (es : List PortEvent) (s : State) :
    (emitAll es s).inputs = s.inputs := rfl
@[simp] theorem emitAll_trace (es : List PortEvent) (s : State) :
    (emitAll es s).trace = s.trace ++ es := rfl
@[simp] theorem emitAll_freeCount (es : List PortEvent) (s : State) :
    (emitAll es s).freeCount = s.freeCount := rfl

/-! ## `emit` -/

@[simp] theorem emit_cfg (e : PortEvent) (s : State) :
    (emit e s).cfg = s.cfg := rfl
@[simp] theorem emit_rxb (e : PortEvent) (s : State) :
    (emit e s).rxb = s.rxb := rfl
@[simp] theorem emit_rxw (e : PortEvent) (s : State) :
    (emit e s).rxw = s.rxw := rfl
@[simp] theorem emit_rxr (e : PortEvent) (s : State) :
    (emit e s).rxr = s.rxr := rfl
@[simp] theorem emit_fFraming (e : PortEvent) (s : State) :
    (emit e s).fFraming = s.fFraming := rfl
@[simp] theorem emit_fEsc (e : PortEvent) (s : State) :
    (emit e s).fEsc = s.fEsc := rfl
@[simp] theorem emit_fComplete (e : PortEvent) (s : State) :
    (emit e s).fComplete = s.fComplete := rfl
@[simp] theorem emit_fSumerr (e : PortEvent) (s : State) :
    (emit e s).fSumerr = s.fSumerr := rfl
@[simp] theorem emit_dsrSnap (e : PortEvent) (s : State) :
    (emit e s).dsrSnap = s.dsrSnap := rfl
@[simp] theorem emit_txr (e : PortEvent) (s : State) :
    (emit e s).txr = s.txr := rfl
@[simp] theorem emit_txn (e : PortEvent) (s : State) :
    (emit e s).txn = s.txn := rfl
@[simp] theorem emit_txlast (e : PortEvent) (s : State) :
    (emit e s).txlast = s.txlast := rfl
@[simp] theorem emit_fTxovf (e : PortEvent) (s : State) :
    (emit e s).fTxovf = s.fTxovf := rfl
@[simp] theorem emit_atab (e : PortEvent) (s : State) :
    (emit e s).atab = s.atab := rfl
@[simp] theorem emit_newaddr (e : PortEvent) (s : State) :
    (emit e s).newaddr = s.newaddr := rfl
@[simp] theorem emit_commMode (e : PortEvent) (s : State) :
    (emit e s).commMode = s.commMode := rfl
@[simp] theorem emit_hs (e : PortEvent) (s : State) :
    (emit e s).hs = s.hs := rfl
@[simp] theorem emit_ht0 (e : PortEvent) (s : State) :
    (emit e s).ht0 = s.ht0 := rfl
@[simp] theorem emit_hdev (e : PortEvent) (s : State) :
    (emit e s).hdev = s.hdev := rfl
@[simp] theorem emit_htgt (e : PortEvent) (s : State) :
    (emit e s).htgt = s.htgt := rfl
@[simp] theorem emit_hplayers (e : PortEvent) (s : State) :
    (emit e s).hplayers = s.hplayers := rfl
@[simp] theorem emit_hbuttons (e : PortEvent) (s : State) :
    (emit e s).hbuttons = s.hbuttons := rfl
@[simp] theorem emit_hcoinslots (e : PortEvent) (s : State) :
    (emit e s).hcoinslots = s.hcoinslots := rfl
@[simp] theorem emit_htotal (e : PortEvent) (s : State) :
    (emit e s).htotal = s.htotal := rfl
@[simp] theorem emit_hsw0 (e : PortEvent) (s : State) :
    (emit e s).hsw0 = s.hsw0 := rfl
@[simp] theorem emit_hsw1 (e : PortEvent) (s : State) :
    (emit e s).hsw1 = s.hsw1 := rfl
@[simp] theorem emit_hcoin (e : PortEvent) (s : State) :
    (emit e s).hcoin = s.hcoin := rfl
@[simp] theorem emit_chanRx (e : PortEvent) (s : State) :
    (emit e s).chanRx = s.chanRx := rfl
@[simp] theorem emit_connectedIn (e : PortEvent) (s : State) :
    (emit e s).connectedIn = s.connectedIn := rfl
@[simp] theorem emit_readyIn (e : PortEvent) (s : State) :
    (emit e s).readyIn = s.readyIn := rfl
@[simp] theorem emit_downstreamReady (e : PortEvent) (s : State) :
    (emit e s).downstreamReady = s.downstreamReady := rfl
@[simp] theorem emit_tick (e : PortEvent) (s : State) :
    (emit e s).tick = s.tick := rfl
@[simp] theorem emit_speedYes (e : PortEvent) (s : State) :
    (emit e s).speedYes = s.speedYes := rfl
@[simp] theorem emit_phase (e : PortEvent) (s : State) :
    (emit e s).phase = s.phase := rfl
@[simp] theorem emit_inputs (e : PortEvent) (s : State) :
    (emit e s).inputs = s.inputs := rfl
@[simp] theorem emit_trace (e : PortEvent) (s : State) :
    (emit e s).trace = s.trace ++ [e] := rfl
@[simp] theorem emit_freeCount (e : PortEvent) (s : State) :
    (emit e s).freeCount = s.freeCount := rfl

/-! ## `finish` -/

@[simp] theorem finish_cfg (r : Result) (s : State) :
    (finish r s).cfg = s.cfg := rfl
@[simp] theorem finish_rxb (r : Result) (s : State) :
    (finish r s).rxb = s.rxb := rfl
@[simp] theorem finish_rxw (r : Result) (s : State) :
    (finish r s).rxw = s.rxw := rfl
@[simp] theorem finish_rxr (r : Result) (s : State) :
    (finish r s).rxr = s.rxr := rfl
@[simp] theorem finish_fFraming (r : Result) (s : State) :
    (finish r s).fFraming = s.fFraming := rfl
@[simp] theorem finish_fEsc (r : Result) (s : State) :
    (finish r s).fEsc = s.fEsc := rfl
@[simp] theorem finish_fComplete (r : Result) (s : State) :
    (finish r s).fComplete = s.fComplete := rfl
@[simp] theorem finish_fSumerr (r : Result) (s : State) :
    (finish r s).fSumerr = s.fSumerr := rfl
@[simp] theorem finish_dsrSnap (r : Result) (s : State) :
    (finish r s).dsrSnap = s.dsrSnap := rfl
@[simp] theorem finish_txr (r : Result) (s : State) :
    (finish r s).txr = s.txr := rfl
@[simp] theorem finish_txn (r : Result) (s : State) :
    (finish r s).txn = s.txn := rfl
@[simp] theorem finish_txlast (r : Result) (s : State) :
    (finish r s).txlast = s.txlast := rfl
@[simp] theorem finish_fTxovf (r : Result) (s : State) :
    (finish r s).fTxovf = s.fTxovf := rfl
@[simp] theorem finish_atab (r : Result) (s : State) :
    (finish r s).atab = s.atab := rfl
@[simp] theorem finish_newaddr (r : Result) (s : State) :
    (finish r s).newaddr = s.newaddr := rfl
@[simp] theorem finish_commMode (r : Result) (s : State) :
    (finish r s).commMode = s.commMode := rfl
@[simp] theorem finish_hs (r : Result) (s : State) :
    (finish r s).hs = s.hs := rfl
@[simp] theorem finish_ht0 (r : Result) (s : State) :
    (finish r s).ht0 = s.ht0 := rfl
@[simp] theorem finish_hdev (r : Result) (s : State) :
    (finish r s).hdev = s.hdev := rfl
@[simp] theorem finish_htgt (r : Result) (s : State) :
    (finish r s).htgt = s.htgt := rfl
@[simp] theorem finish_hplayers (r : Result) (s : State) :
    (finish r s).hplayers = s.hplayers := rfl
@[simp] theorem finish_hbuttons (r : Result) (s : State) :
    (finish r s).hbuttons = s.hbuttons := rfl
@[simp] theorem finish_hcoinslots (r : Result) (s : State) :
    (finish r s).hcoinslots = s.hcoinslots := rfl
@[simp] theorem finish_htotal (r : Result) (s : State) :
    (finish r s).htotal = s.htotal := rfl
@[simp] theorem finish_hsw0 (r : Result) (s : State) :
    (finish r s).hsw0 = s.hsw0 := rfl
@[simp] theorem finish_hsw1 (r : Result) (s : State) :
    (finish r s).hsw1 = s.hsw1 := rfl
@[simp] theorem finish_hcoin (r : Result) (s : State) :
    (finish r s).hcoin = s.hcoin := rfl
@[simp] theorem finish_chanRx (r : Result) (s : State) :
    (finish r s).chanRx = s.chanRx := rfl
@[simp] theorem finish_connectedIn (r : Result) (s : State) :
    (finish r s).connectedIn = s.connectedIn := rfl
@[simp] theorem finish_readyIn (r : Result) (s : State) :
    (finish r s).readyIn = s.readyIn := rfl
@[simp] theorem finish_downstreamReady (r : Result) (s : State) :
    (finish r s).downstreamReady = s.downstreamReady := rfl
@[simp] theorem finish_tick (r : Result) (s : State) :
    (finish r s).tick = s.tick := rfl
@[simp] theorem finish_speedYes (r : Result) (s : State) :
    (finish r s).speedYes = s.speedYes := rfl
@[simp] theorem finish_phase (r : Result) (s : State) :
    (finish r s).phase = .idle := rfl
@[simp] theorem finish_inputs (r : Result) (s : State) :
    (finish r s).inputs = s.inputs := rfl
@[simp] theorem finish_trace (r : Result) (s : State) :
    (finish r s).trace = s.trace ++ [.returned r] := rfl
@[simp] theorem finish_freeCount (r : Result) (s : State) :
    (finish r s).freeCount = s.freeCount := rfl

/-! ## `rxReset` -/

@[simp] theorem rxReset_cfg (s : State) :
    (rxReset s).cfg = s.cfg := rfl
@[simp] theorem rxReset_rxb (s : State) :
    (rxReset s).rxb = s.rxb := rfl
@[simp] theorem rxReset_rxw (s : State) :
    (rxReset s).rxw = 0 := rfl
@[simp] theorem rxReset_rxr (s : State) :
    (rxReset s).rxr = 2 := rfl
@[simp] theorem rxReset_fFraming (s : State) :
    (rxReset s).fFraming = false := rfl
@[simp] theorem rxReset_fEsc (s : State) :
    (rxReset s).fEsc = false := rfl
@[simp] theorem rxReset_fComplete (s : State) :
    (rxReset s).fComplete = false := rfl
@[simp] theorem rxReset_fSumerr (s : State) :
    (rxReset s).fSumerr = false := rfl
@[simp] theorem rxReset_dsrSnap (s : State) :
    (rxReset s).dsrSnap = s.dsrSnap := rfl
@[simp] theorem rxReset_txr (s : State) :
    (rxReset s).txr = s.txr := rfl
@[simp] theorem rxReset_txn (s : State) :
    (rxReset s).txn = s.txn := rfl
@[simp] theorem rxReset_txlast (s : State) :
    (rxReset s).txlast = s.txlast := rfl
@[simp] theorem rxReset_fTxovf (s : State) :
    (rxReset s).fTxovf = s.fTxovf := rfl
@[simp] theorem rxReset_atab (s : State) :
    (rxReset s).atab = s.atab := rfl
@[simp] theorem rxReset_newaddr (s : State) :
    (rxReset s).newaddr = s.newaddr := rfl
@[simp] theorem rxReset_commMode (s : State) :
    (rxReset s).commMode = s.commMode := rfl
@[simp] theorem rxReset_hs (s : State) :
    (rxReset s).hs = s.hs := rfl
@[simp] theorem rxReset_ht0 (s : State) :
    (rxReset s).ht0 = s.ht0 := rfl
@[simp] theorem rxReset_hdev (s : State) :
    (rxReset s).hdev = s.hdev := rfl
@[simp] theorem rxReset_htgt (s : State) :
    (rxReset s).htgt = s.htgt := rfl
@[simp] theorem rxReset_hplayers (s : State) :
    (rxReset s).hplayers = s.hplayers := rfl
@[simp] theorem rxReset_hbuttons (s : State) :
    (rxReset s).hbuttons = s.hbuttons := rfl
@[simp] theorem rxReset_hcoinslots (s : State) :
    (rxReset s).hcoinslots = s.hcoinslots := rfl
@[simp] theorem rxReset_htotal (s : State) :
    (rxReset s).htotal = s.htotal := rfl
@[simp] theorem rxReset_hsw0 (s : State) :
    (rxReset s).hsw0 = s.hsw0 := rfl
@[simp] theorem rxReset_hsw1 (s : State) :
    (rxReset s).hsw1 = s.hsw1 := rfl
@[simp] theorem rxReset_hcoin (s : State) :
    (rxReset s).hcoin = s.hcoin := rfl
@[simp] theorem rxReset_chanRx (s : State) :
    (rxReset s).chanRx = s.chanRx := rfl
@[simp] theorem rxReset_connectedIn (s : State) :
    (rxReset s).connectedIn = s.connectedIn := rfl
@[simp] theorem rxReset_readyIn (s : State) :
    (rxReset s).readyIn = s.readyIn := rfl
@[simp] theorem rxReset_downstreamReady (s : State) :
    (rxReset s).downstreamReady = s.downstreamReady := rfl
@[simp] theorem rxReset_tick (s : State) :
    (rxReset s).tick = s.tick := rfl
@[simp] theorem rxReset_speedYes (s : State) :
    (rxReset s).speedYes = s.speedYes := rfl
@[simp] theorem rxReset_phase (s : State) :
    (rxReset s).phase = s.phase := rfl
@[simp] theorem rxReset_inputs (s : State) :
    (rxReset s).inputs = s.inputs := rfl
@[simp] theorem rxReset_trace (s : State) :
    (rxReset s).trace = s.trace := rfl
@[simp] theorem rxReset_freeCount (s : State) :
    (rxReset s).freeCount = s.freeCount := rfl

/-! ## `frameClear` -/

@[simp] theorem frameClear_cfg (s : State) :
    (frameClear s).cfg = s.cfg := rfl
@[simp] theorem frameClear_rxb (s : State) :
    (frameClear s).rxb = s.rxb := rfl
@[simp] theorem frameClear_rxw (s : State) :
    (frameClear s).rxw = 0 := rfl
@[simp] theorem frameClear_rxr (s : State) :
    (frameClear s).rxr = 2 := rfl
@[simp] theorem frameClear_fFraming (s : State) :
    (frameClear s).fFraming = false := rfl
@[simp] theorem frameClear_fEsc (s : State) :
    (frameClear s).fEsc = false := rfl
@[simp] theorem frameClear_fComplete (s : State) :
    (frameClear s).fComplete = false := rfl
@[simp] theorem frameClear_fSumerr (s : State) :
    (frameClear s).fSumerr = false := rfl
@[simp] theorem frameClear_dsrSnap (s : State) :
    (frameClear s).dsrSnap = s.dsrSnap := rfl
@[simp] theorem frameClear_txr (s : State) :
    (frameClear s).txr = s.txr := rfl
@[simp] theorem frameClear_txn (s : State) :
    (frameClear s).txn = (if s.cfg.role = .node then 0 else s.txn) := rfl
@[simp] theorem frameClear_txlast (s : State) :
    (frameClear s).txlast = s.txlast := rfl
@[simp] theorem frameClear_fTxovf (s : State) :
    (frameClear s).fTxovf = (if s.cfg.role = .node then false else s.fTxovf) := rfl
@[simp] theorem frameClear_atab (s : State) :
    (frameClear s).atab = s.atab := rfl
@[simp] theorem frameClear_newaddr (s : State) :
    (frameClear s).newaddr = (if s.cfg.role = .node then addrBcast else s.newaddr) := rfl
@[simp] theorem frameClear_commMode (s : State) :
    (frameClear s).commMode = s.commMode := rfl
@[simp] theorem frameClear_hs (s : State) :
    (frameClear s).hs = s.hs := rfl
@[simp] theorem frameClear_ht0 (s : State) :
    (frameClear s).ht0 = s.ht0 := rfl
@[simp] theorem frameClear_hdev (s : State) :
    (frameClear s).hdev = s.hdev := rfl
@[simp] theorem frameClear_htgt (s : State) :
    (frameClear s).htgt = s.htgt := rfl
@[simp] theorem frameClear_hplayers (s : State) :
    (frameClear s).hplayers = s.hplayers := rfl
@[simp] theorem frameClear_hbuttons (s : State) :
    (frameClear s).hbuttons = s.hbuttons := rfl
@[simp] theorem frameClear_hcoinslots (s : State) :
    (frameClear s).hcoinslots = s.hcoinslots := rfl
@[simp] theorem frameClear_htotal (s : State) :
    (frameClear s).htotal = s.htotal := rfl
@[simp] theorem frameClear_hsw0 (s : State) :
    (frameClear s).hsw0 = s.hsw0 := rfl
@[simp] theorem frameClear_hsw1 (s : State) :
    (frameClear s).hsw1 = s.hsw1 := rfl
@[simp] theorem frameClear_hcoin (s : State) :
    (frameClear s).hcoin = s.hcoin := rfl
@[simp] theorem frameClear_chanRx (s : State) :
    (frameClear s).chanRx = s.chanRx := rfl
@[simp] theorem frameClear_connectedIn (s : State) :
    (frameClear s).connectedIn = s.connectedIn := rfl
@[simp] theorem frameClear_readyIn (s : State) :
    (frameClear s).readyIn = s.readyIn := rfl
@[simp] theorem frameClear_downstreamReady (s : State) :
    (frameClear s).downstreamReady = s.downstreamReady := rfl
@[simp] theorem frameClear_tick (s : State) :
    (frameClear s).tick = s.tick := rfl
@[simp] theorem frameClear_speedYes (s : State) :
    (frameClear s).speedYes = s.speedYes := rfl
@[simp] theorem frameClear_phase (s : State) :
    (frameClear s).phase = s.phase := rfl
@[simp] theorem frameClear_inputs (s : State) :
    (frameClear s).inputs = s.inputs := rfl
@[simp] theorem frameClear_trace (s : State) :
    (frameClear s).trace = s.trace := rfl
@[simp] theorem frameClear_freeCount (s : State) :
    (frameClear s).freeCount = s.freeCount := rfl

/-! ## `fcTransmit` -/

@[simp] theorem fcTransmit_cfg (p : List Byte) (s : State) :
    (fcTransmit p s).cfg = s.cfg := rfl
@[simp] theorem fcTransmit_rxb (p : List Byte) (s : State) :
    (fcTransmit p s).rxb = s.rxb := rfl
@[simp] theorem fcTransmit_rxw (p : List Byte) (s : State) :
    (fcTransmit p s).rxw = s.rxw := rfl
@[simp] theorem fcTransmit_rxr (p : List Byte) (s : State) :
    (fcTransmit p s).rxr = s.rxr := rfl
@[simp] theorem fcTransmit_fFraming (p : List Byte) (s : State) :
    (fcTransmit p s).fFraming = s.fFraming := rfl
@[simp] theorem fcTransmit_fEsc (p : List Byte) (s : State) :
    (fcTransmit p s).fEsc = s.fEsc := rfl
@[simp] theorem fcTransmit_fComplete (p : List Byte) (s : State) :
    (fcTransmit p s).fComplete = s.fComplete := rfl
@[simp] theorem fcTransmit_fSumerr (p : List Byte) (s : State) :
    (fcTransmit p s).fSumerr = s.fSumerr := rfl
@[simp] theorem fcTransmit_dsrSnap (p : List Byte) (s : State) :
    (fcTransmit p s).dsrSnap = s.dsrSnap := rfl
@[simp] theorem fcTransmit_txr (p : List Byte) (s : State) :
    (fcTransmit p s).txr = s.txr := rfl
@[simp] theorem fcTransmit_txn (p : List Byte) (s : State) :
    (fcTransmit p s).txn = s.txn := rfl
@[simp] theorem fcTransmit_txlast (p : List Byte) (s : State) :
    (fcTransmit p s).txlast = s.txlast := rfl
@[simp] theorem fcTransmit_fTxovf (p : List Byte) (s : State) :
    (fcTransmit p s).fTxovf = s.fTxovf := rfl
@[simp] theorem fcTransmit_atab (p : List Byte) (s : State) :
    (fcTransmit p s).atab = s.atab := rfl
@[simp] theorem fcTransmit_newaddr (p : List Byte) (s : State) :
    (fcTransmit p s).newaddr = s.newaddr := rfl
@[simp] theorem fcTransmit_commMode (p : List Byte) (s : State) :
    (fcTransmit p s).commMode = s.commMode := rfl
@[simp] theorem fcTransmit_hs (p : List Byte) (s : State) :
    (fcTransmit p s).hs = s.hs := rfl
@[simp] theorem fcTransmit_ht0 (p : List Byte) (s : State) :
    (fcTransmit p s).ht0 = s.ht0 := rfl
@[simp] theorem fcTransmit_hdev (p : List Byte) (s : State) :
    (fcTransmit p s).hdev = s.hdev := rfl
@[simp] theorem fcTransmit_htgt (p : List Byte) (s : State) :
    (fcTransmit p s).htgt = s.htgt := rfl
@[simp] theorem fcTransmit_hplayers (p : List Byte) (s : State) :
    (fcTransmit p s).hplayers = s.hplayers := rfl
@[simp] theorem fcTransmit_hbuttons (p : List Byte) (s : State) :
    (fcTransmit p s).hbuttons = s.hbuttons := rfl
@[simp] theorem fcTransmit_hcoinslots (p : List Byte) (s : State) :
    (fcTransmit p s).hcoinslots = s.hcoinslots := rfl
@[simp] theorem fcTransmit_htotal (p : List Byte) (s : State) :
    (fcTransmit p s).htotal = s.htotal := rfl
@[simp] theorem fcTransmit_hsw0 (p : List Byte) (s : State) :
    (fcTransmit p s).hsw0 = s.hsw0 := rfl
@[simp] theorem fcTransmit_hsw1 (p : List Byte) (s : State) :
    (fcTransmit p s).hsw1 = s.hsw1 := rfl
@[simp] theorem fcTransmit_hcoin (p : List Byte) (s : State) :
    (fcTransmit p s).hcoin = s.hcoin := rfl
@[simp] theorem fcTransmit_chanRx (p : List Byte) (s : State) :
    (fcTransmit p s).chanRx = s.chanRx := rfl
@[simp] theorem fcTransmit_connectedIn (p : List Byte) (s : State) :
    (fcTransmit p s).connectedIn = s.connectedIn := rfl
@[simp] theorem fcTransmit_readyIn (p : List Byte) (s : State) :
    (fcTransmit p s).readyIn = s.readyIn := rfl
@[simp] theorem fcTransmit_downstreamReady (p : List Byte) (s : State) :
    (fcTransmit p s).downstreamReady = s.downstreamReady := rfl
@[simp] theorem fcTransmit_tick (p : List Byte) (s : State) :
    (fcTransmit p s).tick = s.tick := rfl
@[simp] theorem fcTransmit_speedYes (p : List Byte) (s : State) :
    (fcTransmit p s).speedYes = s.speedYes := rfl
@[simp] theorem fcTransmit_phase (p : List Byte) (s : State) :
    (fcTransmit p s).phase = s.phase := rfl
@[simp] theorem fcTransmit_inputs (p : List Byte) (s : State) :
    (fcTransmit p s).inputs = s.inputs := rfl
@[simp] theorem fcTransmit_trace (p : List Byte) (s : State) :
    (fcTransmit p s).trace = s.trace ++ transmitEvents p := rfl
@[simp] theorem fcTransmit_freeCount (p : List Byte) (s : State) :
    (fcTransmit p s).freeCount = s.freeCount := rfl

/-! ## `neTransmit` -/

@[simp] theorem neTransmit_cfg (p : List Byte) (s : State) :
    (neTransmit p s).cfg = s.cfg := rfl
@[simp] theorem neTransmit_rxb (p : List Byte) (s : State) :
    (neTransmit p s).rxb = s.rxb := rfl
@[simp] theorem neTransmit_rxw (p : List Byte) (s : State) :
    (neTransmit p s).rxw = s.rxw := rfl
@[simp] theorem neTransmit_rxr (p : List Byte) (s : State) :
    (neTransmit p s).rxr = s.rxr := rfl
@[simp] theorem neTransmit_fFraming (p : List Byte) (s : State) :
    (neTransmit p s).fFraming = s.fFraming := rfl
@[simp] theorem neTransmit_fEsc (p : List Byte) (s : State) :
    (neTransmit p s).fEsc = s.fEsc := rfl
@[simp] theorem neTransmit_fComplete (p : List Byte) (s : State) :
    (neTransmit p s).fComplete = s.fComplete := rfl
@[simp] theorem neTransmit_fSumerr (p : List Byte) (s : State) :
    (neTransmit p s).fSumerr = s.fSumerr := rfl
@[simp] theorem neTransmit_dsrSnap (p : List Byte) (s : State) :
    (neTransmit p s).dsrSnap = s.dsrSnap := rfl
@[simp] theorem neTransmit_txr (p : List Byte) (s : State) :
    (neTransmit p s).txr = s.txr := rfl
@[simp] theorem neTransmit_txn (p : List Byte) (s : State) :
    (neTransmit p s).txn = s.txn := rfl
@[simp] theorem neTransmit_txlast (p : List Byte) (s : State) :
    (neTransmit p s).txlast = s.txlast := rfl
@[simp] theorem neTransmit_fTxovf (p : List Byte) (s : State) :
    (neTransmit p s).fTxovf = s.fTxovf := rfl
@[simp] theorem neTransmit_atab (p : List Byte) (s : State) :
    (neTransmit p s).atab = s.atab := rfl
@[simp] theorem neTransmit_newaddr (p : List Byte) (s : State) :
    (neTransmit p s).newaddr = s.newaddr := rfl
@[simp] theorem neTransmit_commMode (p : List Byte) (s : State) :
    (neTransmit p s).commMode = s.commMode := rfl
@[simp] theorem neTransmit_hs (p : List Byte) (s : State) :
    (neTransmit p s).hs = s.hs := rfl
@[simp] theorem neTransmit_ht0 (p : List Byte) (s : State) :
    (neTransmit p s).ht0 = s.ht0 := rfl
@[simp] theorem neTransmit_hdev (p : List Byte) (s : State) :
    (neTransmit p s).hdev = s.hdev := rfl
@[simp] theorem neTransmit_htgt (p : List Byte) (s : State) :
    (neTransmit p s).htgt = s.htgt := rfl
@[simp] theorem neTransmit_hplayers (p : List Byte) (s : State) :
    (neTransmit p s).hplayers = s.hplayers := rfl
@[simp] theorem neTransmit_hbuttons (p : List Byte) (s : State) :
    (neTransmit p s).hbuttons = s.hbuttons := rfl
@[simp] theorem neTransmit_hcoinslots (p : List Byte) (s : State) :
    (neTransmit p s).hcoinslots = s.hcoinslots := rfl
@[simp] theorem neTransmit_htotal (p : List Byte) (s : State) :
    (neTransmit p s).htotal = s.htotal := rfl
@[simp] theorem neTransmit_hsw0 (p : List Byte) (s : State) :
    (neTransmit p s).hsw0 = s.hsw0 := rfl
@[simp] theorem neTransmit_hsw1 (p : List Byte) (s : State) :
    (neTransmit p s).hsw1 = s.hsw1 := rfl
@[simp] theorem neTransmit_hcoin (p : List Byte) (s : State) :
    (neTransmit p s).hcoin = s.hcoin := rfl
@[simp] theorem neTransmit_chanRx (p : List Byte) (s : State) :
    (neTransmit p s).chanRx = s.chanRx := rfl
@[simp] theorem neTransmit_connectedIn (p : List Byte) (s : State) :
    (neTransmit p s).connectedIn = s.connectedIn := rfl
@[simp] theorem neTransmit_readyIn (p : List Byte) (s : State) :
    (neTransmit p s).readyIn = s.readyIn := rfl
@[simp] theorem neTransmit_downstreamReady (p : List Byte) (s : State) :
    (neTransmit p s).downstreamReady = s.downstreamReady := rfl
@[simp] theorem neTransmit_tick (p : List Byte) (s : State) :
    (neTransmit p s).tick = s.tick := rfl
@[simp] theorem neTransmit_speedYes (p : List Byte) (s : State) :
    (neTransmit p s).speedYes = s.speedYes := rfl
@[simp] theorem neTransmit_phase (p : List Byte) (s : State) :
    (neTransmit p s).phase = s.phase := rfl
@[simp] theorem neTransmit_inputs (p : List Byte) (s : State) :
    (neTransmit p s).inputs = s.inputs := rfl
@[simp] theorem neTransmit_trace (p : List Byte) (s : State) :
    (neTransmit p s).trace = s.trace ++ nodeTransmitEvents s p := rfl
@[simp] theorem neTransmit_freeCount (p : List Byte) (s : State) :
    (neTransmit p s).freeCount = s.freeCount := rfl

/-! ## `heSend` -/

@[simp] theorem heSend_cfg (a : Byte) (p : Payload) (s : State) :
    (heSend a p s).cfg = s.cfg := rfl
@[simp] theorem heSend_rxb (a : Byte) (p : Payload) (s : State) :
    (heSend a p s).rxb = s.rxb := rfl
@[simp] theorem heSend_rxw (a : Byte) (p : Payload) (s : State) :
    (heSend a p s).rxw = 0 := rfl
@[simp] theorem heSend_rxr (a : Byte) (p : Payload) (s : State) :
    (heSend a p s).rxr = 2 := rfl
@[simp] theorem heSend_fFraming (a : Byte) (p : Payload) (s : State) :
    (heSend a p s).fFraming = false := rfl
@[simp] theorem heSend_fEsc (a : Byte) (p : Payload) (s : State) :
    (heSend a p s).fEsc = false := rfl
@[simp] theorem heSend_fComplete (a : Byte) (p : Payload) (s : State) :
    (heSend a p s).fComplete = false := rfl
@[simp] theorem heSend_fSumerr (a : Byte) (p : Payload) (s : State) :
    (heSend a p s).fSumerr = false := rfl
@[simp] theorem heSend_dsrSnap (a : Byte) (p : Payload) (s : State) :
    (heSend a p s).dsrSnap = s.dsrSnap := rfl
@[simp] theorem heSend_txr (a : Byte) (p : Payload) (s : State) :
    (heSend a p s).txr = s.txr := rfl
@[simp] theorem heSend_txn (a : Byte) (p : Payload) (s : State) :
    (heSend a p s).txn = (if s.cfg.role = .node then 0 else s.txn) := rfl
@[simp] theorem heSend_txlast (a : Byte) (p : Payload) (s : State) :
    (heSend a p s).txlast = s.txlast := rfl
@[simp] theorem heSend_fTxovf (a : Byte) (p : Payload) (s : State) :
    (heSend a p s).fTxovf = (if s.cfg.role = .node then false else s.fTxovf) := rfl
@[simp] theorem heSend_atab (a : Byte) (p : Payload) (s : State) :
    (heSend a p s).atab = s.atab := rfl
@[simp] theorem heSend_newaddr (a : Byte) (p : Payload) (s : State) :
    (heSend a p s).newaddr = (if s.cfg.role = .node then addrBcast else s.newaddr) := rfl
@[simp] theorem heSend_commMode (a : Byte) (p : Payload) (s : State) :
    (heSend a p s).commMode = s.commMode := rfl
@[simp] theorem heSend_hs (a : Byte) (p : Payload) (s : State) :
    (heSend a p s).hs = s.hs := rfl
@[simp] theorem heSend_ht0 (a : Byte) (p : Payload) (s : State) :
    (heSend a p s).ht0 = s.tick := rfl
@[simp] theorem heSend_hdev (a : Byte) (p : Payload) (s : State) :
    (heSend a p s).hdev = s.hdev := rfl
@[simp] theorem heSend_htgt (a : Byte) (p : Payload) (s : State) :
    (heSend a p s).htgt = s.htgt := rfl
@[simp] theorem heSend_hplayers (a : Byte) (p : Payload) (s : State) :
    (heSend a p s).hplayers = s.hplayers := rfl
@[simp] theorem heSend_hbuttons (a : Byte) (p : Payload) (s : State) :
    (heSend a p s).hbuttons = s.hbuttons := rfl
@[simp] theorem heSend_hcoinslots (a : Byte) (p : Payload) (s : State) :
    (heSend a p s).hcoinslots = s.hcoinslots := rfl
@[simp] theorem heSend_htotal (a : Byte) (p : Payload) (s : State) :
    (heSend a p s).htotal = s.htotal := rfl
@[simp] theorem heSend_hsw0 (a : Byte) (p : Payload) (s : State) :
    (heSend a p s).hsw0 = s.hsw0 := rfl
@[simp] theorem heSend_hsw1 (a : Byte) (p : Payload) (s : State) :
    (heSend a p s).hsw1 = s.hsw1 := rfl
@[simp] theorem heSend_hcoin (a : Byte) (p : Payload) (s : State) :
    (heSend a p s).hcoin = s.hcoin := rfl
@[simp] theorem heSend_chanRx (a : Byte) (p : Payload) (s : State) :
    (heSend a p s).chanRx = s.chanRx := rfl
@[simp] theorem heSend_connectedIn (a : Byte) (p : Payload) (s : State) :
    (heSend a p s).connectedIn = s.connectedIn := rfl
@[simp] theorem heSend_readyIn (a : Byte) (p : Payload) (s : State) :
    (heSend a p s).readyIn = s.readyIn := rfl
@[simp] theorem heSend_downstreamReady (a : Byte) (p : Payload) (s : State) :
    (heSend a p s).downstreamReady = s.downstreamReady := rfl
@[simp] theorem heSend_tick (a : Byte) (p : Payload) (s : State) :
    (heSend a p s).tick = s.tick := rfl
@[simp] theorem heSend_speedYes (a : Byte) (p : Payload) (s : State) :
    (heSend a p s).speedYes = s.speedYes := rfl
@[simp] theorem heSend_phase (a : Byte) (p : Payload) (s : State) :
    (heSend a p s).phase = s.phase := rfl
@[simp] theorem heSend_inputs (a : Byte) (p : Payload) (s : State) :
    (heSend a p s).inputs = s.inputs := rfl
@[simp] theorem heSend_trace (a : Byte) (p : Payload) (s : State) :
    (heSend a p s).trace = s.trace ++ transmitEvents (fcPacket a p) := rfl
@[simp] theorem heSend_freeCount (a : Byte) (p : Payload) (s : State) :
    (heSend a p s).freeCount = s.freeCount := rfl

/-! ## `nePush` -/

@[simp] theorem nePush_cfg (b : Byte) (s : State) :
    (nePush b s).cfg = s.cfg := rfl
@[simp] theorem nePush_rxb (b : Byte) (s : State) :
    (nePush b s).rxb = s.rxb := rfl
@[simp] theorem nePush_rxw (b : Byte) (s : State) :
    (nePush b s).rxw = s.rxw := rfl
@[simp] theorem nePush_rxr (b : Byte) (s : State) :
    (nePush b s).rxr = s.rxr := rfl
@[simp] theorem nePush_fFraming (b : Byte) (s : State) :
    (nePush b s).fFraming = s.fFraming := rfl
@[simp] theorem nePush_fEsc (b : Byte) (s : State) :
    (nePush b s).fEsc = s.fEsc := rfl
@[simp] theorem nePush_fComplete (b : Byte) (s : State) :
    (nePush b s).fComplete = s.fComplete := rfl
@[simp] theorem nePush_fSumerr (b : Byte) (s : State) :
    (nePush b s).fSumerr = s.fSumerr := rfl
@[simp] theorem nePush_dsrSnap (b : Byte) (s : State) :
    (nePush b s).dsrSnap = s.dsrSnap := rfl
@[simp] theorem nePush_txr (b : Byte) (s : State) :
    (nePush b s).txr = (if s.fTxovf = false ∧ s.txn.val < txReportCap then s.txr.write s.txn.val b else s.txr) := rfl
@[simp] theorem nePush_txn (b : Byte) (s : State) :
    (nePush b s).txn = (if h : s.fTxovf = false ∧ s.txn.val < 253 then ⟨s.txn.val + 1, by omega⟩ else s.txn) := rfl
@[simp] theorem nePush_txlast (b : Byte) (s : State) :
    (nePush b s).txlast = s.txlast := rfl
@[simp] theorem nePush_fTxovf (b : Byte) (s : State) :
    (nePush b s).fTxovf = (if s.txn.val < txReportCap then s.fTxovf else true) := rfl
@[simp] theorem nePush_atab (b : Byte) (s : State) :
    (nePush b s).atab = s.atab := rfl
@[simp] theorem nePush_newaddr (b : Byte) (s : State) :
    (nePush b s).newaddr = s.newaddr := rfl
@[simp] theorem nePush_commMode (b : Byte) (s : State) :
    (nePush b s).commMode = s.commMode := rfl
@[simp] theorem nePush_hs (b : Byte) (s : State) :
    (nePush b s).hs = s.hs := rfl
@[simp] theorem nePush_ht0 (b : Byte) (s : State) :
    (nePush b s).ht0 = s.ht0 := rfl
@[simp] theorem nePush_hdev (b : Byte) (s : State) :
    (nePush b s).hdev = s.hdev := rfl
@[simp] theorem nePush_htgt (b : Byte) (s : State) :
    (nePush b s).htgt = s.htgt := rfl
@[simp] theorem nePush_hplayers (b : Byte) (s : State) :
    (nePush b s).hplayers = s.hplayers := rfl
@[simp] theorem nePush_hbuttons (b : Byte) (s : State) :
    (nePush b s).hbuttons = s.hbuttons := rfl
@[simp] theorem nePush_hcoinslots (b : Byte) (s : State) :
    (nePush b s).hcoinslots = s.hcoinslots := rfl
@[simp] theorem nePush_htotal (b : Byte) (s : State) :
    (nePush b s).htotal = s.htotal := rfl
@[simp] theorem nePush_hsw0 (b : Byte) (s : State) :
    (nePush b s).hsw0 = s.hsw0 := rfl
@[simp] theorem nePush_hsw1 (b : Byte) (s : State) :
    (nePush b s).hsw1 = s.hsw1 := rfl
@[simp] theorem nePush_hcoin (b : Byte) (s : State) :
    (nePush b s).hcoin = s.hcoin := rfl
@[simp] theorem nePush_chanRx (b : Byte) (s : State) :
    (nePush b s).chanRx = s.chanRx := rfl
@[simp] theorem nePush_connectedIn (b : Byte) (s : State) :
    (nePush b s).connectedIn = s.connectedIn := rfl
@[simp] theorem nePush_readyIn (b : Byte) (s : State) :
    (nePush b s).readyIn = s.readyIn := rfl
@[simp] theorem nePush_downstreamReady (b : Byte) (s : State) :
    (nePush b s).downstreamReady = s.downstreamReady := rfl
@[simp] theorem nePush_tick (b : Byte) (s : State) :
    (nePush b s).tick = s.tick := rfl
@[simp] theorem nePush_speedYes (b : Byte) (s : State) :
    (nePush b s).speedYes = s.speedYes := rfl
@[simp] theorem nePush_phase (b : Byte) (s : State) :
    (nePush b s).phase = s.phase := rfl
@[simp] theorem nePush_inputs (b : Byte) (s : State) :
    (nePush b s).inputs = s.inputs := rfl
@[simp] theorem nePush_trace (b : Byte) (s : State) :
    (nePush b s).trace = s.trace := rfl
@[simp] theorem nePush_freeCount (b : Byte) (s : State) :
    (nePush b s).freeCount = s.freeCount := rfl

/-! ## `neReply` -/

@[simp] theorem neReply_cfg (st : Byte) (s : State) :
    (neReply st s).cfg = s.cfg := rfl
@[simp] theorem neReply_rxb (st : Byte) (s : State) :
    (neReply st s).rxb = s.rxb := rfl
@[simp] theorem neReply_rxw (st : Byte) (s : State) :
    (neReply st s).rxw = s.rxw := rfl
@[simp] theorem neReply_rxr (st : Byte) (s : State) :
    (neReply st s).rxr = s.rxr := rfl
@[simp] theorem neReply_fFraming (st : Byte) (s : State) :
    (neReply st s).fFraming = s.fFraming := rfl
@[simp] theorem neReply_fEsc (st : Byte) (s : State) :
    (neReply st s).fEsc = s.fEsc := rfl
@[simp] theorem neReply_fComplete (st : Byte) (s : State) :
    (neReply st s).fComplete = s.fComplete := rfl
@[simp] theorem neReply_fSumerr (st : Byte) (s : State) :
    (neReply st s).fSumerr = s.fSumerr := rfl
@[simp] theorem neReply_dsrSnap (st : Byte) (s : State) :
    (neReply st s).dsrSnap = s.dsrSnap := rfl
@[simp] theorem neReply_txr (st : Byte) (s : State) :
    (neReply st s).txr = s.txr := rfl
@[simp] theorem neReply_txn (st : Byte) (s : State) :
    (neReply st s).txn = s.txn := rfl
@[simp] theorem neReply_txlast (st : Byte) (s : State) :
    (neReply st s).txlast = some (fcPacket addrHost ⟨[st], by simp⟩) := rfl
@[simp] theorem neReply_fTxovf (st : Byte) (s : State) :
    (neReply st s).fTxovf = s.fTxovf := rfl
@[simp] theorem neReply_atab (st : Byte) (s : State) :
    (neReply st s).atab = s.atab := rfl
@[simp] theorem neReply_newaddr (st : Byte) (s : State) :
    (neReply st s).newaddr = s.newaddr := rfl
@[simp] theorem neReply_commMode (st : Byte) (s : State) :
    (neReply st s).commMode = s.commMode := rfl
@[simp] theorem neReply_hs (st : Byte) (s : State) :
    (neReply st s).hs = s.hs := rfl
@[simp] theorem neReply_ht0 (st : Byte) (s : State) :
    (neReply st s).ht0 = s.ht0 := rfl
@[simp] theorem neReply_hdev (st : Byte) (s : State) :
    (neReply st s).hdev = s.hdev := rfl
@[simp] theorem neReply_htgt (st : Byte) (s : State) :
    (neReply st s).htgt = s.htgt := rfl
@[simp] theorem neReply_hplayers (st : Byte) (s : State) :
    (neReply st s).hplayers = s.hplayers := rfl
@[simp] theorem neReply_hbuttons (st : Byte) (s : State) :
    (neReply st s).hbuttons = s.hbuttons := rfl
@[simp] theorem neReply_hcoinslots (st : Byte) (s : State) :
    (neReply st s).hcoinslots = s.hcoinslots := rfl
@[simp] theorem neReply_htotal (st : Byte) (s : State) :
    (neReply st s).htotal = s.htotal := rfl
@[simp] theorem neReply_hsw0 (st : Byte) (s : State) :
    (neReply st s).hsw0 = s.hsw0 := rfl
@[simp] theorem neReply_hsw1 (st : Byte) (s : State) :
    (neReply st s).hsw1 = s.hsw1 := rfl
@[simp] theorem neReply_hcoin (st : Byte) (s : State) :
    (neReply st s).hcoin = s.hcoin := rfl
@[simp] theorem neReply_chanRx (st : Byte) (s : State) :
    (neReply st s).chanRx = s.chanRx := rfl
@[simp] theorem neReply_connectedIn (st : Byte) (s : State) :
    (neReply st s).connectedIn = s.connectedIn := rfl
@[simp] theorem neReply_readyIn (st : Byte) (s : State) :
    (neReply st s).readyIn = s.readyIn := rfl
@[simp] theorem neReply_downstreamReady (st : Byte) (s : State) :
    (neReply st s).downstreamReady = s.downstreamReady := rfl
@[simp] theorem neReply_tick (st : Byte) (s : State) :
    (neReply st s).tick = s.tick := rfl
@[simp] theorem neReply_speedYes (st : Byte) (s : State) :
    (neReply st s).speedYes = s.speedYes := rfl
@[simp] theorem neReply_phase (st : Byte) (s : State) :
    (neReply st s).phase = s.phase := rfl
@[simp] theorem neReply_inputs (st : Byte) (s : State) :
    (neReply st s).inputs = s.inputs := rfl
@[simp] theorem neReply_trace (st : Byte) (s : State) :
    (neReply st s).trace = s.trace ++ nodeTransmitEvents s (fcPacket addrHost ⟨[st], by simp⟩) := rfl
@[simp] theorem neReply_freeCount (st : Byte) (s : State) :
    (neReply st s).freeCount = s.freeCount := rfl

/-! ## `errorReply` -/

@[simp] theorem errorReply_cfg (st : Byte) (s : State) :
    (errorReply st s).cfg = s.cfg := rfl
@[simp] theorem errorReply_rxb (st : Byte) (s : State) :
    (errorReply st s).rxb = s.rxb := rfl
@[simp] theorem errorReply_rxw (st : Byte) (s : State) :
    (errorReply st s).rxw = 0 := rfl
@[simp] theorem errorReply_rxr (st : Byte) (s : State) :
    (errorReply st s).rxr = 2 := rfl
@[simp] theorem errorReply_fFraming (st : Byte) (s : State) :
    (errorReply st s).fFraming = false := rfl
@[simp] theorem errorReply_fEsc (st : Byte) (s : State) :
    (errorReply st s).fEsc = false := rfl
@[simp] theorem errorReply_fComplete (st : Byte) (s : State) :
    (errorReply st s).fComplete = false := rfl
@[simp] theorem errorReply_fSumerr (st : Byte) (s : State) :
    (errorReply st s).fSumerr = false := rfl
@[simp] theorem errorReply_dsrSnap (st : Byte) (s : State) :
    (errorReply st s).dsrSnap = s.dsrSnap := rfl
@[simp] theorem errorReply_txr (st : Byte) (s : State) :
    (errorReply st s).txr = s.txr := rfl
@[simp] theorem errorReply_txn (st : Byte) (s : State) :
    (errorReply st s).txn = (if s.cfg.role = .node then 0 else s.txn) := rfl
@[simp] theorem errorReply_txlast (st : Byte) (s : State) :
    (errorReply st s).txlast = some (fcPacket addrHost ⟨[st], by simp⟩) := rfl
@[simp] theorem errorReply_fTxovf (st : Byte) (s : State) :
    (errorReply st s).fTxovf = (if s.cfg.role = .node then false else s.fTxovf) := rfl
@[simp] theorem errorReply_atab (st : Byte) (s : State) :
    (errorReply st s).atab = s.atab := rfl
@[simp] theorem errorReply_newaddr (st : Byte) (s : State) :
    (errorReply st s).newaddr = (if s.cfg.role = .node then addrBcast else s.newaddr) := rfl
@[simp] theorem errorReply_commMode (st : Byte) (s : State) :
    (errorReply st s).commMode = s.commMode := rfl
@[simp] theorem errorReply_hs (st : Byte) (s : State) :
    (errorReply st s).hs = s.hs := rfl
@[simp] theorem errorReply_ht0 (st : Byte) (s : State) :
    (errorReply st s).ht0 = s.ht0 := rfl
@[simp] theorem errorReply_hdev (st : Byte) (s : State) :
    (errorReply st s).hdev = s.hdev := rfl
@[simp] theorem errorReply_htgt (st : Byte) (s : State) :
    (errorReply st s).htgt = s.htgt := rfl
@[simp] theorem errorReply_hplayers (st : Byte) (s : State) :
    (errorReply st s).hplayers = s.hplayers := rfl
@[simp] theorem errorReply_hbuttons (st : Byte) (s : State) :
    (errorReply st s).hbuttons = s.hbuttons := rfl
@[simp] theorem errorReply_hcoinslots (st : Byte) (s : State) :
    (errorReply st s).hcoinslots = s.hcoinslots := rfl
@[simp] theorem errorReply_htotal (st : Byte) (s : State) :
    (errorReply st s).htotal = s.htotal := rfl
@[simp] theorem errorReply_hsw0 (st : Byte) (s : State) :
    (errorReply st s).hsw0 = s.hsw0 := rfl
@[simp] theorem errorReply_hsw1 (st : Byte) (s : State) :
    (errorReply st s).hsw1 = s.hsw1 := rfl
@[simp] theorem errorReply_hcoin (st : Byte) (s : State) :
    (errorReply st s).hcoin = s.hcoin := rfl
@[simp] theorem errorReply_chanRx (st : Byte) (s : State) :
    (errorReply st s).chanRx = s.chanRx := rfl
@[simp] theorem errorReply_connectedIn (st : Byte) (s : State) :
    (errorReply st s).connectedIn = s.connectedIn := rfl
@[simp] theorem errorReply_readyIn (st : Byte) (s : State) :
    (errorReply st s).readyIn = s.readyIn := rfl
@[simp] theorem errorReply_downstreamReady (st : Byte) (s : State) :
    (errorReply st s).downstreamReady = s.downstreamReady := rfl
@[simp] theorem errorReply_tick (st : Byte) (s : State) :
    (errorReply st s).tick = s.tick := rfl
@[simp] theorem errorReply_speedYes (st : Byte) (s : State) :
    (errorReply st s).speedYes = s.speedYes := rfl
@[simp] theorem errorReply_phase (st : Byte) (s : State) :
    (errorReply st s).phase = s.phase := rfl
@[simp] theorem errorReply_inputs (st : Byte) (s : State) :
    (errorReply st s).inputs = s.inputs := rfl
@[simp] theorem errorReply_trace (st : Byte) (s : State) :
    (errorReply st s).trace = s.trace ++ nodeTransmitEvents s (fcPacket addrHost ⟨[st], by simp⟩) := rfl
@[simp] theorem errorReply_freeCount (st : Byte) (s : State) :
    (errorReply st s).freeCount = s.freeCount := rfl

/-! ## `heDisconnect` -/

@[simp] theorem heDisconnect_cfg (s : State) :
    (heDisconnect s).cfg = s.cfg := rfl
@[simp] theorem heDisconnect_rxb (s : State) :
    (heDisconnect s).rxb = s.rxb := rfl
@[simp] theorem heDisconnect_rxw (s : State) :
    (heDisconnect s).rxw = 0 := rfl
@[simp] theorem heDisconnect_rxr (s : State) :
    (heDisconnect s).rxr = 2 := rfl
@[simp] theorem heDisconnect_fFraming (s : State) :
    (heDisconnect s).fFraming = false := rfl
@[simp] theorem heDisconnect_fEsc (s : State) :
    (heDisconnect s).fEsc = false := rfl
@[simp] theorem heDisconnect_fComplete (s : State) :
    (heDisconnect s).fComplete = false := rfl
@[simp] theorem heDisconnect_fSumerr (s : State) :
    (heDisconnect s).fSumerr = false := rfl
@[simp] theorem heDisconnect_dsrSnap (s : State) :
    (heDisconnect s).dsrSnap = s.dsrSnap := rfl
@[simp] theorem heDisconnect_txr (s : State) :
    (heDisconnect s).txr = s.txr := rfl
@[simp] theorem heDisconnect_txn (s : State) :
    (heDisconnect s).txn = (if s.cfg.role = .node then 0 else s.txn) := rfl
@[simp] theorem heDisconnect_txlast (s : State) :
    (heDisconnect s).txlast = s.txlast := rfl
@[simp] theorem heDisconnect_fTxovf (s : State) :
    (heDisconnect s).fTxovf = (if s.cfg.role = .node then false else s.fTxovf) := rfl
@[simp] theorem heDisconnect_atab (s : State) :
    (heDisconnect s).atab = s.atab := rfl
@[simp] theorem heDisconnect_newaddr (s : State) :
    (heDisconnect s).newaddr = (if s.cfg.role = .node then addrBcast else s.newaddr) := rfl
@[simp] theorem heDisconnect_commMode (s : State) :
    (heDisconnect s).commMode = s.commMode := rfl
@[simp] theorem heDisconnect_hs (s : State) :
    (heDisconnect s).hs = .disconnected := rfl
@[simp] theorem heDisconnect_ht0 (s : State) :
    (heDisconnect s).ht0 = s.ht0 := rfl
@[simp] theorem heDisconnect_hdev (s : State) :
    (heDisconnect s).hdev = 0 := rfl
@[simp] theorem heDisconnect_htgt (s : State) :
    (heDisconnect s).htgt = 1 := rfl
@[simp] theorem heDisconnect_hplayers (s : State) :
    (heDisconnect s).hplayers = Vector.replicate 4 0 := rfl
@[simp] theorem heDisconnect_hbuttons (s : State) :
    (heDisconnect s).hbuttons = Vector.replicate 4 0 := rfl
@[simp] theorem heDisconnect_hcoinslots (s : State) :
    (heDisconnect s).hcoinslots = Vector.replicate 4 0 := rfl
@[simp] theorem heDisconnect_htotal (s : State) :
    (heDisconnect s).htotal = 0 := rfl
@[simp] theorem heDisconnect_hsw0 (s : State) :
    (heDisconnect s).hsw0 = Vector.replicate 4 0 := rfl
@[simp] theorem heDisconnect_hsw1 (s : State) :
    (heDisconnect s).hsw1 = Vector.replicate 4 0 := rfl
@[simp] theorem heDisconnect_hcoin (s : State) :
    (heDisconnect s).hcoin = 0 := rfl
@[simp] theorem heDisconnect_chanRx (s : State) :
    (heDisconnect s).chanRx = s.chanRx := rfl
@[simp] theorem heDisconnect_connectedIn (s : State) :
    (heDisconnect s).connectedIn = s.connectedIn := rfl
@[simp] theorem heDisconnect_readyIn (s : State) :
    (heDisconnect s).readyIn = s.readyIn := rfl
@[simp] theorem heDisconnect_downstreamReady (s : State) :
    (heDisconnect s).downstreamReady = s.downstreamReady := rfl
@[simp] theorem heDisconnect_tick (s : State) :
    (heDisconnect s).tick = s.tick := rfl
@[simp] theorem heDisconnect_speedYes (s : State) :
    (heDisconnect s).speedYes = s.speedYes := rfl
@[simp] theorem heDisconnect_phase (s : State) :
    (heDisconnect s).phase = s.phase := rfl
@[simp] theorem heDisconnect_inputs (s : State) :
    (heDisconnect s).inputs = s.inputs := rfl
@[simp] theorem heDisconnect_trace (s : State) :
    (heDisconnect s).trace = s.trace := rfl
@[simp] theorem heDisconnect_freeCount (s : State) :
    (heDisconnect s).freeCount = s.freeCount := rfl

/-! ## `unassignAll` -/

@[simp] theorem unassignAll_cfg (s : State) :
    (unassignAll s).cfg = s.cfg := rfl
@[simp] theorem unassignAll_rxb (s : State) :
    (unassignAll s).rxb = s.rxb := rfl
@[simp] theorem unassignAll_rxw (s : State) :
    (unassignAll s).rxw = s.rxw := rfl
@[simp] theorem unassignAll_rxr (s : State) :
    (unassignAll s).rxr = s.rxr := rfl
@[simp] theorem unassignAll_fFraming (s : State) :
    (unassignAll s).fFraming = s.fFraming := rfl
@[simp] theorem unassignAll_fEsc (s : State) :
    (unassignAll s).fEsc = s.fEsc := rfl
@[simp] theorem unassignAll_fComplete (s : State) :
    (unassignAll s).fComplete = s.fComplete := rfl
@[simp] theorem unassignAll_fSumerr (s : State) :
    (unassignAll s).fSumerr = s.fSumerr := rfl
@[simp] theorem unassignAll_dsrSnap (s : State) :
    (unassignAll s).dsrSnap = s.dsrSnap := rfl
@[simp] theorem unassignAll_txr (s : State) :
    (unassignAll s).txr = s.txr := rfl
@[simp] theorem unassignAll_txn (s : State) :
    (unassignAll s).txn = s.txn := rfl
@[simp] theorem unassignAll_txlast (s : State) :
    (unassignAll s).txlast = s.txlast := rfl
@[simp] theorem unassignAll_fTxovf (s : State) :
    (unassignAll s).fTxovf = s.fTxovf := rfl
@[simp] theorem unassignAll_atab (s : State) :
    (unassignAll s).atab = List.replicate s.atab.length addrBcast := rfl
@[simp] theorem unassignAll_newaddr (s : State) :
    (unassignAll s).newaddr = s.newaddr := rfl
@[simp] theorem unassignAll_commMode (s : State) :
    (unassignAll s).commMode = s.commMode := rfl
@[simp] theorem unassignAll_hs (s : State) :
    (unassignAll s).hs = s.hs := rfl
@[simp] theorem unassignAll_ht0 (s : State) :
    (unassignAll s).ht0 = s.ht0 := rfl
@[simp] theorem unassignAll_hdev (s : State) :
    (unassignAll s).hdev = s.hdev := rfl
@[simp] theorem unassignAll_htgt (s : State) :
    (unassignAll s).htgt = s.htgt := rfl
@[simp] theorem unassignAll_hplayers (s : State) :
    (unassignAll s).hplayers = s.hplayers := rfl
@[simp] theorem unassignAll_hbuttons (s : State) :
    (unassignAll s).hbuttons = s.hbuttons := rfl
@[simp] theorem unassignAll_hcoinslots (s : State) :
    (unassignAll s).hcoinslots = s.hcoinslots := rfl
@[simp] theorem unassignAll_htotal (s : State) :
    (unassignAll s).htotal = s.htotal := rfl
@[simp] theorem unassignAll_hsw0 (s : State) :
    (unassignAll s).hsw0 = s.hsw0 := rfl
@[simp] theorem unassignAll_hsw1 (s : State) :
    (unassignAll s).hsw1 = s.hsw1 := rfl
@[simp] theorem unassignAll_hcoin (s : State) :
    (unassignAll s).hcoin = s.hcoin := rfl
@[simp] theorem unassignAll_chanRx (s : State) :
    (unassignAll s).chanRx = s.chanRx := rfl
@[simp] theorem unassignAll_connectedIn (s : State) :
    (unassignAll s).connectedIn = s.connectedIn := rfl
@[simp] theorem unassignAll_readyIn (s : State) :
    (unassignAll s).readyIn = s.readyIn := rfl
@[simp] theorem unassignAll_downstreamReady (s : State) :
    (unassignAll s).downstreamReady = s.downstreamReady := rfl
@[simp] theorem unassignAll_tick (s : State) :
    (unassignAll s).tick = s.tick := rfl
@[simp] theorem unassignAll_speedYes (s : State) :
    (unassignAll s).speedYes = s.speedYes := rfl
@[simp] theorem unassignAll_phase (s : State) :
    (unassignAll s).phase = s.phase := rfl
@[simp] theorem unassignAll_inputs (s : State) :
    (unassignAll s).inputs = s.inputs := rfl
@[simp] theorem unassignAll_trace (s : State) :
    (unassignAll s).trace = s.trace ++ [.readyOut false, .ledOut false] := rfl
@[simp] theorem unassignAll_freeCount (s : State) :
    (unassignAll s).freeCount = s.freeCount := rfl

/-! ## `advance` -/

@[simp] theorem advance_cfg (i : Instr) (s : State) :
    (advance i s).cfg = s.cfg := rfl
@[simp] theorem advance_rxb (i : Instr) (s : State) :
    (advance i s).rxb = s.rxb := rfl
@[simp] theorem advance_rxw (i : Instr) (s : State) :
    (advance i s).rxw = s.rxw := rfl
@[simp] theorem advance_rxr (i : Instr) (s : State) :
    (advance i s).rxr = s.rxr + (encode i).length := rfl
@[simp] theorem advance_fFraming (i : Instr) (s : State) :
    (advance i s).fFraming = s.fFraming := rfl
@[simp] theorem advance_fEsc (i : Instr) (s : State) :
    (advance i s).fEsc = s.fEsc := rfl
@[simp] theorem advance_fComplete (i : Instr) (s : State) :
    (advance i s).fComplete = s.fComplete := rfl
@[simp] theorem advance_fSumerr (i : Instr) (s : State) :
    (advance i s).fSumerr = s.fSumerr := rfl
@[simp] theorem advance_dsrSnap (i : Instr) (s : State) :
    (advance i s).dsrSnap = s.dsrSnap := rfl
@[simp] theorem advance_txr (i : Instr) (s : State) :
    (advance i s).txr = s.txr := rfl
@[simp] theorem advance_txn (i : Instr) (s : State) :
    (advance i s).txn = s.txn := rfl
@[simp] theorem advance_txlast (i : Instr) (s : State) :
    (advance i s).txlast = s.txlast := rfl
@[simp] theorem advance_fTxovf (i : Instr) (s : State) :
    (advance i s).fTxovf = s.fTxovf := rfl
@[simp] theorem advance_atab (i : Instr) (s : State) :
    (advance i s).atab = s.atab := rfl
@[simp] theorem advance_newaddr (i : Instr) (s : State) :
    (advance i s).newaddr = s.newaddr := rfl
@[simp] theorem advance_commMode (i : Instr) (s : State) :
    (advance i s).commMode = s.commMode := rfl
@[simp] theorem advance_hs (i : Instr) (s : State) :
    (advance i s).hs = s.hs := rfl
@[simp] theorem advance_ht0 (i : Instr) (s : State) :
    (advance i s).ht0 = s.ht0 := rfl
@[simp] theorem advance_hdev (i : Instr) (s : State) :
    (advance i s).hdev = s.hdev := rfl
@[simp] theorem advance_htgt (i : Instr) (s : State) :
    (advance i s).htgt = s.htgt := rfl
@[simp] theorem advance_hplayers (i : Instr) (s : State) :
    (advance i s).hplayers = s.hplayers := rfl
@[simp] theorem advance_hbuttons (i : Instr) (s : State) :
    (advance i s).hbuttons = s.hbuttons := rfl
@[simp] theorem advance_hcoinslots (i : Instr) (s : State) :
    (advance i s).hcoinslots = s.hcoinslots := rfl
@[simp] theorem advance_htotal (i : Instr) (s : State) :
    (advance i s).htotal = s.htotal := rfl
@[simp] theorem advance_hsw0 (i : Instr) (s : State) :
    (advance i s).hsw0 = s.hsw0 := rfl
@[simp] theorem advance_hsw1 (i : Instr) (s : State) :
    (advance i s).hsw1 = s.hsw1 := rfl
@[simp] theorem advance_hcoin (i : Instr) (s : State) :
    (advance i s).hcoin = s.hcoin := rfl
@[simp] theorem advance_chanRx (i : Instr) (s : State) :
    (advance i s).chanRx = s.chanRx := rfl
@[simp] theorem advance_connectedIn (i : Instr) (s : State) :
    (advance i s).connectedIn = s.connectedIn := rfl
@[simp] theorem advance_readyIn (i : Instr) (s : State) :
    (advance i s).readyIn = s.readyIn := rfl
@[simp] theorem advance_downstreamReady (i : Instr) (s : State) :
    (advance i s).downstreamReady = s.downstreamReady := rfl
@[simp] theorem advance_tick (i : Instr) (s : State) :
    (advance i s).tick = s.tick := rfl
@[simp] theorem advance_speedYes (i : Instr) (s : State) :
    (advance i s).speedYes = s.speedYes := rfl
@[simp] theorem advance_phase (i : Instr) (s : State) :
    (advance i s).phase = s.phase := rfl
@[simp] theorem advance_inputs (i : Instr) (s : State) :
    (advance i s).inputs = s.inputs := rfl
@[simp] theorem advance_trace (i : Instr) (s : State) :
    (advance i s).trace = s.trace := rfl
@[simp] theorem advance_freeCount (i : Instr) (s : State) :
    (advance i s).freeCount = s.freeCount := rfl

/-! ## `takeSync` -/

@[simp] theorem takeSync_cfg (s : State) :
    (takeSync s).cfg = s.cfg := rfl
@[simp] theorem takeSync_rxb (s : State) :
    (takeSync s).rxb = s.rxb := rfl
@[simp] theorem takeSync_rxw (s : State) :
    (takeSync s).rxw = 0 := rfl
@[simp] theorem takeSync_rxr (s : State) :
    (takeSync s).rxr = 2 := rfl
@[simp] theorem takeSync_fFraming (s : State) :
    (takeSync s).fFraming = true := rfl
@[simp] theorem takeSync_fEsc (s : State) :
    (takeSync s).fEsc = false := rfl
@[simp] theorem takeSync_fComplete (s : State) :
    (takeSync s).fComplete = false := rfl
@[simp] theorem takeSync_fSumerr (s : State) :
    (takeSync s).fSumerr = false := rfl
@[simp] theorem takeSync_dsrSnap (s : State) :
    (takeSync s).dsrSnap = (if s.cfg.role = .node then s.downstreamReady else Config.freeDsrSnap s.freeCount) := rfl
@[simp] theorem takeSync_txr (s : State) :
    (takeSync s).txr = s.txr := rfl
@[simp] theorem takeSync_txn (s : State) :
    (takeSync s).txn = (if s.cfg.role = .node then 0 else s.txn) := rfl
@[simp] theorem takeSync_txlast (s : State) :
    (takeSync s).txlast = s.txlast := rfl
@[simp] theorem takeSync_fTxovf (s : State) :
    (takeSync s).fTxovf = (if s.cfg.role = .node then false else s.fTxovf) := rfl
@[simp] theorem takeSync_atab (s : State) :
    (takeSync s).atab = s.atab := rfl
@[simp] theorem takeSync_newaddr (s : State) :
    (takeSync s).newaddr = (if s.cfg.role = .node then addrBcast else s.newaddr) := rfl
@[simp] theorem takeSync_commMode (s : State) :
    (takeSync s).commMode = s.commMode := rfl
@[simp] theorem takeSync_hs (s : State) :
    (takeSync s).hs = s.hs := rfl
@[simp] theorem takeSync_ht0 (s : State) :
    (takeSync s).ht0 = s.ht0 := rfl
@[simp] theorem takeSync_hdev (s : State) :
    (takeSync s).hdev = s.hdev := rfl
@[simp] theorem takeSync_htgt (s : State) :
    (takeSync s).htgt = s.htgt := rfl
@[simp] theorem takeSync_hplayers (s : State) :
    (takeSync s).hplayers = s.hplayers := rfl
@[simp] theorem takeSync_hbuttons (s : State) :
    (takeSync s).hbuttons = s.hbuttons := rfl
@[simp] theorem takeSync_hcoinslots (s : State) :
    (takeSync s).hcoinslots = s.hcoinslots := rfl
@[simp] theorem takeSync_htotal (s : State) :
    (takeSync s).htotal = s.htotal := rfl
@[simp] theorem takeSync_hsw0 (s : State) :
    (takeSync s).hsw0 = s.hsw0 := rfl
@[simp] theorem takeSync_hsw1 (s : State) :
    (takeSync s).hsw1 = s.hsw1 := rfl
@[simp] theorem takeSync_hcoin (s : State) :
    (takeSync s).hcoin = s.hcoin := rfl
@[simp] theorem takeSync_chanRx (s : State) :
    (takeSync s).chanRx = s.chanRx := rfl
@[simp] theorem takeSync_connectedIn (s : State) :
    (takeSync s).connectedIn = s.connectedIn := rfl
@[simp] theorem takeSync_readyIn (s : State) :
    (takeSync s).readyIn = s.readyIn := rfl
@[simp] theorem takeSync_downstreamReady (s : State) :
    (takeSync s).downstreamReady = s.downstreamReady := rfl
@[simp] theorem takeSync_tick (s : State) :
    (takeSync s).tick = s.tick := rfl
@[simp] theorem takeSync_speedYes (s : State) :
    (takeSync s).speedYes = s.speedYes := rfl
@[simp] theorem takeSync_phase (s : State) :
    (takeSync s).phase = s.phase := rfl
@[simp] theorem takeSync_inputs (s : State) :
    (takeSync s).inputs = s.inputs := rfl
@[simp] theorem takeSync_trace (s : State) :
    (takeSync s).trace = s.trace := rfl
@[simp] theorem takeSync_freeCount (s : State) :
    (takeSync s).freeCount = (if s.cfg.role = .node then s.freeCount else s.freeCount + 1) := rfl

end Sys2Proof.Machine
end

