-- ==== Sys2Proof/Laws/Ops.lean ====
section
/-! SUPPORT. One lemma per shared operation that says once everything it can do, and one per constructor that says
which operation `exec` runs. -/

namespace Sys2Proof.Machine

/-! ## Reports -/

/-- With room and no overflow a pushed byte is appended to the pending reports (rule R274). -/
theorem nePush_room {s : State} (hm : Memory.wf s.txr = true) (ho : s.fTxovf = false)
    (hr : s.txn.val < 253) (b : Byte) :
    pendingReports (nePush b s) = pendingReports s ++ [b] ∧
    (nePush b s).txn.val = s.txn.val + 1 ∧ (nePush b s).fTxovf = false ∧
    Memory.wf (nePush b s).txr = true ∧
    (∀ a, a ≠ s.txn.val → (nePush b s).txr.read a = s.txr.read a) := by
  have hc : s.fTxovf = false ∧ s.txn.val < txReportCap := ⟨ho, hr⟩
  have ht : (nePush b s).txr = s.txr.write s.txn.val b := by rw [nePush_txr, if_pos hc]
  have hn : (nePush b s).txn.val = s.txn.val + 1 := by
    rw [nePush_txn, dif_pos ⟨ho, hr⟩]
  refine ⟨?_, hn, ?_, ?_, ?_⟩
  · unfold pendingReports
    rw [hn, ht, Memory.slice_write_end hm (Nat.zero_le _)]
  · rw [nePush_fTxovf, if_pos hc.2, ho]
  · rw [ht]; exact Memory.wf_write hm _ _
  · intro a ha; rw [ht]; exact Memory.read_write_other _ ha _

/-- Without room the overflow flag is set and nothing is stored (rules R274, R276). -/
theorem nePush_full {s : State} (hr : s.txn.val = 253) (b : Byte) :
    nePush b s = raise .reportOverflow s := by
  have h : ¬ s.txn.val < txReportCap := by rw [hr]; decide
  have h' : ¬ (s.fTxovf = false ∧ s.txn.val < 253) := by omega
  simp [nePush, raise, h, h']

/-- After an overflow a pushed byte is ignored (rule R274). -/
theorem nePush_overflowed {s : State} (ho : s.fTxovf = true) (b : Byte) : nePush b s = s := by
  cases s
  cases ho
  simp [nePush]

/-- A push changes nothing but the report buffer, its count and the overflow flag. -/
theorem nePush_frame (b : Byte) (s : State) :
    nePush b s = { s with
      txr := (nePush b s).txr, txn := (nePush b s).txn, fTxovf := (nePush b s).fTxovf } := rfl

/-- A push keeps the report buffer canonical and within its 253 bytes. -/
theorem nePush_memory {s : State} (hm : Memory.wf s.txr = true)
    (hb : Memory.below s.txr txReportCap = true) (b : Byte) :
    Memory.wf (nePush b s).txr = true ∧ Memory.below (nePush b s).txr txReportCap = true := by
  rw [nePush_txr]
  split
  · rename_i h
    exact ⟨Memory.wf_write hm _ _, Memory.below_write hb h.2 _⟩
  · exact ⟨hm, hb⟩

/-! ## Status packets -/

@[simp] theorem okReply_bytes (s : State) : (okReply s).bytes = codeOk :: pendingReports s := rfl

/-- The commit of a staged address: nothing staged, no free slot, or the first free slot takes it (rule R277). -/
theorem commitAddress_cases (s : State) :
    (s.newaddr = addrBcast ∧ commitAddress s = s) ∨
    (s.newaddr ≠ addrBcast ∧ firstFree s.atab = none ∧
      commitAddress s = { s with newaddr := addrBcast }) ∨
    (∃ i, s.newaddr ≠ addrBcast ∧ firstFree s.atab = some i ∧
      commitAddress s = { s with
        atab := s.atab.set i s.newaddr
        newaddr := addrBcast
        trace := s.trace ++ (if i + 1 = s.cfg.ndev then [.readyOut true, .ledOut true] else []) }) := by
  unfold commitAddress
  by_cases h : s.newaddr = addrBcast
  · exact .inl ⟨h, by rw [if_pos h]⟩
  · rw [if_neg h]
    cases hf : firstFree s.atab with
    | none => exact .inr (.inl ⟨h, rfl, rfl⟩)
    | some i => exact .inr (.inr ⟨i, h, rfl, rfl⟩)

/-- The least index of an unassigned slot (rule R277). -/
theorem firstFree_eq_some {l : List Byte} {i : Nat} :
    firstFree l = some i ↔ ∃ h : i < l.length, l[i] = addrBcast ∧ ∀ j (hj : j < i), l[j] ≠ addrBcast := by
  simp [firstFree, List.findIdx?_eq_some_iff_getElem]

/-- What `commitAddress` leaves alone. -/
theorem commitAddress_frame (s : State) :
    commitAddress s = { s with
      atab := (commitAddress s).atab, newaddr := (commitAddress s).newaddr
      trace := (commitAddress s).trace } := by
  rcases commitAddress_cases s with ⟨_, h⟩ | ⟨_, _, h⟩ | ⟨i, _, _, h⟩ <;> rw [h]

/-! ## Operands -/

/-- What the address filter lets through in each role (rules R34, R223). -/
theorem addrMatch_eq_true {s : State} {a : Byte} :
    addrMatch s a = true ↔
      a = addrBcast ∨ (s.cfg.role = .node ∧ a ∈ s.atab) ∨ (s.cfg.role = .host ∧ a = addrHost) := by
  simp only [addrMatch, addressTable, Bool.or_eq_true, decide_eq_true_eq, List.any_eq_true]
  cases s.cfg.role <;> simp

/-- In a verified frame a fetch reads below the checksum's index (rule R252). -/
theorem fetchLimit_of_complete {s : State} (h : s.fComplete = true) :
    fetchLimit s = (rxRead s 1).toNat + 1 := by simp [fetchLimit, h, checksumIndex]

/-- In an unverified frame a fetch reads below the write cursor too (rule R255). -/
theorem fetchLimit_of_unverified {s : State} (h : s.fComplete = false) :
    fetchLimit s = min ((rxRead s 1).toNat + 1) s.rxw.val := by simp [fetchLimit, h, checksumIndex]

/-! ## The decoder -/

/-- A frame is pending when it is verified or has failed its checksum (rule R212). -/
theorem framePending_eq_true {s : State} :
    framePending s = true ↔ s.fComplete = true ∨ s.fSumerr = true := by simp [framePending]

/-- When the end of a frame is due (rule R220). -/
theorem frameEndDue_eq_true {s : State} :
    frameEndDue s = true ↔
      s.fFraming = true ∧ 2 ≤ s.rxw.val ∧ s.rxw.val = (rxRead s 1).toNat + 2 := by
  simp [frameEndDue, and_assoc]

/-- A plain byte is discarded, stored, or finds the buffer full (rules R214, R216, R218). -/
theorem takePlain_cases (b : Byte) (s : State) :
    (s.fFraming = false ∧ takePlain b s = s) ∨
    (s.fFraming = true ∧ s.rxw.val = 256 ∧ takePlain b s = frameClear s) ∨
    (∃ h : s.rxw.val < 256, s.fFraming = true ∧
      takePlain b s = { s with
        rxb := s.rxb.write s.rxw.val (storedValue s b)
        rxw := ⟨s.rxw.val + 1, by omega⟩
        fEsc := false }) := by
  unfold takePlain
  by_cases hf : s.fFraming = false
  · exact .inl ⟨hf, by rw [if_pos hf]⟩
  · have hf' : s.fFraming = true := by simpa using hf
    rw [if_neg hf]
    by_cases hr : s.rxw.val < 256
    · exact .inr (.inr ⟨hr, hf', by rw [dif_pos hr]⟩)
    · exact .inr (.inl ⟨hf', by omega, by rw [dif_neg hr]⟩)

/-- The outcomes of a frame's end (rules R222, R223, R224, R226). -/
theorem frameEnd_cases (a : Byte) (s : State) :
    (addrMatch s a = false ∧ frameEnd a s = frameClear s) ∨
    (addrMatch s a = true ∧ checksumOk s = true ∧
      frameEnd a s = { s with fFraming := false, fComplete := true }) ∨
    (addrMatch s a = true ∧ checksumOk s = false ∧
      (s.cfg.role = .host ∨ exemptFrame s = true) ∧ frameEnd a s = frameClear s) ∨
    (addrMatch s a = true ∧ checksumOk s = false ∧ s.cfg.role = .node ∧ exemptFrame s = false ∧
      frameEnd a s = { s with fFraming := false, fSumerr := true }) := by
  unfold frameEnd
  by_cases ha : addrMatch s a = false
  · exact .inl ⟨ha, by simp only [ha, if_true]; rfl⟩
  · have ha' : addrMatch s a = true := by simpa using ha
    by_cases hc : checksumOk s = true
    · exact .inr (.inl ⟨ha', hc, by simp only [ha', hc, if_true]; rfl⟩)
    · have hc' : checksumOk s = false := by simpa using hc
      by_cases he : s.cfg.role = .host ∨ exemptFrame s = true
      · refine .inr (.inr (.inl ⟨ha', hc', he, ?_⟩))
        have he' : s.cfg.role = .host ∨ exemptFrame { s with fFraming := false } = true := he
        simp only [ha', hc', raise, he', if_true]; rfl
      · obtain ⟨hr, hx⟩ := not_or.mp he
        have hr' : s.cfg.role = .node := by cases h : s.cfg.role <;> simp_all
        have he' : ¬(s.cfg.role = .host ∨ exemptFrame { s with fFraming := false } = true) := he
        exact .inr (.inr (.inr ⟨ha', hc', hr', by simpa using hx, by
          simp only [ha', hc', raise, if_neg he']; rfl⟩))

/-! ## Meanings by role -/

/-- A node meaning answers a next state exactly in node role. -/
theorem onNode_next {f : State → State} {s t : State} :
    onNode f s = .next t ↔ s.cfg.role = .node ∧ f s = t := by
  unfold onNode
  cases s.cfg.role <;> simp

theorem onNode_of_node {f : State → State} {s : State} (h : s.cfg.role = .node) :
    onNode f s = .next (f s) := onNode_next.mpr ⟨h, rfl⟩

/-- A code of both roles answers a next state in node role, and in host role when a reply is awaited. -/
theorem byRole_next {f g : State → State} {s t : State} :
    byRole f g s = .next t ↔
      (s.cfg.role = .node ∧ f s = t) ∨ (s.cfg.role = .host ∧ replyAwaited s = true ∧ g s = t) := by
  unfold byRole
  cases hr : s.cfg.role with
  | node => simp
  | host => cases hw : replyAwaited s <;> simp

theorem byRole_of_node {f g : State → State} {s : State} (h : s.cfg.role = .node) :
    byRole f g s = .next (f s) := byRole_next.mpr (.inl ⟨h, rfl⟩)

theorem byRole_of_host {f g : State → State} {s : State} (h : replyAwaited s = true) :
    byRole f g s = .next (g s) := by
  have hr : s.cfg.role = .host := by
    simp only [replyAwaited, Bool.and_eq_true, decide_eq_true_eq] at h
    exact h.1.1
  exact byRole_next.mpr (.inr ⟨hr, h, rfl⟩)

theorem whenVerified_of_complete {f : State → State} {s : State} (h : s.fComplete = true) :
    whenVerified f s = f s := by simp [whenVerified, h]

theorem whenVerified_of_unverified {f : State → State} {s : State} (h : s.fComplete = false) :
    whenVerified f s = finish .incomplete s := by simp [whenVerified, h]

/-! ## `exec`, constructor by constructor -/

@[simp] theorem exec_ioident (s : State) : exec .ioident s = execIoident s := rfl
@[simp] theorem exec_cmdrev (s : State) : exec .cmdrev s = execCmdrev s := rfl
@[simp] theorem exec_jvsrev (s : State) : exec .jvsrev s = execJvsrev s := rfl
@[simp] theorem exec_commver (s : State) : exec .commver s = execCommver s := rfl
@[simp] theorem exec_featchk (s : State) : exec .featchk s = execFeatchk s := rfl
@[simp] theorem exec_mainid (text : List Byte) (s : State) : exec (.mainid text) s = execMainid text s := rfl
@[simp] theorem exec_swinp (players : Byte) (bytesPerPlayer : Byte) (s : State) : exec (.swinp players bytesPerPlayer) s = execSwinp players bytesPerPlayer s := rfl
@[simp] theorem exec_coininp (slots : Byte) (s : State) : exec (.coininp slots) s = execCoininp slots s := rfl
@[simp] theorem exec_anlinp (channels : Byte) (s : State) : exec (.anlinp channels) s = execAnlinp channels s := rfl
@[simp] theorem exec_rotinp (a : Byte) (s : State) : exec (.rotinp a) s = execRotinp a s := rfl
@[simp] theorem exec_keyinp (s : State) : exec .keyinp s = execKeyinp s := rfl
@[simp] theorem exec_scrposinp (a : Byte) (s : State) : exec (.scrposinp a) s = execScrposinp a s := rfl
@[simp] theorem exec_retry (s : State) : exec .retry s = execRetry s := rfl
@[simp] theorem exec_coindec (slot : Byte) (amountHi : Byte) (amountLo : Byte) (s : State) : exec (.coindec slot amountHi amountLo) s = execCoindec slot amountHi amountLo s := rfl
@[simp] theorem exec_payinc (slot : Byte) (hi : Byte) (lo : Byte) (s : State) : exec (.payinc slot hi lo) s = execPayinc slot hi lo s := rfl
@[simp] theorem exec_output1 (data : List Byte) (s : State) : exec (.output1 data) s = execOutput1 data s := rfl
@[simp] theorem exec_anlout (data : List Byte) (s : State) : exec (.anlout data) s = execAnlout data s := rfl
@[simp] theorem exec_charout (data : List Byte) (s : State) : exec (.charout data) s = execCharout data s := rfl
@[simp] theorem exec_coininc (slot : Byte) (hi : Byte) (lo : Byte) (s : State) : exec (.coininc slot hi lo) s = execCoininc slot hi lo s := rfl
@[simp] theorem exec_vendor (body : List Byte) (s : State) : exec (.vendor body) s = execVendor body s := rfl
@[simp] theorem exec_commsup (s : State) : exec .commsup s = execCommsup s := rfl
@[simp] theorem exec_reset (arg : Byte) (s : State) : exec (.reset arg) s = execReset arg s := rfl
@[simp] theorem exec_setaddr (addr : Byte) (s : State) : exec (.setaddr addr) s = execSetaddr addr s := rfl
@[simp] theorem exec_commchg (mode : Byte) (s : State) : exec (.commchg mode) s = execCommchg mode s := rfl
@[simp] theorem exec_sync (s : State) : exec .sync s = execSync s := rfl
@[simp] theorem exec_mark (s : State) : exec .mark s = execMark s := rfl
@[simp] theorem exec_stOk (s : State) : exec .stOk s = execStOk s := rfl
@[simp] theorem exec_stUnknown (s : State) : exec .stUnknown s = execStUnknown s := rfl
@[simp] theorem exec_stSumerr (s : State) : exec .stSumerr s = execStSumerr s := rfl
@[simp] theorem exec_stOverflow (s : State) : exec .stOverflow s = execStOverflow s := rfl
@[simp] theorem exec_rpOk (s : State) : exec .rpOk s = execRpOk s := rfl
@[simp] theorem exec_addrHost (s : State) : exec .addrHost s = execAddrHost s := rfl
@[simp] theorem exec_addrBcast (s : State) : exec .addrBcast s = execAddrBcast s := rfl

end Sys2Proof.Machine
end

