-- ==== Sys2Proof/Laws/PerInstr.lean ====
section
/-! SUPPORT. The family `EncodedLength`, one lemma per constructor of `Instr`: the Command Table measures the
encoding of a command as exactly that encoding, whatever follows it. -/

namespace Sys2Proof.Laws.EncodedLength

open Sys2Proof Sys2Proof.Machine

/-- `CT_SIZE` of a well-formed command's bytes, followed by any others, is the command's own length (rules R112,
R142, R144 to R148). -/
def Statement (i : Instr) : Prop :=
  ∀ (cfg : Config) (rest : List Byte), i.wellFormed cfg = true → i.level = .command →
    ctSize cfg (encode i ++ rest) (encode i ++ rest).length = .size (encode i).length

/-- With every byte at hand the table reads them all. -/
theorem ctSize_all (cfg : Config) (l : List Byte) : ctSize cfg l l.length = ctSizeOf cfg l := by
  simp [ctSize]

/-- A command whose opcode has a fixed length. -/
theorem of_fix {i : Instr} {op : Byte} {args : List Byte} {n : Nat} (he : encode i = op :: args)
    (hf : formatOf op = some (.fix n)) (hn : args.length + 1 = n) : Statement i := by
  intro cfg rest _ _
  rw [ctSize_all]
  simp [ctSizeOf, he, hf, hn]

/-- A command whose length is in its count byte. -/
theorem of_cnt {i : Instr} {op count : Byte} {args : List Byte} {scale : Nat}
    (he : encode i = op :: count :: args) (hf : formatOf op = some (.cnt scale))
    (hn : ∀ cfg, i.wellFormed cfg = true → scale * count.toNat = args.length) : Statement i := by
  intro cfg rest hw _
  rw [ctSize_all]
  simp [ctSizeOf, he, hf, sizeCnt, hn cfg hw]

/-- An instruction that is no command. -/
theorem of_not_command {i : Instr} (h : i.level ≠ .command) : Statement i := fun _ _ _ hl => absurd hl h

theorem ioident : Statement .ioident := of_fix rfl rfl rfl

theorem cmdrev : Statement .cmdrev := of_fix rfl rfl rfl

theorem jvsrev : Statement .jvsrev := of_fix rfl rfl rfl

theorem commver : Statement .commver := of_fix rfl rfl rfl

theorem featchk : Statement .featchk := of_fix rfl rfl rfl

theorem mainid (text : List Byte) : Statement (.mainid text) := by
  intro cfg rest hw _
  have hz : ∀ b ∈ text, b ≠ 0 := by simpa [Instr.wellFormed] using hw
  have ht : textLength (text ++ 0#8 :: rest) = some text.length :=
    textLength_eq_some.mpr ⟨text, rest, rfl, rfl, hz⟩
  rw [ctSize_all]
  simp [ctSizeOf, encode, formatOf, sizeStr, ht]

theorem swinp (a b : Byte) : Statement (.swinp a b) := of_fix rfl rfl rfl

theorem coininp (a : Byte) : Statement (.coininp a) := of_fix rfl rfl rfl

theorem anlinp (a : Byte) : Statement (.anlinp a) := of_fix rfl rfl rfl

theorem rotinp (a : Byte) : Statement (.rotinp a) := of_fix rfl rfl rfl

theorem keyinp : Statement .keyinp := of_fix rfl rfl rfl

theorem scrposinp (a : Byte) : Statement (.scrposinp a) := of_fix rfl rfl rfl

theorem retry : Statement .retry := of_fix rfl rfl rfl

theorem coindec (a b c : Byte) : Statement (.coindec a b c) := of_fix rfl rfl rfl

theorem payinc (a b c : Byte) : Statement (.payinc a b c) := of_fix rfl rfl rfl

theorem output1 (data : List Byte) : Statement (.output1 data) :=
  of_cnt rfl rfl fun cfg hw => by
    have h : data.length ≤ 255 := by simpa [Instr.wellFormed] using hw
    simp only [BitVec.toNat_ofNat]; omega

theorem anlout (data : List Byte) : Statement (.anlout data) :=
  of_cnt rfl rfl fun cfg hw => by
    have h : data.length % 2 = 0 ∧ data.length ≤ 510 := by simpa [Instr.wellFormed] using hw
    simp only [BitVec.toNat_ofNat]; omega

theorem charout (data : List Byte) : Statement (.charout data) :=
  of_cnt rfl rfl fun cfg hw => by
    have h : data.length ≤ 255 := by simpa [Instr.wellFormed] using hw
    simp only [BitVec.toNat_ofNat]; omega

theorem coininc (a b c : Byte) : Statement (.coininc a b c) := of_fix rfl rfl rfl

theorem vendor (body : List Byte) : Statement (.vendor body) := by
  intro cfg rest hw _
  simp only [Instr.wellFormed] at hw
  split at hw
  · cases hw
  · rename_i sub hs
    have hl : cfg.vendorLen.lookup sub = some (body.length + 1) := by simpa using hw
    have hg : (0x70#8 :: (body ++ rest))[cfg.vendorSubopOffset]? = some sub := by
      have := List.getElem?_append_left (l₂ := rest) (List.getElem?_eq_some_iff.mp hs).1
      simpa [hs] using this
    rw [ctSize_all]
    simp [ctSizeOf, encode, formatOf, sizeVnd, hg, hl]

theorem commsup : Statement .commsup := of_fix rfl rfl rfl

theorem reset (a : Byte) : Statement (.reset a) := of_fix rfl rfl rfl

theorem setaddr (a : Byte) : Statement (.setaddr a) := of_fix rfl rfl rfl

theorem commchg (a : Byte) : Statement (.commchg a) := of_fix rfl rfl rfl

theorem sync : Statement .sync := of_not_command (by decide)

theorem mark : Statement .mark := of_not_command (by decide)

theorem stOk : Statement .stOk := of_not_command (by decide)

theorem stUnknown : Statement .stUnknown := of_not_command (by decide)

theorem stSumerr : Statement .stSumerr := of_not_command (by decide)

theorem stOverflow : Statement .stOverflow := of_not_command (by decide)

theorem rpOk : Statement .rpOk := of_not_command (by decide)

theorem addrHost : Statement .addrHost := of_not_command (by decide)

theorem addrBcast : Statement .addrBcast := of_not_command (by decide)

end Sys2Proof.Laws.EncodedLength
end

