-- ==== Sys2Proof/Laws/Step.lean ====
section
/-! SUPPORT. What a step can do, said once: who acts, how a call begins, and what each phase of a call does. -/

namespace Sys2Proof.Machine

/-! ## Who acts -/

/-- When the block is to act, a step is a step of the running call. -/
theorem step_of_block {s t : State} (h : nextTurn s = .block t) : step s = work t := by
  simp only [step, h]

/-- When the block acts, and what it acts on. -/
theorem nextTurn_block {s t : State} :
    nextTurn s = .block t ↔
      (s.inputs = [] ∧ t = s) ∨
      (∃ rest, s.inputs = .turn :: rest ∧ t = { s with inputs := rest }) ∨
      (∃ c rest, s.inputs = .call c :: rest ∧ s.phase ≠ .idle ∧ t = s) := by
  unfold nextTurn
  split
  · rename_i h; simp [h]
  · rename_i rest h
    constructor
    · intro ht; cases ht; exact .inr (.inl ⟨_, h, rfl⟩)
    · rintro (⟨h', _⟩ | ⟨_, h', ht⟩ | ⟨_, _, h', _, _⟩) <;> rw [h] at h' <;> cases h'
      rw [ht]
  · rename_i c rest h
    by_cases hp : s.phase = .idle
    · simp [h, hp]
    · rw [if_neg hp]
      constructor
      · intro ht; cases ht; exact .inr (.inr ⟨_, _, h, hp, rfl⟩)
      · rintro (⟨h', _⟩ | ⟨_, h', _⟩ | ⟨_, _, _, _, ht⟩)
        · rw [h] at h'; cases h'
        · rw [h] at h'; cases h'
        · rw [ht]
  · rename_i h
    constructor
    · intro ht; cases ht; exact .inl ⟨h, rfl⟩
    · rintro (⟨_, ht⟩ | ⟨_, h', _⟩ | ⟨_, _, h', _, _⟩)
      · rw [ht]
      · rw [h] at h'; cases h'
      · rw [h] at h'; cases h'

/-- The three ways a step answers a next state. -/
theorem step_next {s u : State} (h : step s = .next u) :
    (∃ e rest, s.inputs = .env e :: rest ∧ u = applyEnv e { s with inputs := rest }) ∨
    (∃ c rest, s.inputs = .call c :: rest ∧ s.phase = .idle ∧
      begin c { s with inputs := rest } = .next u) ∨
    (∃ t, nextTurn s = .block t ∧ work t = .next u) := by
  unfold step at h
  split at h
  · rename_i e t ht
    unfold nextTurn at ht
    split at ht
    · rename_i e' rest hi
      cases ht; cases h; exact .inl ⟨_, _, hi, rfl⟩
    · cases ht
    · split at ht <;> cases ht
    · cases ht
  · rename_i c t ht
    unfold nextTurn at ht
    split at ht
    · cases ht
    · cases ht
    · rename_i c' rest hi
      split at ht
      · cases ht; exact .inr (.inl ⟨_, _, hi, ‹_›, h⟩)
      · cases ht
    · cases ht
  · exact .inr (.inr ⟨_, ‹_›, h⟩)

/-! ## Calls -/

/-- How a call begins, when its role has it (rules R252, R265, R274, R282, R305, R350, R420). -/
theorem begin_next {c : Call} {s u : State} (h : begin c s = .next u) :
    (∃ spec, c = .neNext spec ∧ s.cfg.role = .node ∧
      u = { s with phase := .receive (.neNext spec) }) ∨
    (∃ b, c = .nePush b ∧ s.cfg.role = .node ∧ u = { s with phase := .push b }) ∨
    (c = .neBusy ∧ s.cfg.role = .node ∧ u = finish (.bool s.fFraming) s) ∨
    (c = .neOverflow ∧ s.cfg.role = .node ∧ u = finish (.bool s.fTxovf) s) ∨
    (c = .neLinkLost ∧ s.cfg.role = .node ∧ u = finish .unit (frameClear (unassignAll s))) ∨
    (c = .heRun ∧ s.cfg.role = .host ∧ s.connectedIn = true ∧
      u = { s with phase := .receive .heRun }) ∨
    (c = .heRun ∧ s.cfg.role = .host ∧ s.connectedIn = false ∧
      u = finish (.bool false) (heDisconnect s)) ∨
    (c = .heSync ∧ s.cfg.role = .host ∧ u = finish .unit (heSync s)) ∨
    (c = .init ∧ u = finish .unit (reinit s)) := by
  cases c <;> cases hr : s.cfg.role <;> simp only [begin, hr] at h
  case neLinkLost.node => simp only [raise, hr] at h; cases h; simp
  case heRun.host =>
    simp only [raise, hr] at h
    cases hc : s.connectedIn <;> simp [hc] at h <;> simp [h, eq_comm]
  all_goals first | (cases h; done) | (cases h; simp)

/-! ## Phases -/

theorem work_idle {s : State} (h : s.phase = .idle) : work s = .next s := by
  simp [work, fetch, h]

theorem decodeAddress_eq_some {b : Byte} {i : Instr} (h : decodeAddress b = some i) :
    (b = addrHost ∧ i = .addrHost) ∨ (b = addrBcast ∧ i = .addrBcast) := by
  unfold decodeAddress at h
  split at h
  · cases h; exact .inl ⟨‹_›, rfl⟩
  · split at h
    · cases h; exact .inr ⟨‹_›, rfl⟩
    · cases h

theorem decodeReport_eq_some {b : Byte} {i : Instr} (h : decodeReport b = some i) :
    b = reportOk ∧ i = .rpOk := by
  unfold decodeReport at h
  split at h
  · cases h; exact ⟨‹_›, rfl⟩
  · cases h

/-- One turn of the receive loop, whatever the byte or the address is (rules R210, R212, R220). -/
theorem work_receive {s : State} {r : Receiver} (h : s.phase = .receive r) :
    work s = .next
      (if framePending s then { s with phase := r.after }
       else if frameEndDue s then frameEnd (rxRead s 0) s
       else
         match s.chanRx with
         | [] => { s with phase := r.after }
         | b :: rest => takeByte b { s with chanRx := rest }) := by
  simp only [work, fetch, h, fetchReceive]
  by_cases hp : framePending s = true
  · simp [hp]
  · by_cases hd : frameEndDue s = true
    · simp only [hp, hd, if_true]
      cases ha : decodeAddress (rxRead s 0) with
      | none => simp
      | some i =>
        rcases decodeAddress_eq_some ha with ⟨hb, rfl⟩ | ⟨hb, rfl⟩ <;>
          simp [execAddrHost, execAddrBcast, hb]
    · simp only [hp, hd]
      cases hc : s.chanRx with
      | nil => simp
      | cons b rest =>
        simp only [decodeWire, takeByte]
        by_cases h1 : b = symSync
        · simp [h1, execSync, hc]; rw [h]
        · by_cases h2 : b = symMark
          · simp [h2, execMark, hc, show symMark ≠ symSync by decide]; rw [h]
          · simp [h1, h2]

/-- A pushed byte in node role, `RP_OK` or another (rules R111, R274). -/
theorem work_push {s : State} {b : Byte} (h : s.phase = .push b) (hr : s.cfg.role = .node) :
    work s = .next (finish .unit (nePush b s)) := by
  simp only [work, fetch, h, fetchPush]
  cases hd : decodeReport b with
  | none => rfl
  | some i =>
    obtain ⟨rfl, rfl⟩ := decodeReport_eq_some hd
    simp [execRpOk, byRole_of_node hr]

/-- The report code of a reply, in a wait state with a frame (rules R312, R313). -/
theorem work_hostReport {s : State} (h : s.phase = .hostReport) (hw : replyAwaited s = true) :
    work s = .next
      (if payAt (replyPayload s) 1 = reportOk then takeReply s else invalidReply s) := by
  simp only [work, fetch, h, fetchReport, decodeReport]
  by_cases hp : payAt (replyPayload s) 1 = reportOk
  · simp [hp, execRpOk, byRole_of_host hw]
  · simp [hp]

/-- `case HS of` (rules R304, R312, R313). -/
theorem work_hostArm {s : State} (h : s.phase = .hostArm) (hr : s.cfg.role = .host) :
    work s = .next
      (if s.hs.isWait ∧ s.fComplete = true then
         if replyFramed s = true ∧ payAt (replyPayload s) 0 = codeOk then
           { s with phase := .hostReport }
         else invalidReply s
       else hostArm s) := by
  simp only [work, fetch, h, fetchHost]
  by_cases hw : s.hs.isWait = true ∧ s.fComplete = true
  · have ha : replyAwaited s = true := by simp [replyAwaited, hr, hw.1, hw.2]
    simp only [hw.1, hw.2, and_self, if_true]
    by_cases hf : replyFramed s = true
    · simp only [hf, if_true, decodeStatus, true_and]
      by_cases h1 : payAt (replyPayload s) 0 = codeOk
      · simp [h1, execStOk, byRole_of_host ha, hw.2]
      · by_cases h2 : payAt (replyPayload s) 0 = codeUnknown
        · simp [h2, execStUnknown, byRole_of_host ha, show codeUnknown ≠ codeOk by decide]
        · by_cases h3 : payAt (replyPayload s) 0 = codeSumerr
          · simp [h3, execStSumerr, byRole_of_host ha, show codeSumerr ≠ codeOk by decide,
              show codeSumerr ≠ codeUnknown by decide]
          · by_cases h4 : payAt (replyPayload s) 0 = codeOverflow
            · simp [h4, execStOverflow, byRole_of_host ha, show codeOverflow ≠ codeOk by decide,
                show codeOverflow ≠ codeUnknown by decide, show codeOverflow ≠ codeSumerr by decide]
            · simp [h1, h2, h3, h4]
    · simp [hf]
  · simp [hw]

/-- A step of a call runs the instruction its fetch answers. -/
theorem work_run {s t : State} {i : Instr} (h : fetch s = .run i t) : work s = exec i t := by
  simp only [work, h]

/-- A step of a call does what its fetch does. -/
theorem work_done {s : State} {o : Outcome} (h : fetch s = .done o) : work s = o := by
  simp only [work, h]

theorem fetch_nodeLoop {s : State} {spec : Bool} (h : s.phase = .nodeLoop spec) :
    fetch s = fetchNode spec s := by simp only [fetch, h]

/-- A failed checksum comes first (rule R254). -/
theorem fetchNode_sumerr {s : State} (spec : Bool) (h : s.fSumerr = true) :
    fetchNode spec s = .run .stSumerr s := by simp only [fetchNode, h, if_true]

/-- What `NE_NEXT` returns in an unverified frame (rules R252, R255). -/
theorem fetchNode_unverified {s : State} {spec : Bool} {r : Result} (h : s.fSumerr = false)
    (hu : unverifiedResult spec s = some r) : fetchNode spec s = .done (.next (finish r s)) := by
  simp only [fetchNode, h, hu, Bool.false_eq_true, if_false]

/-- The overflow comes before the next command (rule R276). -/
theorem fetchNode_overflow {s : State} {spec : Bool} (h : s.fSumerr = false)
    (hu : unverifiedResult spec s = none) (ho : s.fTxovf = true) :
    fetchNode spec s = orIncomplete s (.run .stOverflow s) := by
  simp only [fetchNode, h, hu, ho, Bool.false_eq_true, if_false, if_true]

/-- The end of the payload (rule R253). -/
theorem fetchNode_end {s : State} {spec : Bool} (h : s.fSumerr = false)
    (hu : unverifiedResult spec s = none) (ho : s.fTxovf = false) (hl : fetchLimit s ≤ s.rxr) :
    fetchNode spec s = orIncomplete s (.run .stOk s) := by
  simp only [fetchNode, h, hu, ho, hl, Bool.false_eq_true, if_false, if_true]

/-- A command at the read cursor (rules R252, R256). -/
theorem fetchNode_command {s : State} {spec : Bool} (h : s.fSumerr = false)
    (hu : unverifiedResult spec s = none) (ho : s.fTxovf = false) (hl : s.rxr < fetchLimit s) :
    fetchNode spec s = fetchCommand s := by
  simp only [fetchNode, h, hu, ho, Nat.not_le.mpr hl, Bool.false_eq_true, if_false]

/-- A verified frame may be looked at (rule R255). -/
theorem unverifiedResult_of_complete {s : State} (spec : Bool) (h : s.fComplete = true) :
    unverifiedResult spec s = none := by simp only [unverifiedResult, h, if_true]

theorem orIncomplete_of_complete {s : State} (h : s.fComplete = true) (f : Fetched) :
    orIncomplete s f = f := by simp only [orIncomplete, h, if_true]

theorem orIncomplete_of_unverified {s : State} (h : s.fComplete = false) (f : Fetched) :
    orIncomplete s f = .done (.next (finish .incomplete s)) := by
  simp only [orIncomplete, h, Bool.false_eq_true, if_false]

/-- One turn of the loop of `NE_NEXT(spec)`: it returns what an unverified frame calls for, or runs the one
instruction the state selects (rules R252, R395). -/
theorem work_nodeLoop {s u : State} {spec : Bool} (h : s.phase = .nodeLoop spec)
    (hw : work s = .next u) :
    (s.fSumerr = true ∧ exec .stSumerr s = .next u) ∨
    (s.fSumerr = false ∧ s.fComplete = false ∧
      ((∃ r, unverifiedResult spec s = some r ∧ u = finish r s) ∨ u = finish .incomplete s)) ∨
    (s.fSumerr = false ∧ s.fComplete = true ∧
      ((s.fTxovf = true ∧ exec .stOverflow s = .next u) ∨
       (s.fTxovf = false ∧ fetchLimit s ≤ s.rxr ∧ exec .stOk s = .next u) ∨
       (∃ op, s.fTxovf = false ∧ s.rxr < fetchLimit s ∧
          decodeCommand s.cfg (fetchBytes s) = .error (.unknownOpcode op) ∧
          exec .stUnknown (emit (.evUnknownOpcode op) s) = .next u) ∨
       (∃ e, s.fTxovf = false ∧ s.rxr < fetchLimit s ∧ (∀ op, e ≠ .unknownOpcode op) ∧
          decodeCommand s.cfg (fetchBytes s) = .error e ∧ exec .stUnknown s = .next u))) ∨
    (∃ i rest, s.fSumerr = false ∧ unverifiedResult spec s = none ∧ s.fTxovf = false ∧
      s.rxr < fetchLimit s ∧ decodeCommand s.cfg (fetchBytes s) = .ok (i, rest) ∧
      exec i s = .next u) := by
  simp only [work, fetch, h, fetchNode] at hw
  by_cases hs : s.fSumerr = true
  · simp only [hs, if_true] at hw; exact .inl ⟨hs, hw⟩
  · have hs' : s.fSumerr = false := by simpa using hs
    refine .inr ?_
    simp only [hs', Bool.false_eq_true, if_false] at hw
    cases hu : unverifiedResult spec s with
    | some r =>
      simp only [hu] at hw
      cases hw
      have hc : s.fComplete = false := by
        unfold unverifiedResult at hu; by_contra hc; simp [hc] at hu
      exact .inl ⟨hs', hc, .inl ⟨r, rfl, rfl⟩⟩
    | none =>
      simp only [hu] at hw
      by_cases ho : s.fTxovf = true
      · simp only [ho, if_true, orIncomplete] at hw
        cases hc : s.fComplete
        · simp [hc] at hw; exact .inl ⟨hs', rfl, .inr hw.symm⟩
        · simp [hc] at hw; exact .inr (.inl ⟨hs', rfl, .inl ⟨ho, hw⟩⟩)
      · have ho' : s.fTxovf = false := by simpa using ho
        simp only [ho', Bool.false_eq_true, if_false] at hw
        by_cases hl : fetchLimit s ≤ s.rxr
        · simp only [hl, if_true, orIncomplete] at hw
          cases hc : s.fComplete
          · simp [hc] at hw; exact .inl ⟨hs', rfl, .inr hw.symm⟩
          · simp [hc] at hw; exact .inr (.inl ⟨hs', rfl, .inr (.inl ⟨ho', hl, hw⟩)⟩)
        · simp only [hl, if_false, fetchCommand] at hw
          have hl' : s.rxr < fetchLimit s := by omega
          cases hd : decodeCommand s.cfg (fetchBytes s) with
          | ok r =>
            obtain ⟨i, rest⟩ := r
            simp only [hd] at hw
            exact .inr (.inr ⟨i, rest, hs', rfl, ho', hl', rfl, hw⟩)
          | error e =>
            cases hc : s.fComplete
            · refine .inl ⟨hs', rfl, .inr ?_⟩
              cases e <;> simp only [hd, orIncomplete, hc] at hw <;> simpa using hw.symm
            · refine .inr (.inl ⟨hs', rfl, .inr (.inr ?_)⟩)
              cases e <;> simp only [hd, orIncomplete, hc, if_true] at hw
              · exact .inl ⟨_, ho', hl', rfl, hw⟩
              all_goals exact .inr ⟨_, ho', hl', by simp, rfl, hw⟩

end Sys2Proof.Machine
end

