-- ==== Sys2Proof/Tests/Slice0.lean ====
section
/-! SUPPORT. Tests on fixed values: ill-formed terms refused, words written out from the spec's encodings, single
steps whose results are those of the vectors of 95_test_vectors.md, and for each statement that has hypotheses a
state and operands that meet them. -/

namespace Sys2Proof.Tests

open Sys2Proof Sys2Proof.Machine

/-! ## Helpers -/

/-- A node with the table of the vectors, `[01]`. -/
def node : State := { State.reset with atab := [0x01], downstreamReady := true, trace := [] }

/-- A host in a state of the session. -/
def hostAt (h : HostState) : State :=
  { State.init { Config.default with role := .host } with hs := h, connectedIn := true, trace := [] }

/-- A packet with a payload given as a list; no bytes where it is too long. -/
def packet (a : Byte) (payload : List Byte) : List Byte :=
  match Payload.ofBytes? payload with
  | some p => fcPacket a p
  | none => []

/-- The longest payload. -/
def longest : Payload := ⟨List.replicate 254 0, by rw [List.length_replicate]⟩

/-- A verified frame in the buffer. -/
def verified (a : Byte) (payload : List Byte) (s : State) : State :=
  { s with
    rxb := Memory.ofBytes 0 (packet a payload), rxw := cursor (payload.length + 3), rxr := 2
    fFraming := false, fComplete := true }

/-- A frame of which `bytes` have arrived. -/
def arriving (bytes : List Byte) (s : State) : State :=
  { s with rxb := Memory.ofBytes 0 bytes, rxw := cursor bytes.length, rxr := 2, fFraming := true }

/-- A host that has taken the status byte of the reply `payload` in a wait state. -/
def replied (h : HostState) (payload : List Byte) : State :=
  { verified 0x00 payload (hostAt h) with phase := .hostReport, tick := 3 }

/-- A field of the next state. -/
def after {α : Type} (f : State → α) : Outcome → Option α
  | .next t => some (f t)
  | .fault _ => none
  | .refused _ => none

/-- The bytes a state's trace has put on the wire. -/
def wireOf (s : State) : List Byte :=
  s.trace.filterMap fun e => match e with | .write b => some b | _ => none

/-! ## Well-formedness -/

theorem test_wf_mainid_zero_byte : (Instr.mainid [0x41, 0x00]).wellFormed Config.default = false := by decide
theorem test_wf_output1_too_long :
    (Instr.output1 (List.replicate 256 0)).wellFormed Config.default = false := by
  rw [Instr.wellFormed, List.length_replicate]; rfl
theorem test_wf_charout_too_long :
    (Instr.charout (List.replicate 256 0)).wellFormed Config.default = false := by
  rw [Instr.wellFormed, List.length_replicate]; rfl
theorem test_wf_anlout_odd : (Instr.anlout [0x01]).wellFormed Config.default = false := by decide
theorem test_wf_anlout_too_long :
    (Instr.anlout (List.replicate 512 0)).wellFormed Config.default = false := by
  rw [Instr.wellFormed, List.length_replicate]; rfl
theorem test_wf_vendor_no_subop : (Instr.vendor []).wellFormed Config.default = false := by decide
theorem test_wf_vendor_unknown_subop :
    (Instr.vendor [0x99, 0, 0, 0, 0]).wellFormed Config.default = false := by decide
theorem test_wf_vendor_wrong_length :
    (Instr.vendor [0x18, 0, 0, 0]).wellFormed Config.default = false := by decide
theorem test_legal_ndev : { Config.default with ndev := 0 }.legal = false := by decide
theorem test_legal_tickBits : { Config.default with tickBits := 0 }.legal = false := by decide
theorem test_legal_subop_offset : { Config.default with vendorSubopOffset := 0 }.legal = false := by decide
theorem test_legal_tSettle : { Config.default with tSettle := 65536 }.legal = false := by decide
theorem test_legal_tResponse : { Config.default with tResponse := 65536 }.legal = false := by decide
theorem test_legal_tReadyGrace : { Config.default with tReadyGrace := 65536 }.legal = false := by decide
theorem test_legal_vendor_short : { Config.default with vendorLen := [(0x18, 1)] }.legal = false := by decide
theorem test_legal_vendor_long : { Config.default with vendorLen := [(0x18, 256)] }.legal = false := by decide

/-! ## Decoding: bytes written out from rules R112 and R120, R104, R105, R110, R111, R73 -/

theorem test_decode_ioident : decode Config.default .command [0x10] = .ok (.ioident, []) := rfl
theorem test_decode_cmdrev : decode Config.default .command [0x11, 0x12] = .ok (.cmdrev, [0x12]) := rfl
theorem test_decode_jvsrev : decode Config.default .command [0x12] = .ok (.jvsrev, []) := rfl
theorem test_decode_commver : decode Config.default .command [0x13] = .ok (.commver, []) := rfl
theorem test_decode_featchk : decode Config.default .command [0x14] = .ok (.featchk, []) := rfl
theorem test_decode_mainid :
    decode Config.default .command [0x15, 0x41, 0x42, 0x00, 0x20] = .ok (.mainid [0x41, 0x42], [0x20]) := rfl
theorem test_decode_swinp :
    decode Config.default .command [0x20, 0x02, 0x03, 0x21] = .ok (.swinp 0x02 0x03, [0x21]) := rfl
theorem test_decode_coininp : decode Config.default .command [0x21, 0x02] = .ok (.coininp 0x02, []) := rfl
theorem test_decode_anlinp : decode Config.default .command [0x22, 0x08] = .ok (.anlinp 0x08, []) := rfl
theorem test_decode_rotinp : decode Config.default .command [0x23, 0x02] = .ok (.rotinp 0x02, []) := rfl
theorem test_decode_keyinp : decode Config.default .command [0x24] = .ok (.keyinp, []) := rfl
theorem test_decode_scrposinp : decode Config.default .command [0x25, 0x01] = .ok (.scrposinp 0x01, []) := rfl
theorem test_decode_retry : decode Config.default .command [0x2F] = .ok (.retry, []) := rfl
theorem test_decode_coindec :
    decode Config.default .command [0x30, 0x01, 0x02, 0x03] = .ok (.coindec 0x01 0x02 0x03, []) := rfl
theorem test_decode_payinc :
    decode Config.default .command [0x31, 0x01, 0x02, 0x05] = .ok (.payinc 0x01 0x02 0x05, []) := rfl
theorem test_decode_output1 :
    decode Config.default .command [0x32, 0x03, 0xAA, 0xBB, 0xCC, 0x10] =
      .ok (.output1 [0xAA, 0xBB, 0xCC], [0x10]) := rfl
theorem test_decode_anlout :
    decode Config.default .command [0x33, 0x02, 0x01, 0x02, 0x03, 0x04] =
      .ok (.anlout [0x01, 0x02, 0x03, 0x04], []) := rfl
theorem test_decode_charout :
    decode Config.default .command [0x34, 0x01, 0x41] = .ok (.charout [0x41], []) := rfl
theorem test_decode_coininc :
    decode Config.default .command [0x35, 0x01, 0x02, 0x03] = .ok (.coininc 0x01 0x02 0x03, []) := rfl
theorem test_decode_vendor :
    decode Config.default .command [0x70, 0x18, 0x01, 0x02, 0x03, 0x04] =
      .ok (.vendor [0x18, 0x01, 0x02, 0x03, 0x04], []) := rfl
theorem test_decode_commsup : decode Config.default .command [0xD0] = .ok (.commsup, []) := rfl
theorem test_decode_reset : decode Config.default .command [0xF0, 0xD9] = .ok (.reset 0xD9, []) := rfl
theorem test_decode_setaddr : decode Config.default .command [0xF1, 0x01] = .ok (.setaddr 0x01, []) := rfl
theorem test_decode_commchg : decode Config.default .command [0xF2, 0x01] = .ok (.commchg 0x01, []) := rfl
theorem test_decode_sync : decode Config.default .wire [0xE0] = .ok (.sync, []) := rfl
theorem test_decode_mark : decode Config.default .wire [0xD0] = .ok (.mark, []) := rfl
theorem test_decode_stOk : decode Config.default .status [0x01] = .ok (.stOk, []) := rfl
theorem test_decode_stUnknown : decode Config.default .status [0x02] = .ok (.stUnknown, []) := rfl
theorem test_decode_stSumerr : decode Config.default .status [0x03] = .ok (.stSumerr, []) := rfl
theorem test_decode_stOverflow : decode Config.default .status [0x04] = .ok (.stOverflow, []) := rfl
theorem test_decode_rpOk : decode Config.default .report [0x01] = .ok (.rpOk, []) := rfl
theorem test_decode_addrHost : decode Config.default .address [0x00] = .ok (.addrHost, []) := rfl
theorem test_decode_addrBcast : decode Config.default .address [0xFF] = .ok (.addrBcast, []) := rfl

/-- Bytes that are no instruction are refused by name (vectors V28, V46, V48, V109). -/
theorem test_decode_refuses :
    decode Config.default .command [0x99] = .error (.unknownOpcode 0x99) ∧
    decode Config.default .command [0x70, 0x99] = .error (.unknownOpcode 0x70) ∧
    decode Config.default .command [0x15, 0x41, 0x42] = .error .incomplete ∧
    decode Config.default .command [0x32, 0x05, 0xAA] = .error (.overrun 7) ∧
    decode Config.default .wire [0x01] = .error (.plainByte 0x01) ∧
    decode Config.default .status [0x05] = .error (.plainByte 0x05) ∧
    decode Config.default .report [] = .error .noByte := ⟨rfl, rfl, rfl, rfl, rfl, rfl, rfl⟩

/-- Sizes at the ends of their ranges (vectors V40, V41, V43, V26). -/
theorem test_sizes :
    ctSize Config.default [0x32, 0x00] 2 = .size 2 ∧ ctSize Config.default [0x32, 0xFF] 2 = .size 257 ∧
    ctSize Config.default [0x33, 0x7F] 2 = .size 256 ∧ ctSize Config.default [0x33, 0xFF] 2 = .size 512 ∧
    ctSize Config.default [0x15, 0x00] 2 = .size 2 := ⟨rfl, rfl, rfl, rfl, rfl⟩

/-- One word at each level, fetched and run as the first instruction after reset. -/
theorem test_withFetchWord_swinp :
    step (State.reset.withFetchWord 8 0x20) = exec (.swinp 0 0) (State.reset.withFetchWord 8 0x20) := rfl
theorem test_withFetchWord_sync :
    step (State.reset.withFetchWord 8 0xE0) = exec .sync (State.reset.withFetchWord 8 0xE0) := rfl
theorem test_withFetchWord_stUnknown :
    step (State.reset.withFetchWord 8 0x02) = exec .stUnknown (State.reset.withFetchWord 8 0x02) := rfl
theorem test_withFetchWord_addrHost :
    step (State.reset.withFetchWord 8 0x00) = exec .addrHost (State.reset.withFetchWord 8 0x00) := rfl

/-! ## Single steps, with the results of the vectors -/

/-- Vector V9. -/
theorem test_encode_v9 :
    fcEncode (packet 0xD0 [0xD0, 0xE0]) = [0xE0, 0xD0, 0xCF, 0x03, 0xD0, 0xCF, 0xD0, 0xDF, 0x83] := by decide
/-- Vector V5: an escaped checksum. -/
theorem test_encode_v5 : fcEncode (packet 0x01 [0xDD]) = [0xE0, 0x01, 0x02, 0xDD, 0xD0, 0xDF] := by decide
/-- Vector V54: a second escape marker stores nothing. -/
theorem test_decode_v54 :
    let t := [0xE0, 0x01, 0x02, 0xD0, 0xD0, 0xCF, 0xD3].foldl (fun s b => fcDecodeByte b s) node
    t.fComplete = true ∧ rxSlice t 0 t.rxw.val = [0x01, 0x02, 0xD0, 0xD3] := by decide
/-- Vector V55: an escaped `FF` is stored as `00`. -/
theorem test_decode_v55 :
    let t := [0xE0, 0xD0, 0xFF, 0x03, 0x01, 0x01, 0x05].foldl (fun s b => fcDecodeByte b s) (hostAt .ready)
    t.fComplete = true ∧ rxSlice t 0 t.rxw.val = [0x00, 0x03, 0x01, 0x01, 0x05] := by decide
/-- Vector V65: a failed reset frame is dropped in silence. -/
theorem test_decode_v65 :
    let t := [0xE0, 0xFF, 0x03, 0xF0, 0xD9, 0x00].foldl (fun s b => fcDecodeByte b s) node
    t.fSumerr = false ∧ t.fFraming = false ∧ t.rxw = 0 := by decide
/-- Vector V69: a broadcast frame of length zero fails its checksum. -/
theorem test_decode_v69 :
    let t := [0xE0, 0xFF, 0x00].foldl (fun s b => fcDecodeByte b s) node
    t.fSumerr = true ∧ t.rxw = 2 := by decide

/-- Vector V80: the report of `CMDREV`. -/
theorem test_cmdrev_v80 :
    after pendingReports (exec .cmdrev (verified 0x01 [0x11] node)) = some [0x01, 0x13] := by decide
/-- Vector V82. -/
theorem test_commver_v82 :
    after pendingReports (exec .commver (verified 0x01 [0x13] node)) = some [0x01, 0x10] := by decide
/-- Vector V81. -/
theorem test_jvsrev_v81 :
    after pendingReports (exec .jvsrev (verified 0x01 [0x12] node)) = some [0x01, 0x30] := by decide
/-- Vector V85. -/
theorem test_commsup_v85 :
    after pendingReports (exec .commsup (verified 0x01 [0xD0] node)) = some [0x01, 0x00] := by decide
/-- Vector V84. -/
theorem test_mainid_v84 :
    after pendingReports (exec (.mainid [0x41, 0x42]) (verified 0x01 [0x15, 0x41, 0x42, 0x00] node)) =
      some [0x01] := by decide
/-- Vector V83: the status packet with three reports. -/
theorem test_stOk_v83 :
    after wireOf (exec .stOk { node with
      txr := Memory.ofBytes 0 [0x01, 0x13, 0x01, 0x30, 0x01, 0x10], txn := 6 }) =
      some [0xE0, 0x00, 0x08, 0x01, 0x01, 0x13, 0x01, 0x30, 0x01, 0x10, 0x5F] := by decide
/-- Vector V92: filling the last slot asserts the signals. -/
theorem test_stOk_v92 :
    after (fun t => (t.atab, t.trace.take 2)) (exec .stOk { node with
      cfg := { Config.default with ndev := 2 }, atab := [0x01, 0xFF], newaddr := 0x02 }) =
      some ([0x01, 0x02], [.readyOut true, .ledOut true]) := by decide
/-- Vector V94: the signal was false when the frame began. -/
theorem test_setaddr_v94 :
    after (fun t => (t.atab, t.newaddr, wireOf t)) (exec (.setaddr 0x01)
      { verified 0xFF [0xF1, 0x01] node with atab := [0xFF], dsrSnap := false }) =
      some ([0xFF], 0xFF, []) := by decide
/-- Vector V90: the address is staged. -/
theorem test_setaddr_v90 :
    after (fun t => (t.newaddr, pendingReports t)) (exec (.setaddr 0x01)
      { verified 0xFF [0xF1, 0x01] node with atab := [0xFF], dsrSnap := true }) =
      some (0x01, [0x01]) := by decide
/-- Vector V97: the device index is the one before the reset. -/
theorem test_reset_v97 :
    after (fun t => (t.atab, t.trace)) (exec (.reset 0xD9) (verified 0x01 [0xF0, 0xD9] node)) =
      some ([0xFF], [.readyOut false, .ledOut false,
        .returned (.command (some 0) [0xF0, 0xD9] true)]) := by decide
/-- Vector V115: withheld until verified. -/
theorem test_reset_v115 :
    after (fun t => (t.atab, t.trace)) (exec (.reset 0xD9) (arriving [0x01, 0x03, 0xF0, 0xD9] node)) =
      some ([0x01], [.returned .incomplete]) := by decide
/-- Vector V86: the switch is refused. -/
theorem test_commchg_v86 :
    after (fun t => (t.commMode, wireOf t)) (exec (.commchg 0x01) (verified 0x01 [0xF2, 0x01] node)) =
      some (.base, []) := by decide
/-- Vector V88. -/
theorem test_retry_v88 :
    after wireOf (exec .retry { verified 0x01 [0x2F] node with
      txlast := some [0x00, 0x04, 0x01, 0x01, 0x13, 0x19] }) =
      some [0xE0, 0x00, 0x04, 0x01, 0x01, 0x13, 0x19] := by decide
/-- Vector V89: the command as the application gets it. -/
theorem test_ioident_v89 :
    after (fun t => t.trace) (exec .ioident (verified 0x01 [0x10] node)) =
      some [.returned (.command (some 0) [0x10] true)] := by decide
/-- Vector V113. -/
theorem test_vendor_v113 :
    after (fun t => (t.rxr, t.trace)) (exec (.vendor [0x18, 0, 0, 0, 0])
      (verified 0x01 [0x70, 0x18, 0, 0, 0, 0] node)) =
      some (8, [.returned (.command (some 0) [0x70, 0x18, 0, 0, 0, 0] true)]) := by decide
/-- Vector V100: the event once, and status `02`. -/
theorem test_unknown_v100 :
    after (fun t => (t.trace.take 1, wireOf t)) (step { verified 0x01 [0x99] node with
      phase := .nodeLoop false }) =
      some ([.evUnknownOpcode 0x99], [0xE0, 0x00, 0x02, 0x02, 0x04]) := by decide
/-- Vector V103. -/
theorem test_stSumerr_v103 :
    after wireOf (exec .stSumerr { node with fSumerr := true }) =
      some [0xE0, 0x00, 0x02, 0x03, 0x05] := by decide
/-- Vector V105. -/
theorem test_stOverflow_v105 :
    after (fun t => (t.fTxovf, wireOf t)) (exec .stOverflow { node with fTxovf := true }) =
      some (false, [0xE0, 0x00, 0x02, 0x04, 0x06]) := by decide
/-- Vector V120. -/
theorem test_rpOk_v120 :
    after (fun t => (t.hs, t.hdev, t.ht0)) (exec .rpOk (replied .addressWait [0x01, 0x01])) =
      some (.readyCheck, 1, 3) := by decide
/-- Vector V123: one byte too many. -/
theorem test_rpOk_v123 :
    after (fun t => t.hs) (exec .rpOk (replied .addressWait [0x01, 0x01, 0x00])) =
      some .invalidResponse := by decide
/-- Vector V131: the clock across its wrap. -/
theorem test_timeout_v131 :
    after (fun t => t.hs) (step { hostAt .addressWait with phase := .hostArm, ht0 := 0xFFFE, tick := 3 }) =
      some .timeout := by decide
/-- Vector V136. -/
theorem test_address_v136 :
    after (fun t => (t.hs, wireOf t)) (step { hostAt .address with phase := .hostArm, hdev := 253 }) =
      some (.addressWait, [0xE0, 0xFF, 0x03, 0xF1, 0xFE, 0xF1]) := by decide
/-- Vectors V140, V141, V144, V146. -/
theorem test_features :
    parseFeatures [1, 1, 1, 2, 0x0C, 0, 2, 2, 0, 0, 0] = some (2, 12, 2) ∧
    parseFeatures [1, 1, 0] = some (0, 0, 0) ∧ parseFeatures [1, 1, 1, 2, 0x0C, 0, 0, 0] = none ∧
    parseFeatures [1, 1, 1, 1, 8, 0, 1, 2, 0x10, 0, 0] = some (2, 16, 0) := by decide

/-- A host in `WAIT_SYNC` for device 1, cached as two players, twelve buttons, two coin slots. -/
def syncing (payload : List Byte) : State :=
  { replied .waitSync payload with
    hdev := 1, htotal := 2
    hplayers := #v[2, 0, 0, 0], hbuttons := #v[12, 0, 0, 0], hcoinslots := #v[2, 0, 0, 0] }

/-- Vector V150: the switch maps. -/
theorem test_sync_v150 :
    after (fun t => (t.hs, t.hsw0.toList, t.hsw1.toList, t.hcoin))
      (exec .rpOk (syncing [1, 1, 0, 0x80, 0, 0, 0x40, 1, 0, 0, 0, 0])) =
      some (.ready, [0x80, 0, 0, 0], [0, 0x40, 0, 0], 0) := by decide
/-- Vector V152: the second slot has coins. -/
theorem test_sync_v152 :
    after (fun t => (t.hs, t.hcoin, wireOf t))
      (exec .rpOk (syncing [1, 1, 0, 0x80, 0, 0, 0x40, 1, 0, 0, 0, 2])) =
      some (.waitCoinSync, 0x02, [0xE0, 0x01, 0x05, 0x30, 0x02, 0x00, 0x01, 0x39]) := by decide

/-! ## Witnesses

`witness_<Name>` shows a state and operands that meet together the hypotheses of the statement of that name; a
letter after the name tells the clauses of one statement apart. -/

/-- A node whose turn it is, at the head of the loop of `NE_NEXT`. -/
def looping (s : State) : State := { s with phase := .nodeLoop true }

/-- A node in the loop of `FC_RECEIVE`. -/
def receiving (s : State) : State := { s with phase := .receive (.neNext false) }

/-- A state with `n` reports pending. -/
def reports (n : Fin 254) (s : State) : State := { s with txn := n }

theorem witness_DecodeEncodeAgree :
    (Instr.mainid []).wellFormed Config.default = true ∧
    (Instr.vendor [0x18, 1, 2, 3, 4]).wellFormed Config.default = true := by decide
theorem witness_DecodeEncodeAgree_longest :
    (Instr.anlout (List.replicate 510 0x5A)).wellFormed Config.default = true ∧
    (Instr.output1 (List.replicate 255 0)).wellFormed Config.default = true := by
  simp only [Instr.wellFormed, List.length_replicate]; exact ⟨rfl, rfl⟩

theorem witness_EncodeDecodeAgree :
    Config.default.legal = true ∧
    decode Config.default .command [0x33, 0x01, 0xAA, 0xBB, 0x10] = .ok (.anlout [0xAA, 0xBB], [0x10]) :=
  ⟨by decide, rfl⟩

theorem witness_CommandTableComplete_fix : ((0x10 : Byte), 1) ∈ [((0x10 : Byte), 1), (0x11, 1), (0x12, 1), (0x13, 1),
      (0x14, 1), (0x20, 3), (0x21, 2), (0x22, 2), (0x23, 2), (0x24, 1), (0x25, 2), (0x2F, 1), (0x30, 4),
      (0x31, 4), (0x35, 4), (0xD0, 1), (0xF0, 2), (0xF1, 2), (0xF2, 2)] ∧ 1 ≤ 1 := by decide
theorem witness_CommandTableComplete_cnt : ((0x33 : Byte), 2) ∈ [((0x32 : Byte), 1), (0x33, 2), (0x34, 1)] ∧ 2 ≤ 2 := by decide
theorem witness_CommandTableComplete_str :
    (∀ b ∈ [(0x41 : Byte)], b ≠ 0) ∧ [(0x41 : Byte)].length + 2 ≤ 3 := by decide
theorem witness_CommandTableComplete_vnd :
    Config.default.legal = true ∧
    ([0x70, 0x18] : List Byte)[Config.default.vendorSubopOffset]? = some 0x18 ∧
    Config.default.vendorSubopOffset + 1 ≤ 2 ∧ Config.default.vendorLen.lookup 0x18 = some 6 ∧
    Config.default.vendorLen.lookup 0x99 = none := by decide
theorem witness_CommandTableComplete_stable :
    1 ≤ 2 ∧ ctSize Config.default [0x20, 0x02, 0x03] 1 ≠ .incomplete := by decide
theorem witness_OtherOpcodesAreUnknown :
    (0x26 : Byte) ∉ [(0x10 : Byte), 0x11, 0x12, 0x13, 0x14, 0x15, 0x20, 0x21, 0x22, 0x23, 0x24, 0x25, 0x2F,
      0x30, 0x31, 0x32, 0x33, 0x34, 0x35, 0x70, 0xD0, 0xF0, 0xF1, 0xF2] ∧ 1 ≤ 1 := by decide

theorem witness_PacketLayout : longest.bytes.length = 254 := List.length_replicate
/-- A payload operand of more than 254 bytes does not exist (rule R190, item U9). -/
theorem test_payload_too_long : Payload.ofBytes? (List.replicate 255 0) = none := by
  unfold Payload.ofBytes?; rw [dif_neg (by rw [List.length_replicate]; decide)]
theorem witness_WireFrameRoundTrip :
    Memory.wf node.rxb = true ∧ node.fComplete = false ∧ node.fSumerr = false ∧ node.cfg.role = .node ∧
    0x01 ∈ node.atab ∧
    [[0xE0, 0x01], [0x02, 0x10], [0x13]].flatten = fcEncode (fcPacket 0x01 ⟨[0x10], by simp⟩) ∧
    [(0x10 : Byte)].length ≤ 253 := by decide
theorem witness_WireFrameRoundTrip_longest :
    [fcEncode (fcPacket 0xFF longest)].flatten = fcEncode (fcPacket 0xFF longest) ∧
    longest.bytes.length = 254 := ⟨List.flatten_singleton, List.length_replicate⟩
theorem witness_ReceiveLoopDecodesTheOldestByte :
    let s := { receiving (arriving [0x01, 0x02, 0x10] node) with chanRx := [0x13] }
    s.inputs = [] ∧ s.phase = .receive (.neNext false) ∧ framePending s = false ∧ frameEndDue s = false ∧
    s.chanRx = 0x13 :: [] := by decide
theorem witness_ReceiveLoopDecodesTheOldestByte_empty :
    let s := receiving (arriving [0x01, 0x02, 0x10] node)
    let h := { hostAt .ready with phase := .receive .heRun }
    nextTurn s = .block s ∧ s.fComplete = false ∧ s.fSumerr = false ∧
    ¬(s.fFraming = true ∧ 2 ≤ s.rxw.val ∧ s.rxw.val = (rxRead s 1).toNat + 2) ∧ s.chanRx = [] ∧
    s.phase = .receive (.neNext false) ∧ nextTurn h = .block h ∧ h.fComplete = false ∧
    h.fSumerr = false ∧ h.fFraming = false ∧ h.chanRx = [] ∧ h.phase = .receive .heRun := by
  and_intros <;> first | rfl | decide
theorem witness_SingleByteErrorIsDetected :
    let s := arriving [0x01, 0x02, 0x10, 0x14] node
    s.rxw.val = [(0x10 : Byte)].length + 3 ∧
    rxSlice s 0 s.rxw.val = (fcPacket 0x01 ⟨[0x10], by simp⟩).set 3 0x14 ∧ 3 < [(0x10 : Byte)].length + 3 ∧ 3 ≠ 1 ∧
    (fcPacket 0x01 ⟨[0x10], by simp⟩)[3]? ≠ some 0x14 ∧ s.fComplete = false := by decide
theorem witness_FrameClearAndDisconnect : node.cfg.role = .node ∧ (hostAt .ready).cfg.role = .host := by decide
theorem witness_WireSymbolsFrameAndEscape :
    node.cfg.role = .node ∧ (hostAt .ready).cfg.role = .host ∧ (arriving [] node).fFraming = true ∧
    node.fFraming = false := by decide
theorem witness_PlainByteIsStoredAtTheWriteCursor_idle :
    let s := { receiving node with chanRx := [0x55] }
    nextTurn s = .block s ∧ s.phase = .receive (.neNext false) ∧ framePending s = false ∧
    frameEndDue s = false ∧ s.chanRx = 0x55 :: [] ∧ (0x55 : Byte) ≠ 0xE0 ∧ (0x55 : Byte) ≠ 0xD0 ∧
    Memory.wf s.rxb = true ∧ s.fFraming = false := by and_intros <;> first | rfl | decide
theorem witness_PlainByteIsStoredAtTheWriteCursor_full :
    let s := { receiving (arriving [0x01, 0xFF] node) with chanRx := [0x55], rxw := 256 }
    nextTurn s = .block s ∧ s.phase = .receive (.neNext false) ∧ framePending s = false ∧
    frameEndDue s = false ∧ s.chanRx = 0x55 :: [] ∧ (0x55 : Byte) ≠ 0xE0 ∧ (0x55 : Byte) ≠ 0xD0 ∧
    Memory.wf s.rxb = true ∧ s.fFraming = true ∧ s.rxw.val = 256 := by and_intros <;> first | rfl | decide
theorem witness_PlainByteIsStoredAtTheWriteCursor_room :
    let s := { receiving (arriving [0x01, 0xFF] node) with chanRx := [0x55], rxw := 255, fEsc := true }
    nextTurn s = .block s ∧ s.phase = .receive (.neNext false) ∧ framePending s = false ∧
    frameEndDue s = false ∧ s.chanRx = 0x55 :: [] ∧ (0x55 : Byte) ≠ 0xE0 ∧ (0x55 : Byte) ≠ 0xD0 ∧
    Memory.wf s.rxb = true ∧ s.fFraming = true ∧ s.rxw.val < 256 := by and_intros <;> first | rfl | decide

theorem witness_FrameEndOutcomes_filtered :
    (Instr.addrHost, (0x00 : Byte)) ∈ [(Instr.addrHost, (0x00 : Byte)), (.addrBcast, 0xFF)] ∧
    (0x00 : Byte) ≠ 0xFF ∧ node.cfg.role = .node ∧ 0x00 ∉ node.atab := by decide
theorem witness_FrameEndOutcomes_good :
    let s := arriving [0x00, 0x02, 0x01, 0x03] (hostAt .ready)
    s.cfg.role = .host ∧ sum8 (rxSlice s 0 (s.rxw.val - 1)) = rxRead s (s.rxw.val - 1) := by decide
theorem witness_FrameEndOutcomes_silent :
    let s := arriving [0xFF, 0x03, 0xF0, 0xD9, 0x00] node
    sum8 (rxSlice s 0 (s.rxw.val - 1)) ≠ rxRead s (s.rxw.val - 1) ∧ 2 ≤ (rxRead s 1).toNat ∧
    rxRead s 2 = 0xF0 := by decide
theorem witness_FrameEndOutcomes_bad :
    let s := arriving [0xFF, 0x02, 0x10, 0x00] node
    sum8 (rxSlice s 0 (s.rxw.val - 1)) ≠ rxRead s (s.rxw.val - 1) ∧ s.cfg.role = .node ∧
    ¬(2 ≤ (rxRead s 1).toNat ∧ (rxRead s 2 = 0xF0 ∨ rxRead s 2 = 0xF2)) := by decide
theorem witness_FrameEndOutcomes_step :
    let s := receiving (arriving [0x01, 0x02, 0x10, 0x13] node)
    nextTurn s = .block s ∧ s.phase = .receive (.neNext false) ∧ framePending s = false ∧ s.fFraming = true ∧ 2 ≤ s.rxw.val ∧
    s.rxw.val = (rxRead s 1).toNat + 2 ∧
    rxRead s 0 = 0x01 ∧ s.cfg.role = .node ∧ 0x01 ∈ s.atab ∧
    sum8 (rxSlice s 0 (s.rxw.val - 1)) = rxRead s (s.rxw.val - 1) := by
  and_intros <;> first | rfl | decide
theorem witness_FrameEndOutcomes_step_filtered :
    let s := receiving (arriving [0x02, 0x02, 0x10, 0x14] node)
    nextTurn s = .block s ∧ framePending s = false ∧ s.fFraming = true ∧ 2 ≤ s.rxw.val ∧
    s.rxw.val = (rxRead s 1).toNat + 2 ∧
    rxRead s 0 = 0x02 ∧ (0x02 : Byte) ≠ 0xFF ∧ s.cfg.role = .node ∧ 0x02 ∉ s.atab := by
  and_intros <;> first | rfl | decide
theorem witness_FrameEndOutcomes_step_host :
    let s := { arriving [0x00, 0x02, 0x01, 0x03] (hostAt .waitIoid) with phase := .receive .heRun }
    nextTurn s = .block s ∧ s.phase = .receive .heRun ∧ framePending s = false ∧ s.fFraming = true ∧ 2 ≤ s.rxw.val ∧
    s.rxw.val = (rxRead s 1).toNat + 2 ∧
    s.cfg.role = .host ∧ rxRead s 0 = 0x00 ∧ (0x01 : Byte) ≠ 0x00 := by
  and_intros <;> first | rfl | decide
theorem witness_FrameEndOutcomes_step_bad :
    let s := receiving (arriving [0x01, 0x02, 0x10, 0x14] node)
    nextTurn s = .block s ∧ framePending s = false ∧ s.fFraming = true ∧ 2 ≤ s.rxw.val ∧
    s.rxw.val = (rxRead s 1).toNat + 2 ∧
    s.cfg.role = .node ∧ rxRead s 0 ∈ s.atab ∧ sum8 (rxSlice s 0 (s.rxw.val - 1)) ≠ rxRead s (s.rxw.val - 1) ∧
    ¬(2 ≤ (rxRead s 1).toNat ∧ (rxRead s 2 = 0xF0 ∨ rxRead s 2 = 0xF2)) := by
  and_intros <;> first | rfl | decide
theorem witness_FrameEndOutcomes_step_silent :
    let s := receiving (arriving [0x01, 0x03, 0xF2, 0x01, 0x00] node)
    nextTurn s = .block s ∧ framePending s = false ∧ s.fFraming = true ∧ 2 ≤ s.rxw.val ∧
    s.rxw.val = (rxRead s 1).toNat + 2 ∧
    s.cfg.role = .node ∧ rxRead s 0 ∈ s.atab ∧ sum8 (rxSlice s 0 (s.rxw.val - 1)) ≠ rxRead s (s.rxw.val - 1) ∧
    2 ≤ (rxRead s 1).toNat ∧ rxRead s 2 = 0xF2 := by
  and_intros <;> first | rfl | decide
theorem witness_PendingFrameStallsTheDecoder :
    let s := { receiving (verified 0x01 [0x10] node) with chanRx := [0x77, 0x88] }
    s.fComplete = true ∧ nextTurn s = .block s ∧ s.phase = .receive (.neNext false) ∧
    step s = .next { s with phase := .nodeLoop false } := ⟨rfl, rfl, rfl, rfl⟩
theorem witness_PendingFrameStallsTheDecoder_host :
    let s := { verified 0x00 [0x01, 0x01] (hostAt .waitIoid) with phase := .receive .heRun }
    s.fComplete = true ∧ nextTurn s = .block s ∧ s.phase = .receive .heRun := ⟨rfl, rfl, rfl⟩
theorem witness_TransmissionPortCalls :
    node.commMode = .base ∧ { node with commMode := .fast1 }.commMode ≠ .base := by decide

theorem witness_StepRunsTheDecodedInstruction_command :
    let s := looping (verified 0x01 [0x20, 0x02, 0x02] node)
    nextTurn s = .block s ∧ s.phase = .nodeLoop true ∧ s.fSumerr = false ∧ s.fTxovf = false ∧
    s.fComplete = true ∧ 5 = (rxRead s 1).toNat + 1 ∧ s.rxr < 5 ∧
    decodeCommand s.cfg (rxSlice s s.rxr 5) = .ok (.swinp 0x02 0x02, []) := by and_intros <;> first | rfl | decide
theorem witness_StepRunsTheDecodedInstruction_speculative :
    let s := looping (arriving [0x01, 0x08, 0x20, 0x02, 0x02] node)
    nextTurn s = .block s ∧ s.phase = .nodeLoop true ∧ s.fSumerr = false ∧ s.fTxovf = false ∧
    s.fComplete = false ∧ s.fFraming = true ∧ 2 ≤ s.rxw.val ∧ s.cfg.role = .node ∧ rxRead s 0 ∈ s.atab ∧
    5 = min ((rxRead s 1).toNat + 1) s.rxw.val ∧ s.rxr < 5 ∧
    decodeCommand s.cfg (rxSlice s s.rxr 5) = .ok (.swinp 0x02 0x02, []) := by and_intros <;> first | rfl | decide
theorem witness_StepRunsTheDecodedInstruction_wire :
    let s := { receiving node with chanRx := [0xE0] }
    nextTurn s = .block s ∧ framePending s = false ∧ frameEndDue s = false ∧ s.chanRx = 0xE0 :: [] ∧
    decodeWire 0xE0 = some .sync := by and_intros <;> rfl
theorem witness_StepRunsTheDecodedInstruction_address :
    let s := receiving (arriving [0xFF, 0x02, 0x10, 0x11] node)
    nextTurn s = .block s ∧ framePending s = false ∧ frameEndDue s = true ∧
    decodeAddress (rxRead s 0) = some .addrBcast := by and_intros <;> rfl
theorem witness_StepRunsTheDecodedInstruction_status :
    let s := { replied .waitIoid [0x02, 0x01] with phase := .hostArm }
    nextTurn s = .block s ∧ s.phase = .hostArm ∧ s.hs.isWait = true ∧ s.fComplete = true ∧
    rxRead s 0 = 0x00 ∧ 2 ≤ (rxSlice s 2 (s.rxw.val - 1)).length ∧
    decodeStatus ((rxSlice s 2 (s.rxw.val - 1)).getD 0 0) = some .stUnknown := by
  and_intros <;> rfl
theorem witness_StepRunsTheDecodedInstruction_report :
    let s := replied .waitIoid [0x01, 0x01]
    nextTurn s = .block s ∧ s.phase = .hostReport ∧
    decodeReport ((rxSlice s 2 (s.rxw.val - 1)).getD 1 0) = some .rpOk := by
  and_intros <;> rfl
theorem witness_StepRunsTheDecodedInstruction_push :
    let s := { node with phase := .push 0x01 }
    nextTurn s = .block s ∧ s.phase = .push 0x01 ∧ decodeReport 0x01 = some .rpOk := by
  and_intros <;> rfl

theorem witness_NodeTestsInOrder_failed :
    let s := looping { node with fSumerr := true }
    nextTurn s = .block s ∧ s.phase = .nodeLoop true ∧ s.fSumerr = true := by
  and_intros <;> rfl
theorem witness_NodeTestsInOrder_nothing :
    let s := looping node
    nextTurn s = .block s ∧ s.phase = .nodeLoop true ∧ s.fSumerr = false ∧ s.fComplete = false ∧
    s.fFraming = false := by and_intros <;> rfl
theorem witness_NodeTestsInOrder_arriving :
    let s := looping (arriving [0x01, 0x03] node)
    nextTurn s = .block s ∧ s.fSumerr = false ∧ s.fComplete = false ∧ s.fFraming = true ∧
    min ((rxRead s 1).toNat + 1) s.rxw.val ≤ s.rxr := by and_intros <;> rfl
theorem witness_NodeTestsInOrder_elsewhere :
    let s := looping (arriving [0x02, 0x03, 0x10] node)
    nextTurn s = .block s ∧ s.fSumerr = false ∧ s.fComplete = false ∧ s.fFraming = true ∧
    s.cfg.role = .node ∧ rxRead s 0 ≠ 0xFF ∧ rxRead s 0 ∉ s.atab := by
  and_intros <;> first | rfl | decide
theorem witness_NodeTestsInOrder_overflow :
    let s := looping { verified 0x01 [0x10] node with fTxovf := true }
    nextTurn s = .block s ∧ s.fSumerr = false ∧ s.fComplete = true ∧ s.fTxovf = true := by
  and_intros <;> rfl
theorem witness_NodeTestsInOrder_end :
    let s := looping { verified 0x01 [0x10] node with rxr := 3 }
    nextTurn s = .block s ∧ s.fSumerr = false ∧ s.fComplete = true ∧ s.fTxovf = false ∧
    (rxRead s 1).toNat + 1 ≤ s.rxr := by and_intros <;> rfl

theorem witness_CommandErrorsAreAnsweredOnce_unknown :
    let s := looping (verified 0x01 [0x99] node)
    let bytes := rxSlice s s.rxr ((rxRead s 1).toNat + 1)
    nextTurn s = .block s ∧ s.phase = .nodeLoop true ∧ s.cfg.role = .node ∧ s.fSumerr = false ∧
    s.fComplete = true ∧ s.fTxovf = false ∧ s.rxr < (rxRead s 1).toNat + 1 ∧
    ctSize s.cfg bytes bytes.length = .unknown := by and_intros <;> first | rfl | decide
theorem witness_CommandErrorsAreAnsweredOnce_incomplete :
    let s := looping (verified 0x01 [0x32] node)
    let bytes := rxSlice s s.rxr ((rxRead s 1).toNat + 1)
    nextTurn s = .block s ∧ s.cfg.role = .node ∧ s.fSumerr = false ∧ s.fComplete = true ∧
    s.fTxovf = false ∧ s.rxr < (rxRead s 1).toNat + 1 ∧
    ctSize s.cfg bytes bytes.length = .incomplete := by and_intros <;> first | rfl | decide
theorem witness_CommandErrorsAreAnsweredOnce_overrun :
    let s := looping (verified 0x01 [0x20, 0x02] node)
    let bytes := rxSlice s s.rxr ((rxRead s 1).toNat + 1)
    nextTurn s = .block s ∧ s.cfg.role = .node ∧ s.fSumerr = false ∧ s.fComplete = true ∧
    s.fTxovf = false ∧ s.rxr < (rxRead s 1).toNat + 1 ∧
    ctSize s.cfg bytes bytes.length = .size 3 ∧ bytes.length < 3 := by
  and_intros <;> first | rfl | decide
theorem witness_CommandErrorsAreAnsweredOnce_arriving :
    let s := looping (arriving [0x01, 0x02, 0x99] node)
    let limit := min ((rxRead s 1).toNat + 1) s.rxw.val
    let bytes := rxSlice s s.rxr limit
    nextTurn s = .block s ∧ s.fSumerr = false ∧ s.fComplete = false ∧ s.fFraming = true ∧ 2 ≤ s.rxw.val ∧
    s.cfg.role = .node ∧ rxRead s 0 ∈ s.atab ∧ s.rxr < limit ∧
    ctSize s.cfg bytes bytes.length = .unknown := by and_intros <;> first | rfl | decide
theorem witness_CommandErrorsAreAnsweredOnce_cut :
    let s := looping (arriving [0x01, 0x04, 0x32] node)
    let limit := min ((rxRead s 1).toNat + 1) s.rxw.val
    let bytes := rxSlice s s.rxr limit
    nextTurn s = .block s ∧ 2 ≤ s.rxw.val ∧ s.cfg.role = .node ∧ rxRead s 0 ∈ s.atab ∧ s.rxr < limit ∧
    ctSize s.cfg bytes bytes.length = .incomplete := by and_intros <;> first | rfl | decide

theorem witness_SurfacedCommandsGoToTheApplication :
    surfaced (.coindec 1 0 1) = true ∧ node.cfg.role = .node := by decide
theorem witness_SurfacedCommandsGoToTheApplication_step :
    let s := looping (verified 0x01 [0x10] node)
    nextTurn s = .block s ∧ s.phase = .nodeLoop true ∧ s.cfg.legal = true ∧ s.cfg.role = .node ∧
    s.fSumerr = false ∧ s.fTxovf = false ∧ s.fComplete = true ∧ 3 = (rxRead s 1).toNat + 1 ∧ s.rxr < 3 ∧
    decodeCommand s.cfg (rxSlice s s.rxr 3) = .ok (.ioident, []) ∧ surfaced .ioident = true := by
  and_intros <;> first | rfl | decide
theorem witness_SurfacedCommandsGoToTheApplication_speculative :
    let s := looping (arriving [0xFF, 0x03, 0x24, 0x24, 0x4A] node)
    nextTurn s = .block s ∧ s.phase = .nodeLoop true ∧ s.cfg.legal = true ∧ s.cfg.role = .node ∧
    s.fSumerr = false ∧ s.fTxovf = false ∧ s.fComplete = false ∧
    4 = min ((rxRead s 1).toNat + 1) s.rxw.val ∧ s.fFraming = true ∧ 2 ≤ s.rxw.val ∧ rxRead s 0 = 0xFF ∧
    s.rxr < 4 ∧ decodeCommand s.cfg (rxSlice s s.rxr 4) = .ok (.keyinp, [0x24]) ∧
    surfaced .keyinp = true := by and_intros <;> first | rfl | decide
theorem witness_QueriesQueueOkAndOneByte :
    (Instr.cmdrev, node.cfg.cmdRev) ∈ [(Instr.cmdrev, node.cfg.cmdRev),
      (.jvsrev, node.cfg.jvRev), (.commsup, node.cfg.speedMask),
      (.commver, if node.speedYes.contains (.fast1, false) || node.speedYes.contains (.fast2, false)
        then node.cfg.protoVerFast else node.cfg.protoVer)] ∧
    (reports 251 node).cfg.role = .node ∧ Memory.wf (reports 251 node).txr = true ∧
    (reports 251 node).fTxovf = false ∧ (reports 251 node).txn.val ≤ 251 := by decide
theorem witness_QueriesWithoutRoomOverflow :
    Instr.commver ∈ [Instr.cmdrev, .jvsrev, .commsup, .commver] ∧ node.cfg.role = .node ∧
    { node with fTxovf := true }.fTxovf = true ∧ (reports 253 node).fTxovf = false ∧
    (reports 253 node).txn.val = 253 ∧ (reports 252 node).fTxovf = false ∧ (reports 252 node).txn.val = 252 ∧
    Memory.wf (reports 252 node).txr = true := by decide
theorem witness_MainidDropsItsText :
    node.cfg.role = .node ∧ { node with fTxovf := true }.fTxovf = true ∧ (reports 253 node).fTxovf = false ∧
    (reports 253 node).txn.val = 253 ∧ (reports 252 node).fTxovf = false ∧
    (reports 252 node).txn.val ≤ 252 ∧ Memory.wf (reports 252 node).txr = true := by decide
theorem witness_ResetUnassignsEverySlot :
    (verified 0x01 [0xF0, 0xD9] node).cfg.role = .node ∧
    (verified 0x01 [0xF0, 0xD9] node).fComplete = true := by decide
theorem witness_SetaddrStagesOrAbandons_staged :
    let s := { verified 0xFF [0xF1, 0x01] (reports 252 node) with atab := [0xFF], dsrSnap := true }
    s.cfg.role = .node ∧ s.fComplete = true ∧ s.dsrSnap = true ∧ 0xFF ∈ s.atab ∧ s.fTxovf = false ∧
    s.txn.val ≤ 252 ∧ Memory.wf s.txr = true := by decide
theorem witness_SetaddrStagesOrAbandons_full :
    let s := { verified 0xFF [0xF1, 0x01] (reports 253 node) with atab := [0xFF], dsrSnap := true }
    s.cfg.role = .node ∧ s.fComplete = true ∧ s.dsrSnap = true ∧ 0xFF ∈ s.atab ∧ s.fTxovf = false ∧
    s.txn.val = 253 ∧ { s with fTxovf := true }.fTxovf = true := by decide
theorem witness_SetaddrStagesOrAbandons_abandoned :
    let s := verified 0xFF [0xF1, 0x01] node
    s.cfg.role = .node ∧ s.fComplete = true ∧ s.dsrSnap = false ∧ 0xFF ∉ s.atab := by decide
theorem witness_CommchgSwitchesTheSpeed :
    let s := { verified 0x01 [0xF2, 0x01] node with speedYes := [(.fast1, true)] }
    s.cfg.role = .node ∧ s.fComplete = true ∧ s.cfg.speedOf.lookup 0x07 = none ∧
    s.cfg.speedOf.lookup 0x01 = some .fast1 ∧ (CommMode.fast1, true) ∈ s.speedYes ∧
    s.cfg.speedOf.lookup 0x02 = some .fast2 ∧ (CommMode.fast2, true) ∉ s.speedYes := by decide
theorem witness_RetryResendsTheLastPacket :
    let s := verified 0x01 [0x2F] node
    s.cfg.role = .node ∧ s.fComplete = true ∧ s.txlast = none ∧
    { s with txlast := some [0x00, 0x02, 0x01, 0x03] }.txlast = some [0x00, 0x02, 0x01, 0x03] := by decide
theorem witness_WithheldUntilVerified :
    Instr.retry ∈ [Instr.reset 0xD9, .setaddr 0xD9, .commchg 0xD9, .retry] ∧
    (arriving [0x01, 0x03, 0x2F] node).cfg.role = .node ∧
    (arriving [0x01, 0x03, 0x2F] node).fComplete = false := by decide
theorem witness_StatusOkSendsTheReports :
    let s := { node with atab := [0x01, 0xFF], newaddr := 0x02 }
    node.cfg.role = .node ∧ node.newaddr = 0xFF ∧ s.cfg.role = .node ∧ s.newaddr ≠ 0xFF ∧
    s.atab[1]? = some 0xFF ∧ ∀ j, j < 1 → s.atab[j]? ≠ some 0xFF := by decide
theorem witness_ErrorStatusesReplyAndClear :
    (Instr.stSumerr, [(0x00 : Byte), 0x02, 0x03, 0x05]) ∈
      [(Instr.stUnknown, [(0x00 : Byte), 0x02, 0x02, 0x04]), (.stSumerr, [0x00, 0x02, 0x03, 0x05]),
        (.stOverflow, [0x00, 0x02, 0x04, 0x06])] ∧
    node.cfg.role = .node := by decide
theorem witness_PushAppendsOneByte :
    node.cfg.role = .node ∧ { node with fTxovf := true }.fTxovf = true ∧ (reports 253 node).fTxovf = false ∧
    (reports 253 node).txn.val = 253 ∧ (reports 252 node).fTxovf = false ∧
    (reports 252 node).txn.val ≤ 252 ∧ Memory.wf (reports 252 node).txr = true := by decide
theorem witness_PushAppendsOneByte_step :
    let s := { reports 252 node with phase := .push 0x4A }
    nextTurn s = .block s ∧ s.phase = .push 0x4A ∧ s.cfg.role = .node ∧ s.fTxovf = false ∧ s.txn.val ≤ 252 ∧
    Memory.wf s.txr = true := by and_intros <;> rfl
theorem witness_PushAppendsOneByte_step_full :
    let s := { reports 253 node with phase := .push 0x4A }
    nextTurn s = .block s ∧ s.phase = .push 0x4A ∧ s.cfg.role = .node ∧ s.fTxovf = false ∧
    s.txn.val = 253 ∧ { s with fTxovf := true }.fTxovf = true := by and_intros <;> rfl
theorem witness_PushAppendsOneByte_call :
    let s := { node with inputs := [.call (.nePush 0x4A)] }
    s.phase = .idle ∧ s.cfg.role = .node ∧ s.inputs = .call (.nePush 0x4A) :: [] := by decide
theorem witness_NodeQueriesAndLinkLoss :
    let s (c : Call) : State := { node with inputs := [.call c] }
    node.phase = .idle ∧ node.cfg.role = .node ∧ (s .neBusy).inputs = .call .neBusy :: [] ∧
    (s .neOverflow).inputs = .call .neOverflow :: [] ∧ (s .neLinkLost).inputs = .call .neLinkLost :: [] ∧
    (s (.neNext false)).inputs = .call (.neNext false) :: [] := by
  decide

/-- A node at the end of a verified frame that has staged the address of its only slot. -/
def assigning : State :=
  { verified 0xFF [0xF1, 0x01] node with
    atab := [0xFF], dsrSnap := true, newaddr := 0x01, rxr := 4, phase := .nodeLoop false
    txr := Memory.ofBytes 0 [0x01], txn := 1 }

theorem witness_SlotsFillInOrder :
    filledInOrder assigning.atab = true ∧ after (fun t => t.atab) (step assigning) = some [0x01] := by decide
theorem witness_ReadyMeansTheTableIsFull :
    assigning.Inv ∧
    after (fun t => decide (PortEvent.readyOut true ∈ gained assigning t)) (step assigning) = some true := by decide
theorem witness_NodeTransmitsOnlyOnAnEndedFrame :
    assigning.Inv ∧ assigning.cfg.role = .node ∧
    after (fun t => transmits (gained assigning t)) (step assigning) = some true := by decide

theorem witness_PresenceLossDisconnects :
    let s := { hostAt .ready with inputs := [.call .heRun] }
    s.phase = .idle ∧ s.cfg.role = .host ∧ s.inputs = .call .heRun :: [] ∧ s.connectedIn = true ∧
    { s with connectedIn := false }.connectedIn = false ∧
    { s with inputs := [.env (.connected false)] }.inputs = .env (.connected false) :: [] := by decide
/-- A host whose `HE_RUN` has begun. -/
def begun : State := { hostAt .ready with phase := .receive .heRun }

theorem witness_PresenceLossDisconnects_elsewhere :
    (∀ rest, ¬(begun.phase = .idle ∧ begun.cfg.role = .host ∧ begun.inputs = .call .heRun :: rest)) ∧
    (∀ w rest, begun.inputs ≠ .env (.connected w) :: rest) ∧
    step begun = .next { begun with phase := .hostArm } :=
  ⟨fun _ h => absurd h.1 (by decide),
    fun _ _ h => absurd (show ([] : List Input) = _ from h) (List.cons_ne_nil _ _).symm, rfl⟩

/-- A host at `case HS of`, two ticks after `HT0`. -/
def arm (h : HostState) : State := { hostAt h with phase := .hostArm, tick := 2 }

theorem witness_HandshakeStatesOfTheHost_turn (h : HostState) :
    nextTurn (arm h) = .block (arm h) ∧ (arm h).phase = .hostArm ∧ (arm h).hs = h := ⟨rfl, rfl, rfl⟩
theorem witness_SettlingReadyAndErrorStates_connected :
    (arm .connected).cfg.tSettle ≤ elapsed 16 0 10 ∧ elapsed 16 0 9 < (arm .connected).cfg.tSettle := by decide
theorem witness_SettlingReadyAndErrorStates_turn (h : HostState) :
    nextTurn (arm h) = .block (arm h) ∧ (arm h).phase = .hostArm ∧ (arm h).hs = h := ⟨rfl, rfl, rfl⟩
theorem witness_HandshakeStatesOfTheHost_address :
    { arm .address with hdev := 254 }.hdev + 1 = 255 ∧ { arm .address with hdev := 253 }.hdev + 1 < 255 := by decide
theorem witness_HandshakeStatesOfTheHost_ready :
    { arm .readyCheck with readyIn := true }.readyIn = true ∧ (arm .readyCheck).readyIn = false ∧
    (arm .readyCheck).cfg.tReadyGrace ≤ elapsed 16 0 3 ∧
    elapsed 16 0 2 < (arm .readyCheck).cfg.tReadyGrace := by decide
theorem witness_SettlingReadyAndErrorStates_error :
    HostState.unexpected ∈ [HostState.timeout, .invalidResponse, .unexpected] := by decide
theorem witness_HostQueriesTheTarget :
    let s := { arm .reqFeatchk with htgt := 254 }
    nextTurn s = .block s ∧ s.phase = .hostArm ∧
    (HostState.reqFeatchk, (0x14 : Byte), HostState.waitFeatchk) ∈
      [(HostState.reqIoid, (0x10 : Byte), HostState.waitIoid), (.reqCmdrev, 0x11, .waitCmdrev),
        (.reqJvrev, 0x12, .waitJvrev), (.reqProtover, 0x13, .waitProtover), (.reqFeatchk, 0x14, .waitFeatchk)] ∧
    s.hs = .reqFeatchk := by and_intros <;> first | rfl | decide
theorem witness_SyncRequestNamesTheCachedCounts :
    let s := { arm .reqSync with htgt := 4 }
    nextTurn s = .block s ∧ s.phase = .hostArm ∧ s.hs = .reqSync ∧ s.htgt = (3 : Fin 4).val + 1 := by
  and_intros <;> rfl
theorem witness_WaitStatesTimeOut :
    let s := arm .waitSync
    nextTurn s = .block s ∧ s.phase = .hostArm ∧ s.hs ∈ [HostState.addressWait, .waitIoid, .waitCmdrev,
      .waitJvrev, .waitProtover, .waitFeatchk, .waitSync, .waitCoinSync] ∧
    s.fComplete = false ∧ elapsed s.cfg.tickBits s.ht0 s.tick < s.cfg.tResponse ∧
    s.cfg.tResponse ≤ elapsed s.cfg.tickBits s.ht0 5 := by and_intros <;> first | rfl | decide
theorem witness_HostReadsTheStatusByte :
    replyAwaited { replied .waitIoid [0x01, 0x01] with phase := .hostArm } = true ∧
    Instr.stOverflow ∈ [Instr.stUnknown, .stSumerr, .stOverflow] := by decide
/-- The payload of the frame in the buffer. -/
def payloadOf (s : State) : List Byte := rxSlice s 2 (s.rxw.val - 1)

/-- The coin counter of a slot of a sync reply whose second report code has index 7. -/
def counterOf (s : State) (slot : Nat) : Nat :=
  ((payloadOf s).getD (8 + 2 * slot) 0).toNat % 64 * 256 + ((payloadOf s).getD (9 + 2 * slot) 0).toNat

theorem witness_RejectedFrameIsAnInvalidResponse_accepted :
    let s := { replied .waitIoid [0x01, 0x01] with phase := .hostArm }
    s.inputs = [] ∧ s.phase = .hostArm ∧ s.cfg.role = .host ∧ s.hs.isWait = true ∧ s.fComplete = true ∧
    rxRead s 0 = 0x00 ∧ [0x01, 0x01] <+: rxSlice s 2 (s.rxw.val - 1) := by decide
theorem witness_RejectedFrameIsAnInvalidResponse_rejected :
    let s := { replied .waitIoid [0x01] with phase := .hostArm }
    s.inputs = [] ∧ s.phase = .hostArm ∧ s.cfg.role = .host ∧ s.hs.isWait = true ∧ s.fComplete = true ∧
    ¬ [0x01, 0x01] <+: rxSlice s 2 (s.rxw.val - 1) := by decide
theorem witness_AcknowledgmentsAdvanceTheHost_address :
    replyAwaited (replied .addressWait [0x01, 0x01]) = true ∧
    (replied .addressWait [0x01, 0x01]).hs = .addressWait ∧
    payloadOf (replied .addressWait [0x01, 0x01]) = [0x01, 0x01] ∧
    payloadOf (replied .addressWait [0x01, 0x01, 0x00]) ≠ [0x01, 0x01] := by decide
theorem witness_AcknowledgmentsAdvanceTheHost_coin :
    let s := { replied .waitCoinSync [0x01, 0x01] with htgt := 3, hdev := 5 }
    replyAwaited s = true ∧ s.hs = .waitCoinSync ∧ payloadOf s = [0x01, 0x01] ∧ s.htgt < s.hdev ∧
    s.htgt < 4 ∧ 4 ≤ { s with htgt := 4 }.htgt ∧
    payloadOf (replied .waitCoinSync [0x01, 0x01, 0x00]) ≠ [0x01, 0x01] := by decide
theorem witness_CapabilityRepliesAreReported :
    replyAwaited (replied .waitCmdrev [0x01, 0x01, 0x13]) = true ∧
    (HostState.waitCmdrev, CapKind.cmdrev, HostState.reqJvrev) ∈
      [(HostState.waitIoid, CapKind.ioid, HostState.reqCmdrev), (.waitCmdrev, .cmdrev, .reqJvrev),
        (.waitJvrev, .jvrev, .reqProtover), (.waitProtover, .protover, .reqFeatchk)] ∧
    (payloadOf (replied .waitCmdrev [0x01, 0x01, 0x13])).length = 3 ∧
    (payloadOf (replied .waitCmdrev [0x01, 0x01])).length ≠ 3 := by decide
theorem witness_FunctionCheckIsCached :
    let s := { replied .waitFeatchk [1, 1, 1, 2, 0x0C, 0, 0] with htgt := 4, hdev := 5 }
    replyAwaited s = true ∧ s.hs = .waitFeatchk ∧ parseFeatures (payloadOf s) = some (2, 12, 0) ∧
    parseFeatures (payloadOf (replied .waitFeatchk [1, 1])) = none := by decide
theorem witness_SyncReplyIsTaken_coins :
    let s := syncing [1, 1, 0, 0x80, 0, 0, 0x40, 1, 0, 0, 0, 2]
    replyAwaited s = true ∧ s.hs = .waitSync ∧ s.htgt = (0 : Fin 4).val + 1 ∧
    2 = s.hplayers[(0 : Fin 4)].toNat ∧ 2 = (s.hbuttons[(0 : Fin 4)].toNat + 7) / 8 ∧
    2 = s.hcoinslots[(0 : Fin 4)].toNat ∧ 7 = 3 + 2 * 2 ∧
    0 = ((s.hplayers.toList.take (0 : Fin 4).val).map BitVec.toNat).sum ∧
    (payloadOf s).length = 4 + 2 * 2 + 2 * 2 ∧ (payloadOf s).getD 7 0 = 0x01 ∧
    1 < 2 ∧ 0 + 1 < 4 ∧ 0 < counterOf s 1 ∧
    ∀ j, j < 1 → counterOf s j = 0 := by decide
theorem witness_SyncReplyIsTaken_none :
    let s := syncing [1, 1, 0, 0x80, 0, 0, 0x40, 1, 0, 0, 0, 0]
    replyAwaited s = true ∧ (payloadOf s).length = 4 + 2 * 2 + 2 * 2 ∧ (payloadOf s).getD 7 0 = 0x01 ∧
    (∀ slot, slot < 2 → 0 + slot < 4 → counterOf s slot = 0) ∧ s.hdev ≤ s.htgt ∧
    s.htgt < { s with hdev := 2 }.hdev ∧ s.htgt < 4 := by decide
theorem witness_SyncReplyIsTaken_rejected :
    let s := syncing [1, 1, 0, 0x80, 0, 0, 0x40, 1, 0, 0, 0]
    replyAwaited s = true ∧ (payloadOf s).length ≠ 4 + 2 * 2 + 2 * 2 := by decide
theorem witness_SyncTriggerStartsACycle :
    let s := { hostAt .ready with inputs := [.call .heSync] }
    s.phase = .idle ∧ s.cfg.role = .host ∧ s.inputs = .call .heSync :: [] ∧ s.hs = .ready ∧
    { s with hs := .reqSync }.hs ≠ .ready := by decide
theorem witness_RunReturnsSessionReady :
    (arm .ready).cfg.role = .host ∧ (arm .ready).phase = .hostArm ∧
    after (fun t => t.phase) (step (arm .ready)) = some .idle := by decide
theorem witness_HostTransmitsOnlyFromSendStates :
    (arm .reqSync).Inv ∧ (arm .reqSync).cfg.role = .host ∧
    after (fun t => transmits (gained (arm .reqSync) t)) (step (arm .reqSync)) = some true := by decide
theorem witness_HostTransmitsOnlyFromSendStates_coin :
    let s := syncing [1, 1, 0, 0x80, 0, 0, 0x40, 1, 0, 0, 0, 2]
    s.Inv ∧ s.cfg.role = .host ∧ s.hs = .waitSync ∧
    after (fun t => transmits (gained s t)) (step s) = some true := by decide

theorem witness_InitLoadsTheResetValues :
    (hostAt .ready).cfg.role = .host ∧ node.cfg.role = .node ∧
    { node with inputs := [.call .init] }.phase = .idle ∧
    { node with inputs := [.call .init] }.inputs = .call .init :: [] := by decide
theorem witness_InvHoldsAfterInit : { Config.default with role := .host, ndev := 254 }.legal = true := by decide
theorem witness_StepKeepsInv :
    (syncing [1, 1, 0, 0x80, 0, 0, 0x40, 1, 0, 0, 0, 2]).Inv ∧
    after (fun t => t.hs) (step (syncing [1, 1, 0, 0x80, 0, 0, 0x40, 1, 0, 0, 0, 2])) = some .waitCoinSync := by
  decide
theorem witness_OnlyForeignCallsAreRefused : { node with inputs := [.call .heRun] }.Inv := by decide
theorem witness_EveryCallReturns :
    let s := { receiving node with chanRx := [0xE0, 0x01, 0x02, 0x10, 0x13] }
    s.Inv ∧ s.inputs = [] := by decide
theorem witness_ConfigurationStaysAndOutputsGrow :
    after (fun t => t.phase) (step (arm .ready)) = some .idle := by decide
theorem witness_LinkSpeedChangesOnlyOnCommit :
    let s := { looping (verified 0x01 [0xF2, 0x01] node) with speedYes := [(.fast1, true)] }
    after (fun t => decide (t.commMode ≠ s.commMode)) (step s) = some true := by decide
theorem witness_EnvironmentActsAlone :
    let s := { node with inputs := [.env (.ticks 65535)] }
    s.inputs = .env (.ticks 65535) :: [] ∧ s.ht0 = s.tick ∧ s.tick < 2 ^ s.cfg.tickBits ∧
    65535 < 2 ^ s.cfg.tickBits ∧
    { node with inputs := [.env (.byte 0x10)] }.inputs = .env (.byte 0x10) :: [] ∧
    { node with inputs := [.env (.ready true)] }.inputs = .env (.ready true) :: [] ∧
    { node with inputs := [.env (.downstream false)] }.inputs = .env (.downstream false) :: [] ∧
    { node with inputs := [.env (.speed [])] }.inputs = .env (.speed []) :: [] := by decide
theorem witness_HostRunsNoCommand :
    (Instr.swinp 2 2).level = .command ∧ (hostAt .ready).cfg.role = .host := by decide

end Sys2Proof.Tests
end

section
/-! The frame encoder: the checksum as a number, the length byte, and the layout of a logical packet (rules R101,
R102, R103, R190). -/

namespace Sys2Proof.Machine

/-- The checksum of rule R103 is the ordinary sum of the bytes' values, reduced modulo 256. -/
theorem toNat_sum8 (l : List Byte) : (sum8 l).toNat = (l.map BitVec.toNat).sum % 256 := by
  induction l with
  | nil => rfl
  | cons b l ih =>
    calc (sum8 (b :: l)).toNat
        = (b.toNat + (l.map BitVec.toNat).sum % 256) % 256 := by rw [sum8_cons, BitVec.toNat_add, ih]
      _ = ((b :: l).map BitVec.toNat).sum % 256 := by
        rw [Nat.add_mod_mod, List.map_cons, List.sum_cons]

/-- The length byte counts the payload and the checksum without wrapping, because of the operand's bound (rules
R102, R190). -/
theorem toNat_lengthByte (p : Payload) :
    (BitVec.ofNat 8 (p.bytes.length + 1) : Byte).toNat = p.bytes.length + 1 := by
  have := p.bound
  rw [BitVec.toNat_ofNat, Nat.mod_eq_of_lt (by omega)]

/-- Settles O6: the bytes of the packet are those of `fcPacket_eq`; the length byte does not wrap, and the checksum
is the sum of the body modulo 256. -/
theorem packetLayout : Obligations.PacketLayout := by
  intro a p
  refine ⟨p.bound, BitVec.ofNat 8 (p.bytes.length + 1), _, fcPacket_eq a p, toNat_lengthByte p, ?_⟩
  rw [toNat_sum8, List.map_cons, List.map_cons, List.sum_cons, List.sum_cons, Nat.add_assoc]

end Sys2Proof.Machine
end

section
/-! `RESET` of the Node Engine: the verified frame selects its effect, and the effect is one update of the cleared
frame (rules R257, R264). -/

namespace Sys2Proof.Machine

/-- In a verified frame a node's `RESET` is not withheld (rule R257). -/
theorem execReset_of_verified (arg : Byte) {s : State} (hrole : s.cfg.role = .node)
    (hverified : s.fComplete = true) : execReset arg s = .next (resetNode arg s) := by
  rw [execReset, onNode_of_node hrole, whenVerified_of_complete hverified]

/-- `FRAME_CLEAR` touches neither the table nor the signals, so it commutes with clearing them (rules R29, R264). -/
theorem frameClear_unassignAll (s : State) : frameClear (unassignAll s) = unassignAll (frameClear s) := rfl

/-- The effect of `RESET` on the cleared frame: the table and the signals first, then the return, whose device
index is looked up in the table before it is cleared (rule R264). -/
theorem resetNode_eq (arg : Byte) (s : State) :
    resetNode arg s = { frameClear s with
      atab := List.replicate s.atab.length addrBcast
      phase := .idle
      trace := s.trace ++ [.readyOut false, .ledOut false,
        .returned (.command (deviceIndex s (rxRead s 0)) [0xF0, arg] true)] } := by
  have htrace : (unassignAll (frameClear s)).trace = s.trace ++ [.readyOut false, .ledOut false] := by
    rw [unassignAll_trace, frameClear_trace]
  have hencode : encode (.reset arg) = [0xF0, arg] := rfl
  rw [resetNode, frameClear_unassignAll, finish, htrace, hencode, List.append_assoc]
  rfl

/-- Settles O24: the verified frame runs the effect of `RESET`, which is the update `resetNode_eq`. -/
theorem resetUnassignsEverySlot : Obligations.ResetUnassignsEverySlot := by
  intro arg s hrole hverified
  rw [exec_reset, execReset_of_verified arg hrole hverified, resetNode_eq]
  rfl

end Sys2Proof.Machine
end

section
/-! Commands and their bytes: the decoder undoes the encoder, the encoder undoes the decoder, and the Command Table
answers every opcode (rules R112, R120, R121, R140, R174, R175). -/

namespace Sys2Proof.Machine

/-! ## Decoding an encoding -/

/-- The family `EncodedLength`, for every constructor: the Command Table measures an encoded command as itself. -/
theorem ctSize_encode (i : Instr) : Laws.EncodedLength.Statement i := by
  cases i with
  | ioident => exact Laws.EncodedLength.ioident
  | cmdrev => exact Laws.EncodedLength.cmdrev
  | jvsrev => exact Laws.EncodedLength.jvsrev
  | commver => exact Laws.EncodedLength.commver
  | featchk => exact Laws.EncodedLength.featchk
  | mainid text => exact Laws.EncodedLength.mainid text
  | swinp a b => exact Laws.EncodedLength.swinp a b
  | coininp a => exact Laws.EncodedLength.coininp a
  | anlinp a => exact Laws.EncodedLength.anlinp a
  | rotinp a => exact Laws.EncodedLength.rotinp a
  | keyinp => exact Laws.EncodedLength.keyinp
  | scrposinp a => exact Laws.EncodedLength.scrposinp a
  | retry => exact Laws.EncodedLength.retry
  | coindec a b c => exact Laws.EncodedLength.coindec a b c
  | payinc a b c => exact Laws.EncodedLength.payinc a b c
  | output1 data => exact Laws.EncodedLength.output1 data
  | anlout data => exact Laws.EncodedLength.anlout data
  | charout data => exact Laws.EncodedLength.charout data
  | coininc a b c => exact Laws.EncodedLength.coininc a b c
  | vendor body => exact Laws.EncodedLength.vendor body
  | commsup => exact Laws.EncodedLength.commsup
  | reset a => exact Laws.EncodedLength.reset a
  | setaddr a => exact Laws.EncodedLength.setaddr a
  | commchg a => exact Laws.EncodedLength.commchg a
  | sync => exact Laws.EncodedLength.sync
  | mark => exact Laws.EncodedLength.mark
  | stOk => exact Laws.EncodedLength.stOk
  | stUnknown => exact Laws.EncodedLength.stUnknown
  | stSumerr => exact Laws.EncodedLength.stSumerr
  | stOverflow => exact Laws.EncodedLength.stOverflow
  | rpOk => exact Laws.EncodedLength.rpOk
  | addrHost => exact Laws.EncodedLength.addrHost
  | addrBcast => exact Laws.EncodedLength.addrBcast

/-- An encoding begins with an opcode or a code. -/
theorem encode_ne_nil (i : Instr) : encode i ≠ [] := by
  cases i <;> exact List.cons_ne_nil _ _

/-- A size the bytes at hand reach, of bytes that stand for an instruction, is what the decoder answers (rules
R252, R256). -/
theorem decodeCommand_of_size {cfg : Config} {bytes : List Byte} {n : Nat} {i : Instr}
    (hsize : ctSize cfg bytes bytes.length = .size n) (hn : n ≤ bytes.length)
    (hi : ofBytes (bytes.take n) = some i) : decodeCommand cfg bytes = .ok (i, bytes.drop n) := by
  cases bytes with
  | nil => cases hsize
  | cons op args => simp only [decodeCommand, hsize, if_neg (Nat.not_lt.mpr hn), hi]

theorem decodeCommand_encode {cfg : Config} {i : Instr} (hlevel : i.level = .command)
    (hwf : i.wellFormed cfg = true) (rest : List Byte) :
    decodeCommand cfg (encode i ++ rest) = .ok (i, rest) := by
  have hdecoded := decodeCommand_of_size (ctSize_encode i cfg rest hwf hlevel)
    (by rw [List.length_append]; exact Nat.le_add_right _ _)
    (by rw [List.take_left]; exact ofBytes_encode hlevel)
  rwa [List.drop_left] at hdecoded

/-- Settles O2: a command is measured as its own encoding, so the decoder takes just that; every other level reads
one byte. -/
theorem decodeEncodeAgree : Obligations.DecodeEncodeAgree := by
  intro cfg i rest hwf
  cases hlevel : i.level with
  | command => exact decodeCommand_encode hlevel hwf rest
  | wire | status | report | address => cases i <;> cases hlevel <;> rfl

/-! ## Encoding what was decoded -/

/-- What the decoder answers is the instruction of as many bytes as the Command Table says, and the bytes after
them. -/
theorem decodeCommand_eq_ok {cfg : Config} {bytes rest : List Byte} {i : Instr} :
    decodeCommand cfg bytes = .ok (i, rest) ↔
      ∃ n, ctSize cfg bytes bytes.length = .size n ∧ n ≤ bytes.length ∧
        ofBytes (bytes.take n) = some i ∧ rest = bytes.drop n := by
  constructor
  · intro h
    unfold decodeCommand at h
    split at h
    · cases h
    · split at h
      · cases h
      · cases h
      · rename_i n hsize
        split at h
        · cases h
        · rename_i hn
          split at h
          · rename_i j hj
            cases h
            exact ⟨n, hsize, Nat.not_lt.mp hn, hj, rfl⟩
          · cases h
  · rintro ⟨n, hsize, hn, hi, rfl⟩
    exact decodeCommand_of_size hsize hn hi

/-- The text of `MAINID` and its terminator, measured by the Command Table, are the bytes they were read from (rule
R147). -/
theorem mainid_of_size {cfg : Config} {args : List Byte} {n : Nat}
    (hsize : ctSizeOf cfg (0x15 :: args) = .size n) :
    (Instr.mainid (args.take (n - 1)).dropLast).wellFormed cfg = true ∧
      encode (.mainid (args.take (n - 1)).dropLast) = (0x15 :: args).take n := by
  simp only [ctSizeOf, show formatOf 0x15 = some .str from rfl, sizeStr] at hsize
  split at hsize
  · rename_i k hk
    cases hsize
    obtain ⟨text, rest, rfl, rfl, hz⟩ := textLength_eq_some.mp hk
    have htake : (text ++ 0 :: rest).take (text.length + 1) = text ++ [0] := by
      simp [List.take_append]
    simp only [show text.length + 2 - 1 = text.length + 1 from rfl, htake, List.dropLast_concat,
      List.take_succ_cons]
    exact ⟨by simpa [Instr.wellFormed] using hz, rfl⟩
  · cases hsize

/-- A legal vendor table gives a recognised sub-op a length that holds it (rules R11, R148). -/
theorem vendorLen_bounds {cfg : Config} (hlegal : cfg.legal = true) {sub : Byte} {n : Nat}
    (h : cfg.vendorLen.lookup sub = some n) : cfg.vendorSubopOffset < n ∧ n ≤ 255 := by
  simp only [Config.legal, Bool.and_eq_true, List.all_eq_true, decide_eq_true_eq] at hlegal
  obtain ⟨_, hall⟩ := hlegal
  obtain ⟨before, after, hsplit, _⟩ := List.lookup_eq_some_iff.mp h
  exact hall (sub, n) (by simp [hsplit])

/-- A vendor command, measured by its sub-op, is the bytes it was read from (rule R148). -/
theorem vendor_of_size {cfg : Config} (hlegal : cfg.legal = true) {args : List Byte} {n : Nat}
    (hsize : ctSizeOf cfg (0x70 :: args) = .size n) (hn : n ≤ args.length + 1) :
    (Instr.vendor (args.take (n - 1))).wellFormed cfg = true ∧
      encode (.vendor (args.take (n - 1))) = (0x70 :: args).take n := by
  simp only [ctSizeOf, show formatOf 0x70 = some .vnd from rfl, sizeVnd] at hsize
  split at hsize
  · cases hsize
  · rename_i sub hsub
    split at hsize
    · rename_i m hm
      cases hsize
      obtain ⟨hoffset, _⟩ := vendorLen_bounds hlegal hm
      obtain ⟨k, rfl⟩ : ∃ k, n = k + 1 := ⟨n - 1, by omega⟩
      have hbody : (0x70#8 :: args.take k)[cfg.vendorSubopOffset]? = some sub := by
        rw [← List.take_succ_cons, List.getElem?_take_of_lt hoffset]; exact hsub
      have hlength : (args.take k).length = k := by rw [List.length_take]; omega
      refine ⟨?_, rfl⟩
      rw [Nat.add_sub_cancel]
      simp only [Instr.wellFormed, hbody, hlength, hm, decide_true]
    · cases hsize

/-- A count byte within the bytes at hand counts the data that follow it (rules R145, R146). -/
theorem counted_of_size {cfg : Config} {op count : Byte} {scale n : Nat} {args data : List Byte}
    (hformat : formatOf op = some (.cnt scale)) (hsize : ctSizeOf cfg (op :: args) = .size n)
    (hn : n ≤ args.length + 1) (htake : args.take (n - 1) = count :: data) :
    data.length = scale * count.toNat := by
  cases args with
  | nil => rw [List.take_nil] at htake; cases htake
  | cons count' rest =>
    simp only [ctSizeOf, hformat, sizeCnt, CtResult.size.injEq] at hsize
    obtain ⟨k, hk⟩ : ∃ k, n - 1 = k + 1 := ⟨scale * count'.toNat, by omega⟩
    rw [hk, List.take_succ_cons] at htake
    obtain ⟨rfl, rfl⟩ := List.cons.inj htake
    rw [List.length_cons] at hn
    rw [List.length_take]
    omega

/-- The instruction of as many bytes as the Command Table says is well-formed and encodes to those bytes. -/
theorem encode_of_size {cfg : Config} (hlegal : cfg.legal = true) {bytes : List Byte} {n : Nat}
    {i : Instr} (hsize : ctSizeOf cfg bytes = .size n) (hn : n ≤ bytes.length)
    (hi : ofBytes (bytes.take n) = some i) :
    i.level = .command ∧ i.wellFormed cfg = true ∧ encode i = bytes.take n := by
  obtain ⟨op, args, rfl⟩ : ∃ op args, bytes = op :: args := by
    cases bytes with
    | nil => cases hsize
    | cons op args => exact ⟨op, args, rfl⟩
  obtain ⟨k, rfl⟩ : ∃ k, n = k + 1 := by
    cases n with
    | zero => cases hi
    | succ k => exact ⟨k, rfl⟩
  rw [List.length_cons] at hn
  rw [List.take_succ_cons] at hi ⊢
  rcases ofOpcode_some hi with ⟨m, _, hlevel, hencode, hwf⟩ | ⟨count, data, rfl, htake, rfl⟩ |
    ⟨count, data, rfl, htake, rfl⟩ | ⟨count, data, rfl, htake, rfl⟩ | ⟨rfl, rfl⟩ | ⟨rfl, rfl⟩
  · exact ⟨hlevel, hwf cfg, hencode⟩
  · have hlength : data.length = 1 * count.toNat := counted_of_size rfl hsize hn htake
    refine ⟨rfl, ?_, ?_⟩
    · simp only [Instr.wellFormed, decide_eq_true_eq]; omega
    · rw [encode, htake, hlength, Nat.one_mul, BitVec.ofNat_toNat, BitVec.setWidth_eq]
  · have hlength : data.length = 2 * count.toNat := counted_of_size rfl hsize hn htake
    refine ⟨rfl, ?_, ?_⟩
    · simp only [Instr.wellFormed, Bool.and_eq_true, decide_eq_true_eq]; omega
    · rw [encode, htake, hlength, Nat.mul_div_cancel_left _ Nat.two_pos, BitVec.ofNat_toNat,
        BitVec.setWidth_eq]
  · have hlength : data.length = 1 * count.toNat := counted_of_size rfl hsize hn htake
    refine ⟨rfl, ?_, ?_⟩
    · simp only [Instr.wellFormed, decide_eq_true_eq]; omega
    · rw [encode, htake, hlength, Nat.one_mul, BitVec.ofNat_toNat, BitVec.setWidth_eq]
  · exact ⟨rfl, mainid_of_size hsize⟩
  · exact ⟨rfl, vendor_of_size hlegal hsize hn⟩

/-- What the command decoder answers is a well-formed command whose encoding begins the bytes. -/
theorem decodeCommand_sound {cfg : Config} (hlegal : cfg.legal = true) {bytes rest : List Byte} {i : Instr}
    (h : decodeCommand cfg bytes = .ok (i, rest)) :
    i.level = .command ∧ i.wellFormed cfg = true ∧ encode i ++ rest = bytes := by
  obtain ⟨n, hsize, hn, hi, rfl⟩ := decodeCommand_eq_ok.mp h
  rw [Laws.EncodedLength.ctSize_all] at hsize
  obtain ⟨hlevel, hwf, hencode⟩ := encode_of_size hlegal hsize hn hi
  exact ⟨hlevel, hwf, by rw [hencode, List.take_append_drop]⟩

/-- A level of one byte takes one of its codes off the head of the bytes. -/
theorem decodeByte_eq_ok {codes : Byte → Option Instr} {bytes rest : List Byte} {i : Instr}
    (h : decodeByte codes bytes = .ok (i, rest)) : ∃ b, codes b = some i ∧ bytes = b :: rest := by
  cases bytes with
  | nil => cases h
  | cons b tail =>
    simp only [decodeByte] at h
    split at h
    · rename_i j hj; cases h; exact ⟨b, hj, rfl⟩
    · cases h

/-- A code of a level of one byte is an instruction of that level, without operands, whose encoding is the code. -/
def IsCode (cfg : Config) (l : Level) (b : Byte) (i : Instr) : Prop :=
  i.level = l ∧ i.wellFormed cfg = true ∧ encode i = [b]

theorem decodeWire_isCode (cfg : Config) {b : Byte} {i : Instr} (h : decodeWire b = some i) :
    IsCode cfg .wire b i := by
  unfold decodeWire at h
  split_ifs at h <;> cases h <;> subst b <;> exact ⟨rfl, rfl, rfl⟩

theorem decodeStatus_isCode (cfg : Config) {b : Byte} {i : Instr} (h : decodeStatus b = some i) :
    IsCode cfg .status b i := by
  unfold decodeStatus at h
  split_ifs at h <;> cases h <;> subst b <;> exact ⟨rfl, rfl, rfl⟩

theorem decodeReport_isCode (cfg : Config) {b : Byte} {i : Instr} (h : decodeReport b = some i) :
    IsCode cfg .report b i := by
  obtain ⟨rfl, rfl⟩ := decodeReport_eq_some h
  exact ⟨rfl, rfl, rfl⟩

theorem decodeAddress_isCode (cfg : Config) {b : Byte} {i : Instr} (h : decodeAddress b = some i) :
    IsCode cfg .address b i := by
  rcases decodeAddress_eq_some h with ⟨rfl, rfl⟩ | ⟨rfl, rfl⟩ <;> exact ⟨rfl, rfl, rfl⟩

/-- At a level of one byte, what decodes encodes to the byte it was read from. -/
theorem decodeByte_sound {cfg : Config} {l : Level} {codes : Byte → Option Instr}
    (hcodes : ∀ {b i}, codes b = some i → IsCode cfg l b i) {bytes rest : List Byte} {i : Instr}
    (h : decodeByte codes bytes = .ok (i, rest)) :
    i.level = l ∧ i.wellFormed cfg = true ∧ encode i ++ rest = bytes := by
  obtain ⟨b, hb, rfl⟩ := decodeByte_eq_ok h
  obtain ⟨hlevel, hwf, hencode⟩ := hcodes hb
  exact ⟨hlevel, hwf, by rw [hencode, List.singleton_append]⟩

/-- Settles O3: a command by the format of its opcode, every other level by its codes. -/
theorem encodeDecodeAgree : Obligations.EncodeDecodeAgree := by
  intro cfg l bytes rest i hlegal h
  cases l with
  | command => exact decodeCommand_sound hlegal h
  | wire => exact decodeByte_sound (decodeWire_isCode cfg) h
  | status => exact decodeByte_sound (decodeStatus_isCode cfg) h
  | report => exact decodeByte_sound (decodeReport_isCode cfg) h
  | address => exact decodeByte_sound (decodeAddress_isCode cfg) h

/-! ## The Command Table -/

/-- Every opcode value but the 24 of rule R120 has no format (rule R121). -/
theorem formatOf_eq_none {op : Byte}
    (h : op ∉ [(0x10 : Byte), 0x11, 0x12, 0x13, 0x14, 0x15, 0x20, 0x21, 0x22, 0x23, 0x24, 0x25, 0x2F, 0x30,
      0x31, 0x32, 0x33, 0x34, 0x35, 0x70, 0xD0, 0xF0, 0xF1, 0xF2]) : formatOf op = none := by
  unfold formatOf
  split
  case h_25 => rfl
  all_goals
    rename_i hop
    exact absurd (by rw [opcode_of_toNat hop]; decide) h

theorem ctSize_cons_succ (cfg : Config) (op : Byte) (args : List Byte) (k : Nat) :
    ctSize cfg (op :: args) (k + 1) = ctSizeOf cfg (op :: args.take k) := rfl

/-- Settles O5: an opcode with no format is unknown as soon as it is at hand. -/
theorem otherOpcodesAreUnknown : Obligations.OtherOpcodesAreUnknown := by
  intro cfg op args avail hop havail
  obtain ⟨k, rfl⟩ := Nat.exists_eq_add_of_le' havail
  simp only [ctSize_cons_succ, ctSizeOf, formatOf_eq_none hop]

/-- A fixed length is known from the opcode on (rules R112, R144). -/
theorem ctSize_fix {cfg : Config} {op : Byte} {n : Nat} (hformat : formatOf op = some (.fix n))
    (args : List Byte) {avail : Nat} (havail : 1 ≤ avail) : ctSize cfg (op :: args) avail = .size n := by
  obtain ⟨k, rfl⟩ := Nat.exists_eq_add_of_le' havail
  simp only [ctSize_cons_succ, ctSizeOf, hformat]

/-- A counted length is known from the count byte on (rules R145, R146). -/
theorem ctSize_cnt {cfg : Config} {op : Byte} {scale : Nat} (hformat : formatOf op = some (.cnt scale))
    (count : Byte) (args : List Byte) {avail : Nat} (havail : 2 ≤ avail) :
    ctSize cfg (op :: count :: args) avail = .size (scale * count.toNat + 2) := by
  obtain ⟨k, rfl⟩ := Nat.exists_eq_add_of_le' havail
  simp only [ctSize_cons_succ, List.take_succ_cons, ctSizeOf, hformat, sizeCnt]

/-- The length of a text is known from its terminator on (rule R147). -/
theorem ctSize_text {cfg : Config} {text : List Byte} (hz : ∀ b ∈ text, b ≠ 0) (args : List Byte)
    {avail : Nat} (havail : text.length + 2 ≤ avail) :
    ctSize cfg (0x15 :: (text ++ 0x00 :: args)) avail = .size (text.length + 2) := by
  obtain ⟨k, rfl⟩ := Nat.exists_eq_add_of_le' havail
  have htake : (text ++ 0 :: args).take (k + text.length + 1) = text ++ 0 :: args.take k := by
    rw [List.take_append, List.take_of_length_le (by omega),
      show k + text.length + 1 - text.length = k + 1 by omega, List.take_succ_cons]
  have hlength : textLength (text ++ 0 :: args.take k) = some text.length :=
    textLength_eq_some.mpr ⟨text, _, rfl, rfl, hz⟩
  rw [show k + (text.length + 2) = k + text.length + 1 + 1 by omega, ctSize_cons_succ, htake]
  simp only [ctSizeOf, show formatOf 0x15 = some .str from rfl, sizeStr, hlength]

/-- A vendor length is known from the sub-op on (rule R148). -/
theorem ctSize_vendor {cfg : Config} {args : List Byte} {sub : Byte} {avail : Nat}
    (hsub : (0x70 :: args)[cfg.vendorSubopOffset]? = some sub) (havail : cfg.vendorSubopOffset + 1 ≤ avail) :
    ctSize cfg (0x70 :: args) avail = (cfg.vendorLen.lookup sub).elim .unknown .size := by
  obtain ⟨k, rfl⟩ : ∃ k, avail = k + 1 := ⟨avail - 1, by omega⟩
  have htake : (0x70 :: args.take k)[cfg.vendorSubopOffset]? = some sub := by
    rw [← List.take_succ_cons, List.getElem?_take_of_lt (by omega), hsub]
  simp only [ctSize_cons_succ, ctSizeOf, show formatOf 0x70 = some .vnd from rfl, sizeVnd, htake]
  cases cfg.vendorLen.lookup sub <;> rfl

/-- The scan for the terminator does not look beyond it (rule R147). -/
theorem textLength_append {l : List Byte} {k : Nat} (h : textLength l = some k) (more : List Byte) :
    textLength (l ++ more) = some k := by
  obtain ⟨text, rest, rfl, hk, hz⟩ := textLength_eq_some.mp h
  exact textLength_eq_some.mpr ⟨text, rest ++ more, by simp, hk, hz⟩

/-- An answer that the bytes decide is the answer with more bytes behind them (rule R140). -/
theorem ctSizeOf_append {cfg : Config} {c : List Byte} (h : ctSizeOf cfg c ≠ .incomplete)
    (more : List Byte) : ctSizeOf cfg (c ++ more) = ctSizeOf cfg c := by
  cases c with
  | nil => exact absurd rfl h
  | cons op args =>
    cases hformat : formatOf op with
    | none => simp only [List.cons_append, ctSizeOf, hformat]
    | some format =>
      simp only [List.cons_append, ctSizeOf, hformat] at h ⊢
      cases format with
      | fix n => rfl
      | cnt scale =>
        cases args with
        | nil => exact absurd rfl h
        | cons count rest => rfl
      | str =>
        cases hlength : textLength args with
        | none => exact absurd (by simp only [sizeStr, hlength]) h
        | some k => simp only [sizeStr, hlength, textLength_append hlength]
      | vnd =>
        cases hsub : (op :: args)[cfg.vendorSubopOffset]? with
        | none => exact absurd (by simp only [sizeVnd, hsub]) h
        | some sub =>
          have happend : (op :: (args ++ more))[cfg.vendorSubopOffset]? = some sub := by
            rw [← List.cons_append, List.getElem?_append_left (List.getElem?_eq_some_iff.mp hsub).1, hsub]
          simp only [sizeVnd, hsub, happend]

/-- Settles O4: the four formats each from the byte on that decides the length, and the stability of every decided
answer. -/
theorem commandTableComplete : Obligations.CommandTableComplete := by
  refine ⟨?_, ?_, ?_, ?_, ?_⟩
  · intro cfg op n args avail hop havail
    have hformat : formatOf op = some (.fix n) :=
      (by decide : ∀ e ∈ [((0x10 : Byte), 1), (0x11, 1), (0x12, 1), (0x13, 1), (0x14, 1), (0x20, 3),
        (0x21, 2), (0x22, 2), (0x23, 2), (0x24, 1), (0x25, 2), (0x2F, 1), (0x30, 4), (0x31, 4), (0x35, 4),
        (0xD0, 1), (0xF0, 2), (0xF1, 2), (0xF2, 2)], formatOf e.1 = some (.fix e.2)) (op, n) hop
    exact ctSize_fix hformat args havail
  · intro cfg op scale count args avail hop havail
    have hformat : formatOf op = some (.cnt scale) :=
      (by decide : ∀ e ∈ [((0x32 : Byte), 1), (0x33, 2), (0x34, 1)], formatOf e.1 = some (.cnt e.2))
        (op, scale) hop
    exact ctSize_cnt hformat count args havail
  · intro cfg text args avail hz havail
    exact ctSize_text hz args havail
  · intro cfg args sub avail hlegal hsub havail
    rw [ctSize_vendor hsub havail]
    refine ⟨fun n hn => ?_, fun hn => by rw [hn]; rfl⟩
    have hbounds := vendorLen_bounds hlegal hn
    exact ⟨by omega, by rw [hn]; rfl⟩
  · intro cfg c a b hab hdecided
    obtain ⟨more, hmore⟩ := List.take_prefix_take_left (l := c) hab
    rw [ctSize, ← hmore, ctSizeOf_append hdecided, ctSize]

/-- Settles O1: each word is a closed term, which the decoder evaluates. -/
theorem specWordsDecode : Obligations.SpecWordsDecode := by
  refine ⟨?_, ?_, ?_, ?_, ?_, ?_, ?_, ?_, ?_, ?_, ?_, ?_, ?_⟩ <;> rfl

end Sys2Proof.Machine
end

section
/-! The frame encoder: where the two wire symbols stand in a wire frame, and the port calls of a transmission (rules
R105, R193, R196, R279). -/

namespace Sys2Proof.Machine

/-- Escaping leaves no frame marker (rules R105, R193 a). -/
theorem symSync_notMem_escAll (l : List Byte) : symSync ∉ escAll l := by
  induction l with
  | nil => exact List.not_mem_nil
  | cons b l ih =>
    rw [escAll_cons, List.mem_append, not_or]
    refine ⟨?_, ih⟩
    rcases esc_cases b with ⟨_, he⟩ | ⟨_, he⟩ | ⟨hb, _, he⟩ <;> rw [he]
    · decide
    · decide
    · rw [List.mem_singleton]; exact Ne.symm hb

/-- An escape marker is followed by one less than a reserved value (rules R105, R193 b). -/
theorem escAll_after_symMark {l : List Byte} {k : Nat} (h : (escAll l)[k]? = some symMark) :
    (escAll l)[k + 1]? = some 0xCF ∨ (escAll l)[k + 1]? = some 0xDF := by
  induction l generalizing k with
  | nil => cases h
  | cons b l ih =>
    rw [escAll_cons] at h ⊢
    rcases esc_cases b with ⟨_, he⟩ | ⟨_, he⟩ | ⟨_, hb, he⟩ <;> rw [he] at h ⊢
    · match k with
      | 0 => exact .inr rfl
      | 1 => exact absurd (Option.some.inj h) (by decide)
      | k + 2 => exact ih h
    · match k with
      | 0 => exact .inl rfl
      | 1 => exact absurd (Option.some.inj h) (by decide)
      | k + 2 => exact ih h
    · match k with
      | 0 => exact absurd (Option.some.inj h) hb
      | k + 1 => exact ih h

/-- Escaping keeps every byte and at most doubles their number (rule R193 c). -/
theorem length_escAll (l : List Byte) : l.length ≤ (escAll l).length ∧ (escAll l).length ≤ 2 * l.length := by
  induction l with
  | nil => exact ⟨le_refl _, le_refl _⟩
  | cons b l ih =>
    have hb : 1 ≤ (esc b).length ∧ (esc b).length ≤ 2 := by
      rcases esc_cases b with ⟨_, he⟩ | ⟨_, he⟩ | ⟨_, _, he⟩ <;> rw [he] <;>
        simp only [List.length_cons, List.length_nil] <;> omega
    rw [escAll_cons, List.length_append, List.length_cons]
    omega

/-- Settles O7: behind the one frame marker at the head the frame is an escaped list. -/
theorem encodedFrameIsUnambiguous : Obligations.EncodedFrameIsUnambiguous := by
  intro p
  have hlength : (fcEncode p).length = (escAll p).length + 1 := rfl
  refine ⟨rfl, ?_, ?_, ?_, ?_⟩
  · intro k hk hsync
    obtain ⟨k, rfl⟩ := Nat.exists_eq_add_of_le' hk
    exact symSync_notMem_escAll p (List.mem_of_getElem? hsync)
  · intro k hmark
    cases k with
    | zero => exact absurd (Option.some.inj hmark) (by decide)
    | succ k => exact escAll_after_symMark hmark
  · have := length_escAll p; omega
  · have := length_escAll p; omega

/-- Settles O16: the guard delay is the only difference between the two transmissions. -/
theorem transmissionPortCalls : Obligations.TransmissionPortCalls := by
  intro p s
  have hguard : nodeTransmitEvents s p =
      if s.commMode = .base then .delayUs s.cfg.tGuardUs :: transmitEvents p else transmitEvents p := by
    unfold nodeTransmitEvents
    split <;> rfl
  refine ⟨rfl, hguard, rfl, fun hbase => ?_, fun hfast => ?_⟩
  · rw [neTransmit, hguard, if_pos hbase, fcTransmit, emitAll, emitAll, List.append_assoc]
    rfl
  · rw [neTransmit, hguard, if_neg hfast, fcTransmit]

end Sys2Proof.Machine
end

section
/-! The frame decoder: a wire frame is decoded into its packet, and a changed byte is detected (rules R230, R231). -/

namespace Sys2Proof.Machine

/-! ## Reading a slice -/

/-- A byte below the end of a slice that begins at 0 is the slice's byte. -/
theorem rxRead_of_slice {s : State} {n k : Nat} {l : List Byte} (hslice : rxSlice s 0 n = l) (hk : k < n) :
    l[k]? = some (rxRead s k) := by
  rw [← hslice, rxSlice, Memory.getElem?_slice, if_pos (by omega), Nat.zero_add, rxRead]

/-- The checksum test compares the last buffered byte with the sum of the others (rules R103, R222). -/
theorem checksumOk_of_slice {s : State} {body : List Byte} {b : Byte}
    (hcount : s.rxw.val = body.length + 1) (hslice : rxSlice s 0 s.rxw.val = body ++ [b]) :
    checksumOk s = decide (sum8 body = b) := by
  have hlast : rxRead s body.length = b := by
    have h := rxRead_of_slice hslice (by omega : body.length < s.rxw.val)
    rw [List.getElem?_concat_length] at h
    exact (Option.some.inj h).symm
  have hbody : rxSlice s 0 body.length = body := by
    rw [hcount, rxSlice, Memory.slice_succ _ (Nat.zero_le _)] at hslice
    exact (List.append_inj' hslice rfl).1
  rw [checksumOk, hcount, Nat.add_sub_cancel, hbody, hlast]

/-! ## Decoding a wire frame -/

/-- Decoding bytes one after the other. -/
def decodeBytes (bytes : List Byte) (s : State) : State := bytes.foldl (fun v b => fcDecodeByte b v) s

theorem decodeBytes_append (l m : List Byte) (s : State) :
    decodeBytes (l ++ m) s = decodeBytes m (decodeBytes l s) := List.foldl_append

/-- How the bytes are split between calls makes no difference. -/
theorem decodeBytes_flatten (calls : List (List Byte)) (s : State) :
    calls.foldl (fun u bytes => bytes.foldl (fun v b => fcDecodeByte b v) u) s =
      decodeBytes calls.flatten s := List.foldl_flatten.symm

/-- A frame is being received of which `q` has been buffered, in the role and with the table of `s₀`. -/
structure Receiving (s₀ : State) (q : List Byte) (s : State) : Prop where
  framing : s.fFraming = true
  canonical : Memory.wf s.rxb = true
  count : s.rxw.val = q.length
  bytes : rxSlice s 0 q.length = q
  role : s.cfg.role = s₀.cfg.role
  table : s.atab = s₀.atab

/-- The frame marker begins a frame (rule R213). -/
theorem receiving_takeSync {s : State} (hm : Memory.wf s.rxb = true) : Receiving s [] (takeSync s) :=
  ⟨rfl, hm, rfl, rfl, rfl, rfl⟩

/-- With room a plain byte extends what is buffered by the value it is stored as (rule R216). -/
theorem receiving_takePlain {s₀ s : State} {q : List Byte} (h : Receiving s₀ q s) (hroom : q.length < 256)
    (b : Byte) :
    Receiving s₀ (q ++ [storedValue s b]) (takePlain b s) ∧ (takePlain b s).fEsc = false := by
  rcases takePlain_cases b s with ⟨hf, _⟩ | ⟨_, hfull, _⟩ | ⟨hr, _, htake⟩
  · rw [h.framing] at hf; cases hf
  · rw [h.count] at hfull; omega
  · rw [htake]
    refine ⟨⟨h.framing, Memory.wf_write h.canonical _ _, ?_, ?_, h.role, h.table⟩, rfl⟩
    · rw [List.length_append, ← h.count]; rfl
    · have hslice := Memory.slice_write_end h.canonical (Nat.zero_le s.rxw.val) (storedValue s b)
      rw [h.count] at hslice
      have hwrite : s.rxb.write s.rxw.val (storedValue s b) = s.rxb.write q.length (storedValue s b) := by
        rw [h.count]
      rw [← hwrite] at hslice
      rw [rxSlice, List.length_append, List.length_singleton]
      exact hslice.trans (congrArg (· ++ [storedValue s b]) h.bytes)

/-- Setting the escape flag leaves what is buffered. -/
theorem receiving_fEsc {s₀ s : State} {q : List Byte} (h : Receiving s₀ q s) (v : Bool) :
    Receiving s₀ q { s with fEsc := v } :=
  ⟨h.framing, h.canonical, h.count, h.bytes, h.role, h.table⟩

/-- The escape marker sets the escape flag of a frame (rule R215). -/
theorem fcDecodeByte_mark {s : State} (h : s.fFraming = true) :
    fcDecodeByte symMark s = { s with fEsc := true } := by
  have htake : fcDecodeByte symMark s = takeMark s := rfl
  rw [htake, takeMark, if_pos h]

/-- A plain byte of a frame is taken, and then the frame's end is looked for (rules R217, R220). -/
theorem fcDecodeByte_plain {s : State} {b : Byte} (hsync : b ≠ symSync) (hmark : b ≠ symMark)
    (h : s.fFraming = true) : fcDecodeByte b s = endIfDue (takePlain b s) := by
  simp [fcDecodeByte, hsync, hmark, h]

/-- A plain byte behind an escape marker is taken with the escape flag set (rules R215, R216). -/
theorem decodeBytes_marked {s : State} {c : Byte} (hsync : c ≠ symSync) (hmark : c ≠ symMark)
    (h : s.fFraming = true) : decodeBytes [symMark, c] s = endIfDue (takePlain c { s with fEsc := true }) := by
  calc decodeBytes [symMark, c] s
      = fcDecodeByte c (fcDecodeByte symMark s) := rfl
    _ = fcDecodeByte c { s with fEsc := true } := by rw [fcDecodeByte_mark h]
    _ = endIfDue (takePlain c { s with fEsc := true }) := fcDecodeByte_plain hsync hmark h

/-- Decoding an escaped byte takes one plain byte, which is stored as that byte (rules R105, R106, R216). -/
theorem decodeBytes_esc {s₀ s : State} {q : List Byte} (h : Receiving s₀ q s) (hesc : s.fEsc = false)
    (b : Byte) :
    ∃ (t : State) (c : Byte), Receiving s₀ q t ∧ storedValue t c = b ∧
      decodeBytes (esc b) s = endIfDue (takePlain c t) := by
  rcases esc_cases b with ⟨rfl, he⟩ | ⟨rfl, he⟩ | ⟨hsync, hmark, he⟩
  · refine ⟨_, 0xDF, receiving_fEsc h true, rfl, ?_⟩
    rw [he, decodeBytes_marked (by decide) (by decide) h.framing]
  · refine ⟨_, 0xCF, receiving_fEsc h true, rfl, ?_⟩
    rw [he, decodeBytes_marked (by decide) (by decide) h.framing]
  · refine ⟨s, b, h, by rw [storedValue, hesc]; rfl, ?_⟩
    rw [he, ← fcDecodeByte_plain hsync hmark h.framing]
    rfl

/-- The end of a frame is due when its bytes are as many as its length byte says (rule R220). -/
theorem frameEndDue_of_receiving {s₀ s : State} {q : List Byte} (h : Receiving s₀ q s) :
    frameEndDue s = true ↔ 2 ≤ q.length ∧ q.length = (q.getD 1 0).toNat + 2 := by
  rw [frameEndDue_eq_true, h.count]
  constructor
  · rintro ⟨_, htwo, hlength⟩
    rw [List.getD_eq_getElem?_getD, rxRead_of_slice h.bytes htwo]
    exact ⟨htwo, hlength⟩
  · rintro ⟨htwo, hlength⟩
    rw [List.getD_eq_getElem?_getD, rxRead_of_slice h.bytes htwo] at hlength
    exact ⟨h.framing, htwo, hlength⟩

/-- As long as no part of the bytes is a whole frame, decoding them buffers them. -/
theorem receiving_escAll {s₀ : State} {pre rest : List Byte} {s : State} (h : Receiving s₀ pre s)
    (hesc : s.fEsc = false) (hroom : (pre ++ rest).length ≤ 256)
    (hlong : (pre ++ rest).length < ((pre ++ rest).getD 1 0).toNat + 2) :
    Receiving s₀ (pre ++ rest) (decodeBytes (escAll rest) s) ∧ (decodeBytes (escAll rest) s).fEsc = false := by
  induction rest generalizing pre s with
  | nil => rw [List.append_nil]; exact ⟨h, hesc⟩
  | cons b rest ih =>
    rw [List.append_cons] at hroom hlong ⊢
    rw [escAll_cons, decodeBytes_append]
    obtain ⟨t, c, ht, hc, hdecode⟩ := decodeBytes_esc h hesc b
    have hlength : (pre ++ [b]).length ≤ (pre ++ [b] ++ rest).length := by
      rw [List.length_append (as := pre ++ [b])]; exact Nat.le_add_right _ _
    have hone : (pre ++ [b]).length = pre.length + 1 := List.length_append
    obtain ⟨htake, hclear⟩ := receiving_takePlain ht (by omega) c
    rw [hc] at htake
    have hdue : ¬ frameEndDue (takePlain c t) = true := by
      rw [frameEndDue_of_receiving htake]
      rintro ⟨htwo, hend⟩
      rw [List.getD_append _ _ _ _ htwo] at hlong
      omega
    rw [hdecode, endIfDue, if_neg hdue]
    exact ih htake hclear hroom hlong

/-- A packet but for its checksum: the address, the length and the payload (rules R101, R102, R190). -/
def packetBody (a : Byte) (p : Payload) : List Byte := a :: BitVec.ofNat 8 (p.bytes.length + 1) :: p.bytes

theorem fcPacket_eq_body (a : Byte) (p : Payload) :
    fcPacket a p = packetBody a p ++ [sum8 (packetBody a p)] := rfl

theorem length_packetBody (a : Byte) (p : Payload) : (packetBody a p).length = p.bytes.length + 2 := rfl

/-- The body of a packet is one byte short of a whole frame (rule R220). -/
theorem lengthByte_packetBody (a : Byte) (p : Payload) :
    ((packetBody a p).getD 1 0).toNat + 2 = (packetBody a p).length + 1 := by
  show (BitVec.ofNat 8 (p.bytes.length + 1) : Byte).toNat + 2 = p.bytes.length + 2 + 1
  rw [toNat_lengthByte]

/-- Decoding a wire frame up to its checksum buffers the body of its packet. -/
theorem receiving_packetBody {s : State} (hm : Memory.wf s.rxb = true) (a : Byte) (p : Payload) :
    Receiving s (packetBody a p) (decodeBytes (escAll (packetBody a p)) (takeSync s)) ∧
      (decodeBytes (escAll (packetBody a p)) (takeSync s)).fEsc = false := by
  have hlength := lengthByte_packetBody a p
  have hbound := p.bound
  have hbody := length_packetBody a p
  exact receiving_escAll (pre := []) (rest := packetBody a p) (receiving_takeSync hm) rfl (by rw [List.nil_append]; omega)
    (by rw [List.nil_append]; omega)

/-- A wire frame is the frame marker, the escaped body and the escaped checksum (rule R192). -/
theorem decodeBytes_fcEncode (a : Byte) (p : Payload) (s : State) :
    decodeBytes (fcEncode (fcPacket a p)) s =
      decodeBytes (esc (sum8 (packetBody a p))) (decodeBytes (escAll (packetBody a p)) (takeSync s)) := by
  rw [fcPacket_eq_body, fcEncode, escAll_append, escAll_cons, escAll_nil, List.append_nil,
    ← decodeBytes_append]
  rfl

/-- The end of a frame whose address passes the filter and whose checksum fits verifies it (rules R222, R224). -/
theorem endIfDue_of_verified {s₀ u : State} {a : Byte} {p : Payload} (h : Receiving s₀ (fcPacket a p) u)
    (ha : a = 0xFF ∨ (s₀.cfg.role = .node ∧ a ∈ s₀.atab) ∨ (s₀.cfg.role = .host ∧ a = 0x00)) :
    endIfDue u = { u with fFraming := false, fComplete := true } := by
  have hcount : u.rxw.val = (packetBody a p).length + 1 :=
    h.count.trans (length_fcPacket a p)
  have hdue : frameEndDue u = true := by
    rw [frameEndDue_of_receiving h, length_fcPacket, fcPacket_eq_body,
      List.getD_append _ _ _ _ (by rw [length_packetBody]; omega), lengthByte_packetBody, length_packetBody]
    omega
  have hpos : 0 < (fcPacket a p).length := by rw [length_fcPacket]; omega
  have haddress : rxRead u 0 = a := (Option.some.inj (rxRead_of_slice h.bytes hpos)).symm
  have hmatch : addrMatch u a = true := by
    rw [addrMatch_eq_true, h.role, h.table]
    exact ha
  have hsum : checksumOk u = true := by
    rw [checksumOk_of_slice (b := sum8 (packetBody a p)) hcount (by rw [h.count]; exact h.bytes),
      decide_eq_true rfl]
  rw [endIfDue, if_pos hdue, haddress]
  rcases frameEnd_cases a u with ⟨hf, _⟩ | ⟨_, _, he⟩ | ⟨_, hf, _⟩ | ⟨_, hf, _⟩
  · rw [hmatch] at hf; cases hf
  · exact he
  · rw [hsum] at hf; cases hf
  · rw [hsum] at hf; cases hf

/-- Settles O8: the body of the packet is buffered byte by byte; the checksum then either ends the frame, which is
verified, or finds the buffer full. -/
theorem wireFrameRoundTrip : Obligations.WireFrameRoundTrip := by
  intro s a p calls hm _ _ ha hcalls
  rw [decodeBytes_flatten, hcalls, decodeBytes_fcEncode]
  obtain ⟨hbody, hesc⟩ := receiving_packetBody hm a p
  obtain ⟨t, c, ht, hc, hdecode⟩ := decodeBytes_esc hbody hesc (sum8 (packetBody a p))
  rw [hdecode]
  have hlength := length_packetBody a p
  constructor
  · intro hshort
    obtain ⟨hpacket, _⟩ := receiving_takePlain ht (by omega) c
    rw [hc, ← fcPacket_eq_body] at hpacket
    rw [endIfDue_of_verified hpacket ha]
    exact ⟨rfl, hpacket.count, hpacket.bytes⟩
  · intro hlong
    have hfull : takePlain c t = frameClear t := by
      rcases takePlain_cases c t with ⟨hf, _⟩ | ⟨_, _, he⟩ | ⟨hr, _, _⟩
      · rw [ht.framing] at hf; cases hf
      · exact he
      · rw [ht.count] at hr; omega
    rw [hfull]
    rfl

/-! ## A changed byte -/

/-- Replacing a byte by another changes the sum (rules R15, R231). -/
theorem sum8_set_ne {l : List Byte} {i : Nat} {v : Byte} (hi : i < l.length) (hv : l[i]? ≠ some v) :
    sum8 (l.set i v) ≠ sum8 l := by
  induction l generalizing i with
  | nil => cases hi
  | cons b l ih =>
    cases i with
    | zero =>
      rw [List.set_cons_zero, sum8_cons, sum8_cons, Ne, BitVec.add_left_inj]
      rintro rfl
      exact hv rfl
    | succ i =>
      rw [List.set_cons_succ, sum8_cons, sum8_cons, Ne, BitVec.add_right_inj]
      exact ih (Nat.lt_of_succ_lt_succ hi) hv

/-- A packet with one byte replaced ends in another byte than the sum of the others (rule R231). -/
theorem set_fcPacket (a : Byte) (p : Payload) {i : Nat} {v : Byte} (hi : i < p.bytes.length + 3)
    (hv : (fcPacket a p)[i]? ≠ some v) :
    ∃ body b, (fcPacket a p).set i v = body ++ [b] ∧ body.length = p.bytes.length + 2 ∧ sum8 body ≠ b := by
  have hlength := length_packetBody a p
  rw [fcPacket_eq_body] at hv ⊢
  by_cases hlast : i < (packetBody a p).length
  · rw [List.getElem?_append_left hlast] at hv
    exact ⟨_, _, List.set_append_left _ _ hlast, by rw [List.length_set, hlength], sum8_set_ne hlast hv⟩
  · obtain rfl : i = (packetBody a p).length := by omega
    rw [List.getElem?_concat_length] at hv
    refine ⟨packetBody a p, v, ?_, hlength, fun h => hv (congrArg some h)⟩
    rw [List.set_append_right _ _ (le_refl _), Nat.sub_self, List.set_cons_zero]

/-- The end of a frame verifies it only when its checksum fits (rule R222). -/
theorem endIfDue_of_badChecksum {s : State} (hsum : checksumOk s = false) (h : s.fComplete = false) :
    (endIfDue s).fComplete = false := by
  unfold endIfDue
  split
  · rcases frameEnd_cases (rxRead s 0) s with ⟨_, he⟩ | ⟨_, hf, _⟩ | ⟨_, _, _, he⟩ | ⟨_, _, _, _, he⟩
    · rw [he, frameClear_fComplete]
    · rw [hsum] at hf; cases hf
    · rw [he, frameClear_fComplete]
    · rw [he]; exact h
  · exact h

/-- Settles O10: the byte changes either the sum of the body or the checksum itself. -/
theorem singleByteErrorIsDetected : Obligations.SingleByteErrorIsDetected := by
  intro s a p i v hcount hslice hi _ hv hcomplete
  obtain ⟨body, b, hset, hbody, hne⟩ := set_fcPacket a p hi hv
  have hsum : checksumOk s = false := by
    rw [checksumOk_of_slice (by omega) (hslice.trans hset), decide_eq_false hne]
  exact ⟨hsum, endIfDue_of_badChecksum hsum hcomplete⟩

end Sys2Proof.Machine
end

section
/-! The receive loop: one turn for each of its four cases, the whole of `FC_DECODE_BYTE`, the wire symbols, a plain
byte, and the end of a frame (rules R29, R210 to R229). -/

namespace Sys2Proof.Machine

/-! ## Running several steps -/

theorem run_one {s t : State} (h : step s = .next t) : Sys2Proof.core.run 1 s = .next t := by
  simp only [Host.Core.run, Sys2Proof.core, h]

theorem run_succ {s t : State} (h : step s = .next t) (k : Nat) :
    Sys2Proof.core.run (k + 1) s = Sys2Proof.core.run k t := by
  simp only [Host.Core.run, Sys2Proof.core, h]

theorem nextTurn_of_inputs_nil {s : State} (h : s.inputs = []) : nextTurn s = .block s := by
  rw [nextTurn_block]; exact .inl ⟨h, rfl⟩

/-! ## One turn of the loop -/

section
variable {s t : State} {r : Receiver} (hturn : nextTurn s = .block t) (hphase : t.phase = .receive r)
include hturn hphase

/-- A pending frame ends the loop (rule R212). -/
theorem step_receive_pending (hpending : framePending t = true) :
    step s = .next { t with phase := r.after } := by
  rw [step_of_block hturn, work_receive hphase, if_pos hpending]

/-- A structurally complete frame is ended (rule R220). -/
theorem step_receive_frameEnd (hpending : framePending t = false) (hdue : frameEndDue t = true) :
    step s = .next (frameEnd (rxRead t 0) t) := by
  rw [step_of_block hturn, work_receive hphase, if_neg (by rw [hpending]; decide), if_pos hdue]

/-- With the channel empty the loop ends (rule R210). -/
theorem step_receive_empty (hpending : framePending t = false) (hdue : frameEndDue t = false)
    (hchan : t.chanRx = []) : step s = .next { t with phase := r.after } := by
  rw [step_of_block hturn, work_receive hphase, if_neg (by rw [hpending]; decide),
    if_neg (by rw [hdue]; decide)]
  simp only [hchan]

/-- Otherwise the oldest byte is taken (rule R210). -/
theorem step_receive_byte (hpending : framePending t = false) (hdue : frameEndDue t = false)
    {b : Byte} {rest : List Byte} (hchan : t.chanRx = b :: rest) :
    step s = .next (takeByte b { t with chanRx := rest }) := by
  rw [step_of_block hturn, work_receive hphase, if_neg (by rw [hpending]; decide),
    if_neg (by rw [hdue]; decide)]
  simp only [hchan]

end

/-! ## The whole of `FC_DECODE_BYTE` -/

theorem takeByte_plain {b : Byte} (hsync : b ≠ symSync) (hmark : b ≠ symMark) (s : State) :
    takeByte b s = takePlain b s := by
  rw [takeByte, if_neg hsync, if_neg hmark]

/-- Storing a byte neither ends the loop nor completes a frame, which is left to the frame's end. -/
theorem takePlain_loop (b : Byte) {s : State} (hpending : framePending s = false) :
    (takePlain b s).phase = s.phase ∧ (takePlain b s).inputs = s.inputs ∧
      framePending (takePlain b s) = false := by
  rcases takePlain_cases b s with ⟨_, he⟩ | ⟨_, _, he⟩ | ⟨_, _, he⟩ <;> rw [he]
  · exact ⟨rfl, rfl, hpending⟩
  · exact ⟨rfl, rfl, rfl⟩
  · exact ⟨rfl, rfl, hpending⟩

/-- One or two turns of the loop do exactly `FC_DECODE_BYTE` of the oldest byte (rules R210, R217). -/
theorem run_receive_byte {s : State} {r : Receiver} {b : Byte} {rest : List Byte} (hinputs : s.inputs = [])
    (hphase : s.phase = .receive r) (hpending : framePending s = false) (hdue : frameEndDue s = false)
    (hchan : s.chanRx = b :: rest) :
    Sys2Proof.core.run 1 s = .next (fcDecodeByte b { s with chanRx := rest }) ∨
    Sys2Proof.core.run 2 s = .next (fcDecodeByte b { s with chanRx := rest }) := by
  have hstep := step_receive_byte (nextTurn_of_inputs_nil hinputs) hphase hpending hdue hchan
  unfold fcDecodeByte
  by_cases hwhole : b = symSync ∨ b = symMark ∨ s.fFraming = false
  · rw [if_pos hwhole]
    exact .inl (run_one hstep)
  · rw [if_neg hwhole]
    simp only [not_or, Bool.not_eq_false] at hwhole
    obtain ⟨hsync, hmark, hf⟩ := hwhole
    rw [takeByte_plain hsync hmark] at hstep
    have hpending' : framePending { s with chanRx := rest } = false := hpending
    obtain ⟨hphase', hinputs', hpending''⟩ := takePlain_loop b hpending'
    by_cases hend : frameEndDue (takePlain b { s with chanRx := rest }) = true
    · rw [endIfDue, if_pos hend]
      exact .inr ((run_succ hstep 1).trans (run_one (step_receive_frameEnd (nextTurn_of_inputs_nil (hinputs'.trans hinputs))
        (hphase'.trans hphase) hpending'' hend)))
    · rw [endIfDue, if_neg hend]
      exact .inl (run_one hstep)

/-- The test for the frame's end in the words of rule R220. -/
theorem frameEndDue_eq_false {s : State}
    (h : ¬(s.fFraming = true ∧ 2 ≤ s.rxw.val ∧ s.rxw.val = (rxRead s 1).toNat + 2)) :
    frameEndDue s = false := by
  rw [← Bool.not_eq_true, frameEndDue_eq_true]; exact h

/-- Settles O9: a byte by `run_receive_byte`; the empty channel ends the loop in either engine. -/
theorem receiveLoopDecodesTheOldestByte : Obligations.ReceiveLoopDecodesTheOldestByte := by
  refine ⟨?_, ?_⟩
  · intro s r b rest hinputs hphase hpending hdue hchan
    exact run_receive_byte hinputs hphase hpending hdue hchan
  · intro s t hturn hcomplete hsumerr hdue hchan
    have hpending : framePending t = false := by rw [framePending, hcomplete, hsumerr]; rfl
    exact ⟨fun spec hphase => step_receive_empty hturn hphase hpending (frameEndDue_eq_false hdue) hchan,
      fun hphase => step_receive_empty hturn hphase hpending (frameEndDue_eq_false hdue) hchan⟩

/-! ## Clearing and the wire symbols -/

/-- In host role clearing a frame leaves the reports (rule R29, log 17). -/
theorem frameClear_of_host {s : State} (h : s.cfg.role = .host) :
    frameClear s = { s with
      rxw := 0, rxr := 2, fFraming := false, fEsc := false, fComplete := false, fSumerr := false } := by
  simp [frameClear, h]

/-- In node role clearing a frame drops the reports, the staged address and the overflow flag (rule R29). -/
theorem frameClear_of_node {s : State} (h : s.cfg.role = .node) :
    frameClear s = { s with
      rxw := 0, rxr := 2, fFraming := false, fEsc := false, fComplete := false, fSumerr := false
      txn := 0, newaddr := 0xFF, fTxovf := false } := by
  simp only [frameClear, h, if_true]
  rfl

/-- Settles O11: the two roles of `FRAME_CLEAR`; `HE_DISCONNECT` ends in it. -/
theorem frameClearAndDisconnect : Obligations.FrameClearAndDisconnect := by
  intro s
  exact ⟨frameClear_of_node, frameClear_of_host, rfl⟩

/-- In node role a frame marker clears the frame and snapshots the downstream-ready signal (rule R213). -/
theorem takeSync_of_node {s : State} (h : s.cfg.role = .node) :
    takeSync s = { s with
      rxw := 0, rxr := 2, fFraming := true, fEsc := false, fComplete := false, fSumerr := false
      txn := 0, newaddr := 0xFF, fTxovf := false, dsrSnap := s.downstreamReady } := by
  simp only [takeSync, frameClear_of_node h, h, if_true]

/-- In host role the snapshot is a free value (rule R28, log 3). -/
theorem takeSync_of_host {s : State} (h : s.cfg.role = .host) :
    takeSync s = { s with
      rxw := 0, rxr := 2, fFraming := true, fEsc := false, fComplete := false, fSumerr := false
      dsrSnap := Config.freeDsrSnap s.freeCount, freeCount := s.freeCount + 1 } := by
  simp [takeSync, frameClear_of_host h, h]

/-- While framing an escape marker sets the escape flag (rule R215). -/
theorem takeMark_framing {s : State} (h : s.fFraming = true) : takeMark s = { s with fEsc := true } := by
  rw [takeMark, if_pos h]

/-- While not framing an escape marker is discarded (rule R214). -/
theorem takeMark_idle {s : State} (h : s.fFraming = false) : takeMark s = s := by
  rw [takeMark, h]; rfl

/-- Settles O12: `SYNC` in each role, `MARK` framing or not. -/
theorem wireSymbolsFrameAndEscape : Obligations.WireSymbolsFrameAndEscape := by
  refine ⟨fun s => ⟨fun hrole => ?_, fun hrole => ⟨Config.freeDsrSnap s.freeCount, ?_⟩⟩,
    fun s => ⟨fun hf => ?_, fun hf => ?_⟩⟩
  · exact congrArg Host.Outcome.next (takeSync_of_node (s := { s with chanRx := s.chanRx.tail }) hrole)
  · exact congrArg Host.Outcome.next (takeSync_of_host (s := { s with chanRx := s.chanRx.tail }) hrole)
  · exact congrArg Host.Outcome.next (takeMark_framing (s := { s with chanRx := s.chanRx.tail }) hf)
  · exact congrArg Host.Outcome.next (takeMark_idle (s := { s with chanRx := s.chanRx.tail }) hf)

/-! ## A plain byte -/

/-- The byte stored after an escape marker is one more, modulo 256 (rule R216). -/
theorem storedValue_eq (s : State) (b : Byte) :
    storedValue s b = if s.fEsc then BitVec.ofNat 8 (b.toNat + 1) else b := by
  unfold storedValue
  split
  · exact BitVec.eq_of_toNat_eq (by simp [BitVec.toNat_add])
  · rfl

/-- Settles O13: the three outcomes of `takePlain_cases`, as the step of the loop. -/
theorem plainByteIsStoredAtTheWriteCursor : Obligations.PlainByteIsStoredAtTheWriteCursor := by
  intro s t r b rest hturn hphase hpending hdue hchan hsync hmark hm
  have hstep : step s = .next (takePlain b { t with chanRx := rest }) := by
    rw [step_receive_byte hturn hphase hpending hdue hchan, takeByte_plain hsync hmark]
  rcases takePlain_cases b { t with chanRx := rest } with ⟨hf, he⟩ | ⟨hf, hfull, he⟩ | ⟨hr, hf, he⟩ <;>
    rw [hstep, he]
  · exact ⟨fun _ => rfl, fun h => absurd (h.symm.trans hf) (by decide),
      fun h => absurd (h.symm.trans hf) (by decide)⟩
  · exact ⟨fun h => absurd (h.symm.trans hf) (by decide), fun _ _ => rfl,
      fun _ hroom => absurd hroom (Nat.not_lt.mpr (Nat.le_of_eq hfull.symm))⟩
  · refine ⟨fun h => absurd (h.symm.trans hf) (by decide),
      fun _ hfull => absurd hr (Nat.not_lt.mpr (Nat.le_of_eq hfull.symm)), fun _ _ => ⟨_, rfl, ?_, ?_, rfl, rfl⟩⟩
    · exact (Memory.read_write_same hm _ _).trans (storedValue_eq t b)
    · exact fun a ha => Memory.read_write_other _ ha _

/-! ## The end of a frame -/

/-- The frames whose failed checksum gets no reply: resets and link-speed changes (rule R226). -/
theorem exemptFrame_eq_true {s : State} :
    exemptFrame s = true ↔ 2 ≤ (rxRead s 1).toNat ∧ (rxRead s 2 = 0xF0 ∨ rxRead s 2 = 0xF2) := by
  simp only [exemptFrame, Bool.and_eq_true, Bool.or_eq_true, decide_eq_true_eq]

/-- A frame whose address does not pass the filter is forgotten (rule R223). -/
theorem frameEnd_filtered {s : State} {a : Byte} (h : addrMatch s a = false) :
    frameEnd a s = frameClear s := by
  rcases frameEnd_cases a s with ⟨_, he⟩ | ⟨hm, _⟩ | ⟨hm, _⟩ | ⟨hm, _⟩
  · exact he
  all_goals exact absurd (h.symm.trans hm) (by decide)

/-- What the end of a frame does once its address has passed the filter (rules R222, R224, R226, R227). -/
theorem frameEnd_matched {s : State} {a : Byte} (h : addrMatch s a = true) :
    (sum8 (rxSlice s 0 (s.rxw.val - 1)) = rxRead s (s.rxw.val - 1) →
      frameEnd a s = { s with fFraming := false, fComplete := true }) ∧
    (sum8 (rxSlice s 0 (s.rxw.val - 1)) ≠ rxRead s (s.rxw.val - 1) →
      ((s.cfg.role = .host ∨ (2 ≤ (rxRead s 1).toNat ∧ (rxRead s 2 = 0xF0 ∨ rxRead s 2 = 0xF2))) →
        frameEnd a s = frameClear s) ∧
      (s.cfg.role = .node → ¬(2 ≤ (rxRead s 1).toNat ∧ (rxRead s 2 = 0xF0 ∨ rxRead s 2 = 0xF2)) →
        frameEnd a s = { s with fFraming := false, fSumerr := true })) := by
  rw [← exemptFrame_eq_true]
  rcases frameEnd_cases a s with ⟨hm, _⟩ | ⟨_, hsum, he⟩ | ⟨_, hsum, hsilent, he⟩ | ⟨_, hsum, hrole, hx, he⟩
  · exact absurd (h.symm.trans hm) (by decide)
  · rw [checksumOk, decide_eq_true_eq] at hsum
    exact ⟨fun _ => he, fun hne => absurd hsum hne⟩
  · rw [checksumOk, decide_eq_false_iff_not] at hsum
    refine ⟨fun heq => absurd heq hsum, fun _ => ⟨fun _ => he, fun hrole hx => ?_⟩⟩
    rcases hsilent with hhost | hexempt
    · exact absurd (hrole.symm.trans hhost) (by decide)
    · exact absurd hexempt hx
  · rw [checksumOk, decide_eq_false_iff_not] at hsum
    refine ⟨fun heq => absurd heq hsum, fun _ => ⟨fun hsilent => ?_, fun _ _ => he⟩⟩
    rcases hsilent with hhost | hexempt
    · exact absurd (hrole.symm.trans hhost) (by decide)
    · exact absurd (hx.symm.trans hexempt) (by decide)

/-- An address that is not the broadcast address, a node's address in the table or the host's own is filtered (rules
R34, R223). -/
theorem addrMatch_eq_false {s : State} {a : Byte} (hbcast : a ≠ 0xFF)
    (hnode : s.cfg.role = .node → a ∉ s.atab) (hhost : s.cfg.role = .host → a ≠ 0x00) :
    addrMatch s a = false := by
  rw [← Bool.not_eq_true, addrMatch_eq_true]
  rintro (h | ⟨hr, h⟩ | ⟨hr, h⟩)
  · exact hbcast h
  · exact hnode hr h
  · exact hhost hr h

/-- Each special address runs the end of a frame with that address (rules R73, R222). -/
theorem exec_address {i : Instr} {a : Byte} (s : State)
    (h : (i, a) ∈ [(Instr.addrHost, (0x00 : Byte)), (.addrBcast, 0xFF)]) :
    exec i s = .next (frameEnd a s) ∧ (a = 0x00 ∨ a = 0xFF) := by
  simp only [List.mem_cons, Prod.mk.injEq, List.not_mem_nil, or_false] at h
  rcases h with ⟨rfl, rfl⟩ | ⟨rfl, rfl⟩
  · exact ⟨rfl, .inl rfl⟩
  · exact ⟨rfl, .inr rfl⟩

/-- Settles O14: the outcomes of `frameEnd_filtered` and `frameEnd_matched`, as the meanings of the two addresses and
as the step of the loop. -/
theorem frameEndOutcomes : Obligations.FrameEndOutcomes := by
  refine ⟨?_, ?_⟩
  · intro i a s hi
    obtain ⟨hexec, ha⟩ := exec_address s hi
    simp only [hexec, Host.Outcome.next.injEq]
    refine ⟨fun hbcast hrole htable => frameEnd_filtered ?_, fun hpass => frameEnd_matched ?_⟩
    · exact addrMatch_eq_false hbcast (fun _ => htable) fun hhost => absurd (hrole.symm.trans hhost) (by decide)
    · rw [addrMatch_eq_true]
      cases hrole : s.cfg.role with
      | node => exact hpass.imp_right fun h => .inl ⟨rfl, h.resolve_left (by rw [hrole]; decide)⟩
      | host => exact ha.symm.imp id fun h => .inr ⟨rfl, h⟩
  · intro s t r a hturn hphase hpending hf htwo hlength ha
    have hdue : frameEndDue t = true := frameEndDue_eq_true.mpr ⟨hf, htwo, hlength⟩
    simp only [step_receive_frameEnd hturn hphase hpending hdue, ha, Host.Outcome.next.injEq]
    exact ⟨fun hbcast hnode hhost => frameEnd_filtered (addrMatch_eq_false hbcast hnode hhost),
      fun hpass => frameEnd_matched (addrMatch_eq_true.mpr hpass)⟩

end Sys2Proof.Machine
end

section
/-! The Node Engine's loop: which instruction a step runs, the tests before a command, what an unverified frame
returns, and the answers to unknown and overlong commands (rules R252 to R260, R276, R395). -/

namespace Sys2Proof.Machine

/-! ## The instruction a step runs -/

/-- When the fetch answers an instruction, a step of the block runs it. -/
theorem step_run {s t u : State} {i : Instr} (hturn : nextTurn s = .block t) (hfetch : fetch t = .run i u) :
    step s = exec i u := by
  rw [step_of_block hturn, work_run hfetch]

/-- When the fetch answers an outcome, a step of the block is that outcome. -/
theorem step_done {s t : State} {o : Outcome} (hturn : nextTurn s = .block t) (hfetch : fetch t = .done o) :
    step s = o := by
  rw [step_of_block hturn, work_done hfetch]

theorem fetchCommand_ok {s : State} {i : Instr} {rest : List Byte}
    (h : decodeCommand s.cfg (fetchBytes s) = .ok (i, rest)) : fetchCommand s = .run i s := by
  simp only [fetchCommand, h]

/-- The frames in which `NE_NEXT(spec)` looks at a command, and the end of the bytes it may look at: the checksum's
index in a verified frame, in one still being received the write cursor too (rules R252, R255). -/
def LooksUpTo (spec : Bool) (limit : Nat) (s : State) : Prop :=
  (s.fComplete = true ∧ limit = (rxRead s 1).toNat + 1) ∨
  (s.fComplete = false ∧ limit = min ((rxRead s 1).toNat + 1) s.rxw.val ∧ spec = true ∧
    s.fFraming = true ∧ 2 ≤ s.rxw.val ∧ addrMatch s (rxRead s 0) = true)

theorem LooksUpTo.fetchLimit {spec : Bool} {limit : Nat} {s : State} (h : LooksUpTo spec limit s) :
    fetchLimit s = limit := by
  rcases h with ⟨hc, rfl⟩ | ⟨hc, rfl, _⟩
  · exact fetchLimit_of_complete hc
  · exact fetchLimit_of_unverified hc

/-- In a frame still being received `NE_NEXT` returns `Incomplete` while it may not look at a command (rules R252,
R255). -/
theorem unverifiedResult_of_framing (spec : Bool) {s : State} (hcomplete : s.fComplete = false)
    (hframing : s.fFraming = true) :
    unverifiedResult spec s =
      if spec = false ∨ s.rxw.val < 2 ∨ addrMatch s (rxRead s 0) = false then some .incomplete else none := by
  simp only [unverifiedResult, hcomplete, hframing, Bool.false_eq_true, Bool.true_eq_false, if_false]

theorem LooksUpTo.unverifiedResult {spec : Bool} {limit : Nat} {s : State} (h : LooksUpTo spec limit s) :
    unverifiedResult spec s = none := by
  rcases h with ⟨hc, _⟩ | ⟨hc, _, rfl, hf, hrxw, ha⟩
  · exact unverifiedResult_of_complete spec hc
  · rw [unverifiedResult_of_framing true hc hf, if_neg]
    rintro (h | h | h)
    · cases h
    · omega
    · exact absurd (ha.symm.trans h) (by decide)

/-- A command at the read cursor is run (rules R252, R256). -/
theorem step_command {s t : State} {spec : Bool} {limit : Nat} {i : Instr} {rest : List Byte}
    (hturn : nextTurn s = .block t) (hphase : t.phase = .nodeLoop spec) (hsumerr : t.fSumerr = false)
    (hovf : t.fTxovf = false) (hlook : LooksUpTo spec limit t) (hrxr : t.rxr < limit)
    (hdecode : decodeCommand t.cfg (rxSlice t t.rxr limit) = .ok (i, rest)) : step s = exec i t := by
  have hlimit := hlook.fetchLimit
  refine step_run hturn ?_
  rw [fetch_nodeLoop hphase, fetchNode_command hsumerr hlook.unverifiedResult hovf (by omega)]
  exact fetchCommand_ok (by rw [fetchBytes, hlimit]; exact hdecode)

/-- Settles O17: one fetch for each level. -/
theorem stepRunsTheDecodedInstruction : Obligations.StepRunsTheDecodedInstruction := by
  intro s t i hturn
  refine ⟨?_, ?_, ?_, ?_, ?_⟩
  · intro spec limit rest hphase hsumerr hovf hlook hrxr hdecode
    refine step_command hturn hphase hsumerr hovf (limit := limit) (hlook.imp_right ?_) hrxr hdecode
    rintro ⟨hc, hlimit, hspec, hf, hrxw, hrole, ha⟩
    exact ⟨hc, hlimit, hspec, hf, hrxw, addrMatch_eq_true.mpr (ha.imp_right fun h => .inl ⟨hrole, h⟩)⟩
  · intro r b rest hphase hpending hdue hchan hwire
    refine step_run hturn ?_
    simp only [fetch, hphase, fetchReceive, hpending, hdue, hchan, hwire, Bool.false_eq_true, if_false]
  · intro r hphase hpending hdue haddress
    refine step_run hturn ?_
    simp only [fetch, hphase, fetchReceive, hpending, hdue, haddress, Bool.false_eq_true, if_false, if_true]
  · rintro p rfl
    refine ⟨fun hphase hwait hcomplete haddress htwo hstatus => step_run hturn ?_,
      fun hphase hreport => step_run hturn ?_⟩
    · have hframed : replyFramed t = true := by
        rw [replyFramed, Bool.and_eq_true, decide_eq_true_eq, decide_eq_true_eq]
        exact ⟨haddress, htwo⟩
      have hcode : decodeStatus (payAt (replyPayload t) 0) = some i := hstatus
      simp only [fetch, hphase, fetchHost, hwait, hcomplete, hframed, hcode, and_self, if_true]
    · have hcode : decodeReport (payAt (replyPayload t) 1) = some i := hreport
      simp only [fetch, hphase, fetchReport, hcode]
  · intro b hphase hreport
    refine step_run hturn ?_
    simp only [fetch, hphase, fetchPush, hreport]

/-! ## The tests before a command -/

/-- A failed checksum is answered first (rule R254). -/
theorem step_sumerr {s t : State} {spec : Bool} (hturn : nextTurn s = .block t)
    (hphase : t.phase = .nodeLoop spec) (hsumerr : t.fSumerr = true) : step s = exec .stSumerr t :=
  step_run hturn (by rw [fetch_nodeLoop hphase, fetchNode_sumerr spec hsumerr])

/-- In an unverified frame nothing is answered: while no more may be looked at, after an overflow, at the end of the
bytes at hand and at bytes that are no command, `NE_NEXT` returns `Incomplete` (rules R252, R255, R256, R259,
R276). -/
theorem step_incomplete {s t : State} {spec : Bool} (hturn : nextTurn s = .block t)
    (hphase : t.phase = .nodeLoop spec) (hsumerr : t.fSumerr = false) (hcomplete : t.fComplete = false)
    (hframing : t.fFraming = true)
    (hwait : unverifiedResult spec t ≠ none ∨ t.fTxovf = true ∨ fetchLimit t ≤ t.rxr ∨
      ∃ e, decodeCommand t.cfg (fetchBytes t) = .error e) :
    step s = .next (finish .incomplete t) := by
  refine step_done hturn ?_
  rw [fetch_nodeLoop hphase]
  cases hu : unverifiedResult spec t with
  | some r =>
    rw [fetchNode_unverified hsumerr hu]
    rw [unverifiedResult_of_framing spec hcomplete hframing, Option.ite_none_right_eq_some] at hu
    rw [← Option.some.inj hu.2]
  | none =>
    by_cases hovf : t.fTxovf = true
    · rw [fetchNode_overflow hsumerr hu hovf, orIncomplete_of_unverified hcomplete]
    · have hovf' : t.fTxovf = false := by simpa using hovf
      by_cases hend : fetchLimit t ≤ t.rxr
      · rw [fetchNode_end hsumerr hu hovf' hend, orIncomplete_of_unverified hcomplete]
      · rw [fetchNode_command hsumerr hu hovf' (by omega)]
        obtain ⟨e, he⟩ : ∃ e, decodeCommand t.cfg (fetchBytes t) = .error e :=
          ((hwait.resolve_left fun h => h hu).resolve_left hovf).resolve_left hend
        cases e <;> simp only [fetchCommand, he, orIncomplete_of_unverified hcomplete]

/-- In a verified frame an overflow is answered before the next command (rule R276). -/
theorem step_overflow {s t : State} {spec : Bool} (hturn : nextTurn s = .block t)
    (hphase : t.phase = .nodeLoop spec) (hsumerr : t.fSumerr = false) (hcomplete : t.fComplete = true)
    (hovf : t.fTxovf = true) : step s = exec .stOverflow t :=
  step_run hturn (by
    rw [fetch_nodeLoop hphase, fetchNode_overflow hsumerr (unverifiedResult_of_complete spec hcomplete) hovf,
      orIncomplete_of_complete hcomplete])

/-- At the end of a verified payload the reports are sent (rule R253). -/
theorem step_payloadEnd {s t : State} {spec : Bool} (hturn : nextTurn s = .block t)
    (hphase : t.phase = .nodeLoop spec) (hsumerr : t.fSumerr = false) (hcomplete : t.fComplete = true)
    (hovf : t.fTxovf = false) (hend : fetchLimit t ≤ t.rxr) : step s = exec .stOk t :=
  step_run hturn (by
    rw [fetch_nodeLoop hphase, fetchNode_end hsumerr (unverifiedResult_of_complete spec hcomplete) hovf hend,
      orIncomplete_of_complete hcomplete])

/-- Settles O18: the tests in the order of `fetchNode`. -/
theorem nodeTestsInOrder : Obligations.NodeTestsInOrder := by
  intro s t spec hturn hphase
  refine ⟨fun hsumerr => step_sumerr hturn hphase hsumerr, fun hsumerr hcomplete hframing => ?_,
    fun hsumerr hcomplete hframing hwait => ?_,
    fun hsumerr hcomplete hovf => step_overflow hturn hphase hsumerr hcomplete hovf,
    fun hsumerr hcomplete hovf hend =>
      step_payloadEnd hturn hphase hsumerr hcomplete hovf (by rw [fetchLimit_of_complete hcomplete]; exact hend)⟩
  · refine step_done hturn ?_
    rw [fetch_nodeLoop hphase, fetchNode_unverified (r := .none) hsumerr
      (by simp only [unverifiedResult, hcomplete, hframing, Bool.false_eq_true, if_false, if_true])]
    rfl
  · refine step_incomplete hturn hphase hsumerr hcomplete hframing ?_
    have hwaits (h : spec = false ∨ t.rxw.val < 2 ∨ addrMatch t (rxRead t 0) = false) :
        unverifiedResult spec t ≠ none := by
      rw [unverifiedResult_of_framing spec hcomplete hframing, if_pos h]
      exact Option.some_ne_none _
    rcases hwait with hspec | hrxw | ⟨hrole, hbcast, htable⟩ | hovf | hend
    · exact .inl (hwaits (.inl hspec))
    · exact .inl (hwaits (.inr (.inl hrxw)))
    · exact .inl (hwaits (.inr (.inr (addrMatch_eq_false hbcast (fun _ => htable)
        fun hhost => absurd (hrole.symm.trans hhost) (by decide)))))
    · exact .inr (.inl hovf)
    · exact .inr (.inr (.inl (by rw [fetchLimit_of_unverified hcomplete]; exact hend)))

/-! ## Bytes that are no command -/

/-- What the decoder answers at bytes that the Command Table calls unknown, leaves undecided, or measures longer than
they are (rules R174, R256). -/
theorem decodeCommand_error {cfg : Config} {op : Byte} {args : List Byte} :
    (ctSize cfg (op :: args) (op :: args).length = .unknown →
      decodeCommand cfg (op :: args) = .error (.unknownOpcode op)) ∧
    (ctSize cfg (op :: args) (op :: args).length = .incomplete →
      decodeCommand cfg (op :: args) = .error .incomplete) ∧
    (∀ n, ctSize cfg (op :: args) (op :: args).length = .size n → (op :: args).length < n →
      decodeCommand cfg (op :: args) = .error (.overrun n)) := by
  refine ⟨fun h => ?_, fun h => ?_, fun n h hn => ?_⟩
  · simp only [decodeCommand, h]
  · simp only [decodeCommand, h]
  · simp only [decodeCommand, h, if_pos hn]

/-- Some bytes before the end begin with the byte at the read cursor. -/
theorem rxSlice_cons {s : State} {i j : Nat} (h : i < j) : ∃ args, rxSlice s i j = rxRead s i :: args := by
  obtain ⟨k, hk⟩ : ∃ k, j - i = k + 1 := ⟨j - i - 1, by omega⟩
  exact ⟨_, by rw [rxSlice, Memory.slice, hk, List.range'_succ, List.map_cons]; rfl⟩

/-- An error status of a node: the packet of four bytes, kept for a retry, and the frame cleared (rules R254, R258,
R276, R277). -/
theorem replyAndReturn_eq (st : Byte) (s : State) :
    replyAndReturn st s = { frameClear s with
      txlast := some (fcPacket addrHost ⟨[st], by simp⟩)
      phase := .idle
      trace := s.trace ++ nodeTransmitEvents s (fcPacket addrHost ⟨[st], by simp⟩) ++ [.returned .none] } := rfl

/-- Settles O30: the packet of each error status, evaluated. -/
theorem errorStatusesReplyAndClear : Obligations.ErrorStatusesReplyAndClear := by
  intro i p s hi hrole
  simp only [List.mem_cons, Prod.mk.injEq, List.not_mem_nil, or_false] at hi
  rcases hi with ⟨rfl, rfl⟩ | ⟨rfl, rfl⟩ | ⟨rfl, rfl⟩
  · rw [exec_stUnknown, execStUnknown, byRole_of_node hrole, replyAndReturn_eq]; rfl
  · rw [exec_stSumerr, execStSumerr, byRole_of_node hrole, replyAndReturn_eq]; rfl
  · rw [exec_stOverflow, execStOverflow, byRole_of_node hrole, replyAndReturn_eq]; rfl

/-- In a verified frame bytes that are no command are answered: an unknown opcode with its event, the others without
(rules R149, R258, R260). -/
theorem step_commandError {s t : State} {spec : Bool} {e : DecodeError} (hturn : nextTurn s = .block t)
    (hphase : t.phase = .nodeLoop spec) (hsumerr : t.fSumerr = false) (hcomplete : t.fComplete = true)
    (hovf : t.fTxovf = false) (hrxr : t.rxr < fetchLimit t)
    (he : decodeCommand t.cfg (fetchBytes t) = .error e) :
    (∀ op, e = .unknownOpcode op → step s = exec .stUnknown (emit (.evUnknownOpcode op) t)) ∧
    ((∀ op, e ≠ .unknownOpcode op) → step s = exec .stUnknown t) := by
  have hfetch : fetch t = fetchCommand t := by
    rw [fetch_nodeLoop hphase,
      fetchNode_command hsumerr (unverifiedResult_of_complete spec hcomplete) hovf hrxr]
  refine ⟨fun op hop => step_run hturn ?_, fun hop => step_run hturn ?_⟩
  · rw [hfetch]
    simp only [fetchCommand, he, hop, orIncomplete_of_complete hcomplete]
  · rw [hfetch]
    cases e with
    | unknownOpcode op => exact absurd rfl (hop op)
    | _ => simp only [fetchCommand, he, orIncomplete_of_complete hcomplete]

/-- Settles O19: in a verified frame each error of the decoder is answered, in any other `NE_NEXT` waits. -/
theorem commandErrorsAreAnsweredOnce : Obligations.CommandErrorsAreAnsweredOnce := by
  refine ⟨?_, ?_⟩
  · intro s t spec bytes hturn hphase hrole hsumerr hcomplete hovf hrxr hbytes
    have hlimit := fetchLimit_of_complete hcomplete
    have hfetch : fetchBytes t = bytes := by rw [fetchBytes, hlimit, hbytes]
    obtain ⟨args, hargs⟩ := rxSlice_cons (s := t) hrxr
    have herror := decodeCommand_error (cfg := t.cfg) (op := rxRead t t.rxr) (args := args)
    rw [← hargs, ← hbytes] at herror
    obtain ⟨hunknown, hincomplete, hoverrun⟩ := herror
    have hanswer {e : DecodeError} (he : decodeCommand t.cfg bytes = .error e) :=
      step_commandError hturn hphase hsumerr hcomplete hovf (by rw [hlimit]; exact hrxr)
        (hfetch.symm ▸ he)
    constructor
    · intro hsize
      rw [(hanswer (hunknown hsize)).1 _ rfl, exec_stUnknown, execStUnknown,
        byRole_of_node (by exact hrole), replyAndReturn_eq]
      rfl
    · intro hsize
      have hstep : step s = exec .stUnknown t := by
        rcases hsize with hsize | ⟨n, hsize, hn⟩
        · exact (hanswer (hincomplete hsize)).2 (by simp)
        · exact (hanswer (hoverrun n hsize hn)).2 (by simp)
      rw [hstep, exec_stUnknown, execStUnknown, byRole_of_node hrole, replyAndReturn_eq]
      rfl
  · intro s t limit bytes hturn hphase hsumerr hcomplete hframing _ _ _ hlimit hrxr hbytes hsize
    refine step_incomplete hturn hphase hsumerr hcomplete hframing (.inr (.inr (.inr ?_)))
    obtain ⟨args, hargs⟩ := rxSlice_cons (s := t) hrxr
    have herror := decodeCommand_error (cfg := t.cfg) (op := rxRead t t.rxr) (args := args)
    rw [← hargs, ← hbytes] at herror
    obtain ⟨hunknown, hincomplete, hoverrun⟩ := herror
    rw [fetchBytes, fetchLimit_of_unverified hcomplete, ← hlimit, ← hbytes]
    rcases hsize with hsize | hsize | ⟨n, hsize, hn⟩
    · exact ⟨_, hunknown hsize⟩
    · exact ⟨_, hincomplete hsize⟩
    · exact ⟨_, hoverrun n hsize hn⟩

/-! ## Surfaced commands -/

/-- A surfaced command of a node is handed to the application (rule R273). -/
theorem exec_of_surfaced {i : Instr} (h : surfaced i = true) {s : State} (hrole : s.cfg.role = .node) :
    exec i s = .next (surface i s) := by
  rw [← onNode_of_node hrole]
  cases i <;> first | (cases h; done) | rfl

/-- The first bytes of a slice are the slice that ends behind them. -/
theorem rxSlice_take (s : State) {i j n : Nat} (h : n ≤ j - i) :
    (rxSlice s i j).take n = rxSlice s i (i + n) := by
  refine List.ext_getElem? fun k => ?_
  rw [List.getElem?_take, rxSlice, rxSlice, Memory.getElem?_slice, Memory.getElem?_slice,
    Nat.add_sub_cancel_left]
  split_ifs with hn hj
  · rfl
  · omega
  · rfl

/-- A decoded command is the bytes at the read cursor, at least one of them and none beyond the end. -/
theorem encode_of_decodeCommand {cfg : Config} (hlegal : cfg.legal = true) {s : State} {i j : Nat}
    {instr : Instr} {rest : List Byte} (h : decodeCommand cfg (rxSlice s i j) = .ok (instr, rest)) :
    1 ≤ (encode instr).length ∧ (encode instr).length ≤ j - i ∧
      encode instr = rxSlice s i (i + (encode instr).length) := by
  obtain ⟨_, _, hbytes⟩ := decodeCommand_sound hlegal h
  have hlength : (encode instr).length + rest.length = j - i := by
    rw [← List.length_append, hbytes, rxSlice, Memory.length_slice]
  refine ⟨List.length_pos_iff.mpr (encode_ne_nil instr), by omega, ?_⟩
  rw [← rxSlice_take s (by omega : (encode instr).length ≤ j - i), ← hbytes, List.take_left]

/-- Settles O20: the meaning of every surfaced command, and its bytes by `encode_of_decodeCommand`. -/
theorem surfacedCommandsGoToTheApplication : Obligations.SurfacedCommandsGoToTheApplication := by
  refine ⟨?_, ?_, ?_⟩
  · intro s i j k
    rw [rxSlice, Memory.getElem?_slice]
    exact ite_congr (propext (by omega)) (fun _ => rfl) fun _ => rfl
  · intro i s hi hrole
    exact exec_of_surfaced hi hrole
  · intro s t spec limit i rest hturn hphase hlegal hrole hsumerr hovf hlook hrxr hdecode hi
    have hlook' : LooksUpTo spec limit t := hlook.imp_right fun ⟨hc, hlimit, hspec, hf, hrxw, ha⟩ =>
      ⟨hc, hlimit, hspec, hf, hrxw, addrMatch_eq_true.mpr (ha.imp_right fun h => .inl ⟨hrole, h⟩)⟩
    obtain ⟨hone, hlength, hencode⟩ := encode_of_decodeCommand hlegal hdecode
    refine ⟨(encode i).length, hone, by omega, ?_⟩
    rw [step_command hturn hphase hsumerr hovf hlook' hrxr hdecode, exec_of_surfaced hi hrole, ← hencode]
    rfl

end Sys2Proof.Machine
end

section
/-! What the Node Engine's instructions do: reports and queries, the commands that act on the bus, the status packet,
the pushes of the application and the calls that are whole (rules R257, R264 to R282). -/

namespace Sys2Proof.Machine

/-! ## A pushed byte -/

/-- Without room the overflow flag is raised and nothing else changes (rules R274, R276). -/
theorem nePush_of_full {s : State} (hfull : s.txn.val = 253) (b : Byte) :
    nePush b s = { s with fTxovf := true } := nePush_full hfull b

/-- With room a push changes the report buffer and its count only (rule R274). -/
theorem nePush_of_room {s : State} (hm : Memory.wf s.txr = true) (hovf : s.fTxovf = false)
    (hroom : s.txn.val < 253) (b : Byte) :
    nePush b s = { s with txr := (nePush b s).txr, txn := (nePush b s).txn } := by
  obtain ⟨_, _, hovf', _⟩ := nePush_room hm hovf hroom b
  have hframe := nePush_frame b s
  rw [hovf', ← hovf] at hframe
  exact hframe

/-- `u` is `s` with `bytes` queued behind the pending reports, and with nothing else of the report buffer changed. -/
structure Queued (bytes : List Byte) (s u : State) : Prop where
  reports : pendingReports u = pendingReports s ++ bytes
  count : u.txn.val = s.txn.val + bytes.length
  others : ∀ a, a < s.txn.val ∨ s.txn.val + bytes.length ≤ a → u.txr.read a = s.txr.read a

/-- With room a pushed byte is queued (rule R274). -/
theorem queued_nePush {s : State} (hm : Memory.wf s.txr = true) (hovf : s.fTxovf = false)
    (hroom : s.txn.val < 253) (b : Byte) : Queued [b] s (nePush b s) := by
  obtain ⟨hreports, hcount, _, _, hothers⟩ := nePush_room hm hovf hroom b
  exact ⟨hreports, hcount, fun a ha => hothers a (by simp only [List.length_singleton] at ha; omega)⟩

/-- Reports queued one behind the other. -/
theorem Queued.trans {s u v : State} {l m : List Byte} (h : Queued l s u) (h' : Queued m u v) :
    Queued (l ++ m) s v := by
  have hcount := h.count
  refine ⟨by rw [h'.reports, h.reports, List.append_assoc], ?_, fun a ha => ?_⟩
  · rw [h'.count, hcount, List.length_append]; omega
  · rw [List.length_append] at ha
    rw [h'.others a (by omega), h.others a (by omega)]

/-! ## The queries -/

/-- Each of the four queries answers `RP_OK` and the byte of its rule (rules R267 to R269, R271). -/
theorem exec_query {i : Instr} {s : State} (hi : i ∈ [Instr.cmdrev, .jvsrev, .commsup, .commver])
    (hrole : s.cfg.role = .node) :
    ∃ b, exec i s = .next { nePush b (nePush reportOk s) with rxr := s.rxr + 1 } := by
  simp only [List.mem_cons, List.not_mem_nil, or_false] at hi
  rcases hi with rfl | rfl | rfl | rfl
  · exact ⟨s.cfg.cmdRev, onNode_of_node hrole⟩
  · exact ⟨s.cfg.jvRev, onNode_of_node hrole⟩
  · exact ⟨s.cfg.speedMask, onNode_of_node hrole⟩
  · exact ⟨protocolVersion s, onNode_of_node hrole⟩

/-- Settles O21: two pushes, both with room. -/
theorem queriesQueueOkAndOneByte : Obligations.QueriesQueueOkAndOneByte := by
  intro i b s hi hrole hm hovf hcount
  have hexec : exec i s = .next { nePush b (nePush reportOk s) with rxr := s.rxr + 1 } := by
    simp only [List.mem_cons, Prod.mk.injEq, List.not_mem_nil, or_false] at hi
    rcases hi with ⟨rfl, rfl⟩ | ⟨rfl, rfl⟩ | ⟨rfl, rfl⟩ | ⟨rfl, rfl⟩ <;> exact onNode_of_node hrole
  obtain ⟨_, hcount', hovf', hm', _⟩ := nePush_room hm hovf (by omega) reportOk
  have hqueued := (queued_nePush hm hovf (by omega) reportOk).trans
    (queued_nePush hm' hovf' (by omega) b)
  refine ⟨_, hexec, hqueued.reports, hqueued.count, fun a ha ha' => hqueued.others a ?_, ?_⟩
  · simp only [List.length_append, List.length_singleton]; omega
  · rw [nePush_of_room hm' hovf' (by omega) b, nePush_of_room hm hovf (by omega) reportOk]

/-- Settles O22: no push, a push without room, or one push with room and one without. -/
theorem queriesWithoutRoomOverflow : Obligations.QueriesWithoutRoomOverflow := by
  intro i s hi hrole
  obtain ⟨b, hexec⟩ := exec_query hi hrole
  refine ⟨fun hovf => ?_, fun _ hfull => ?_, fun hovf hlast hm => ?_⟩
  · rw [hexec, nePush_overflowed hovf, nePush_overflowed hovf]
  · rw [hexec, nePush_of_full hfull, nePush_overflowed rfl]
  · have hqueued := queued_nePush hm hovf (by omega) reportOk
    have hfull : (nePush reportOk s).txn.val = 253 := by rw [hqueued.count, hlast]; rfl
    rw [nePush_of_full hfull] at hexec
    refine ⟨_, hexec, hqueued.reports, hfull, fun a ha => hqueued.others a ?_, ?_⟩
    · simp only [List.length_singleton]; omega
    · rw [nePush_of_room hm hovf (by omega) reportOk]

/-- `RP_OK` queued by a command of `n` bytes in the state `s`: with room, without room and after an overflow (rules
R274, R276). -/
theorem pushOk_outcomes (s : State) (n : Nat) :
    (s.fTxovf = true → { nePush reportOk s with rxr := s.rxr + n } = { s with rxr := s.rxr + n }) ∧
    (s.fTxovf = false → s.txn.val = 253 →
      { nePush reportOk s with rxr := s.rxr + n } = { s with rxr := s.rxr + n, fTxovf := true }) ∧
    (s.fTxovf = false → s.txn.val ≤ 252 → Memory.wf s.txr = true →
      ∃ t, { nePush reportOk s with rxr := s.rxr + n } = t ∧
        pendingReports t = pendingReports s ++ [0x01] ∧ t.txn.val = s.txn.val + 1 ∧
        (∀ a, a ≠ s.txn.val → t.txr.read a = s.txr.read a) ∧
        t = { s with rxr := s.rxr + n, txr := t.txr, txn := t.txn }) := by
  refine ⟨fun hovf => ?_, fun _ hfull => ?_, fun hovf hroom hm => ?_⟩
  · rw [nePush_overflowed hovf]
  · rw [nePush_of_full hfull]
  · have hqueued := queued_nePush hm hovf (by omega) reportOk
    refine ⟨_, rfl, hqueued.reports, hqueued.count, fun a ha => hqueued.others a ?_, ?_⟩
    · simp only [List.length_singleton]; omega
    · rw [nePush_of_room hm hovf (by omega) reportOk]

theorem length_encode_mainid (text : List Byte) : (encode (.mainid text)).length = text.length + 2 := by
  simp only [encode, List.length_cons, List.length_append, List.length_nil]

/-- Settles O23: one push, and the cursor moves past the text and its terminator. -/
theorem mainidDropsItsText : Obligations.MainidDropsItsText := by
  intro text s hrole
  have hexec : exec (.mainid text) s =
      .next { nePush reportOk s with rxr := s.rxr + (text.length + 2) } := by
    rw [exec_mainid, execMainid, onNode_of_node hrole, answerOk, advance, length_encode_mainid]
    rfl
  simp only [hexec, Host.Outcome.next.injEq]
  exact pushOk_outcomes s (text.length + 2)

/-! ## The commands that wait for a verified frame -/

/-- Abandoning a frame: it is cleared and `NE_NEXT` returns nothing (rule R262). -/
theorem abandon_eq (s : State) :
    abandon s = { frameClear s with phase := .idle, trace := s.trace ++ [.returned .none] } := rfl

/-- Settles O28: each of the four is `whenVerified`. -/
theorem withheldUntilVerified : Obligations.WithheldUntilVerified := by
  intro i arg s hi hrole hcomplete
  simp only [List.mem_cons, List.not_mem_nil, or_false] at hi
  rcases hi with rfl | rfl | rfl | rfl
  · rw [exec_reset, execReset, onNode_of_node hrole, whenVerified_of_unverified hcomplete]; rfl
  · rw [exec_setaddr, execSetaddr, onNode_of_node hrole, whenVerified_of_unverified hcomplete]; rfl
  · rw [exec_commchg, execCommchg, onNode_of_node hrole, whenVerified_of_unverified hcomplete]; rfl
  · rw [exec_retry, execRetry, onNode_of_node hrole, whenVerified_of_unverified hcomplete]; rfl

/-- A slot of the table is free exactly when it holds the broadcast address (rule R266). -/
theorem hasFreeSlot_eq_true {s : State} : hasFreeSlot s = true ↔ addrBcast ∈ s.atab := by
  simp [hasFreeSlot]

/-- Settles O25: staging an address is `RP_OK` from the state that has it staged. -/
theorem setaddrStagesOrAbandons : Obligations.SetaddrStagesOrAbandons := by
  intro addr s hrole hcomplete
  have hexec : exec (.setaddr addr) s = .next (stageAddress addr s) := by
    rw [exec_setaddr, execSetaddr, onNode_of_node hrole, whenVerified_of_complete hcomplete]
  rw [hexec]
  refine ⟨fun hready hfree => ?_, fun hrefused => ?_⟩
  · have hstage : stageAddress addr s =
        { nePush reportOk { s with newaddr := addr } with rxr := s.rxr + 2 } := by
      rw [stageAddress, if_pos ⟨hready, hasFreeSlot_eq_true.mpr hfree⟩]
      rfl
    simp only [hstage, Host.Outcome.next.injEq]
    exact pushOk_outcomes { s with newaddr := addr } 2
  · rw [stageAddress, if_neg, abandon_eq]
    rintro ⟨hready, hfree⟩
    rcases hrefused with hnot | hfull
    · exact absurd (hnot.symm.trans hready) (by decide)
    · exact hfull (hasFreeSlot_eq_true.mp hfree)

/-- What the speed switch does: no mode for the argument, a mode the channel accepts, or one it refuses (rule
R271). -/
theorem switchSpeed_cases (mode : Byte) (s : State) :
    (s.cfg.speedOf.lookup mode = none ∧ switchSpeed mode s = s) ∨
    (∃ m, s.cfg.speedOf.lookup mode = some m ∧ (m, true) ∈ s.speedYes ∧
      switchSpeed mode s = { s with commMode := m, trace := s.trace ++ [.speedCommit m true] }) ∨
    (∃ m, s.cfg.speedOf.lookup mode = some m ∧ (m, true) ∉ s.speedYes ∧
      switchSpeed mode s = { s with trace := s.trace ++ [.speedCommit m false] }) := by
  unfold switchSpeed speedOf chanSpeed
  cases hm : s.cfg.speedOf.lookup mode with
  | none => exact .inl ⟨rfl, rfl⟩
  | some m =>
    by_cases hyes : (m, true) ∈ s.speedYes
    · exact .inr (.inl ⟨m, rfl, hyes, if_pos (List.contains_iff_mem.mpr hyes)⟩)
    · exact .inr (.inr ⟨m, rfl, hyes, if_neg fun h => hyes (List.contains_iff_mem.mp h)⟩)

/-- Settles O26: the three outcomes of the speed switch, each followed by the end of the frame. -/
theorem commchgSwitchesTheSpeed : Obligations.CommchgSwitchesTheSpeed := by
  intro mode s hrole hcomplete
  have hexec : exec (.commchg mode) s = .next (abandon (switchSpeed mode s)) := by
    rw [exec_commchg, execCommchg, onNode_of_node hrole, whenVerified_of_complete hcomplete]
  simp only [hexec, Host.Outcome.next.injEq, abandon_eq]
  rcases switchSpeed_cases mode s with ⟨hm, he⟩ | ⟨m, hm, hyes, he⟩ | ⟨m, hm, hno, he⟩ <;> simp only [he, hm]
  · exact ⟨fun _ => trivial, fun _ h => (nomatch h), fun _ h => (nomatch h)⟩
  · refine ⟨fun h => (nomatch h), fun m' hm' _ => ?_, fun m' hm' hno => ?_⟩
    · obtain rfl := Option.some.inj hm'
      rw [List.append_assoc]; rfl
    · obtain rfl := Option.some.inj hm'
      exact absurd hyes hno
  · refine ⟨fun h => (nomatch h), fun m' hm' hyes => ?_, fun m' hm' _ => ?_⟩
    · obtain rfl := Option.some.inj hm'
      exact absurd hyes hno
    · obtain rfl := Option.some.inj hm'
      rw [List.append_assoc]; rfl

/-- Settles O27: with a packet kept it is transmitted again, and the frame is abandoned in both cases. -/
theorem retryResendsTheLastPacket : Obligations.RetryResendsTheLastPacket := by
  intro s hrole hcomplete
  have hexec : exec .retry s = .next (abandon (resendLast s)) := by
    rw [exec_retry, execRetry, onNode_of_node hrole, whenVerified_of_complete hcomplete]
  rw [hexec]
  refine ⟨fun hlast => ?_, fun p hlast => ?_⟩
  · rw [resendLast, hlast, abandon_eq]
  · rw [resendLast, hlast, abandon_eq]
    rfl

/-! ## The status packet -/

/-- The packet `NE_SEND_STATUS` composes (rule R277). -/
def statusPacket (s : State) : List Byte := fcPacket 0x00 ⟨0x01 :: pendingReports s, okReply_bound s⟩

/-- A node's `ST_OK`: a staged address is committed, the packet is kept and sent, the frame is cleared (rules R253,
R277). -/
theorem exec_stOk_of_node {s : State} (hrole : s.cfg.role = .node) :
    exec .stOk s = .next { frameClear s with
      atab := (commitAddress s).atab
      txlast := some (statusPacket s)
      phase := .idle
      trace := (commitAddress s).trace ++ nodeTransmitEvents s (statusPacket s) ++ [.returned .none] } := by
  rw [exec_stOk, execStOk, byRole_of_node hrole, neSendStatus, commitAddress_frame,
    frameClear_of_node (s := s) hrole, frameClear_of_node (by exact hrole)]
  rfl

/-- Settles O29: the status packet of `exec_stOk_of_node` with the commit's two cases. -/
theorem statusOkSendsTheReports : Obligations.StatusOkSendsTheReports := by
  intro s hrole
  rw [exec_stOk_of_node hrole]
  refine ⟨fun k => ?_, fun hstaged => ?_, fun i hstaged hi hfirst => ?_⟩
  · rw [pendingReports, Memory.getElem?_slice, Nat.sub_zero, Nat.zero_add]
  · rcases commitAddress_cases s with ⟨_, he⟩ | ⟨hne, _⟩ | ⟨_, hne, _⟩
    · rw [he]; rfl
    · exact absurd hstaged hne
    · exact absurd hstaged hne
  · have hfree : firstFree s.atab = some i := by
      obtain ⟨hlt, hslot⟩ := List.getElem?_eq_some_iff.mp hi
      refine firstFree_eq_some.mpr ⟨hlt, hslot, fun j hj hfree => hfirst j hj ?_⟩
      rw [List.getElem?_eq_getElem (by omega), hfree]
      rfl
    rcases commitAddress_cases s with ⟨he, _⟩ | ⟨_, hnone, _⟩ | ⟨j, _, hj, he⟩
    · exact absurd he hstaged
    · rw [hfree] at hnone; cases hnone
    · obtain rfl : i = j := Option.some.inj (hfree.symm.trans hj)
      rw [he]; rfl

/-! ## Calls of the application -/

/-- A call is begun when no other runs (rule R438). -/
theorem step_call {s : State} {c : Call} {rest : List Input} (hidle : s.phase = .idle)
    (hinputs : s.inputs = .call c :: rest) : step s = begin c { s with inputs := rest } := by
  simp only [step, nextTurn, hinputs, hidle, if_true]

/-- The byte pushed by the application: with room, without room and after an overflow (rules R274, R276). -/
theorem finish_nePush_outcomes (b : Byte) (s : State) :
    (s.fTxovf = true →
      finish .unit (nePush b s) = { s with phase := .idle, trace := s.trace ++ [.returned .unit] }) ∧
    (s.fTxovf = false → s.txn.val = 253 →
      finish .unit (nePush b s) =
        { s with fTxovf := true, phase := .idle, trace := s.trace ++ [.returned .unit] }) ∧
    (s.fTxovf = false → s.txn.val ≤ 252 → Memory.wf s.txr = true →
      ∃ t, finish .unit (nePush b s) = t ∧ pendingReports t = pendingReports s ++ [b] ∧
        t.txn.val = s.txn.val + 1 ∧ (∀ a, a ≠ s.txn.val → t.txr.read a = s.txr.read a) ∧
        t = { s with
          txr := t.txr, txn := t.txn, phase := .idle, trace := s.trace ++ [.returned .unit] }) := by
  refine ⟨fun hovf => ?_, fun _ hfull => ?_, fun hovf hroom hm => ?_⟩
  · rw [nePush_overflowed hovf]; rfl
  · rw [nePush_of_full hfull]; rfl
  · have hqueued := queued_nePush hm hovf (by omega) b
    refine ⟨_, rfl, hqueued.reports, hqueued.count, fun a ha => hqueued.others a ?_, ?_⟩
    · simp only [List.length_singleton]; omega
    · rw [nePush_of_room hm hovf (by omega) b]; rfl

/-- Settles O31: the one push, as the meaning of `RP_OK` and as the step of `NE_PUSH`. -/
theorem pushAppendsOneByte : Obligations.PushAppendsOneByte := by
  refine ⟨fun s hrole => ?_, fun s t b hturn hphase hrole => ?_, fun s b rest hidle hrole hinputs => ?_⟩
  · simp only [exec_rpOk, execRpOk, byRole_of_node hrole, Host.Outcome.next.injEq]
    exact finish_nePush_outcomes reportOk s
  · simp only [step_of_block hturn, work_push hphase hrole, Host.Outcome.next.injEq]
    exact finish_nePush_outcomes b t
  · rw [step_call hidle hinputs]
    simp only [begin, hrole]

/-- Settles O32: each call is `begin` in node role. -/
theorem nodeQueriesAndLinkLoss : Obligations.NodeQueriesAndLinkLoss := by
  refine ⟨fun s rest hidle hrole => ⟨fun hinputs => ?_, fun hinputs => ?_⟩,
    fun s rest hidle hrole hinputs => ?_, fun s spec rest hidle hrole hinputs => ?_⟩
  · rw [step_call hidle hinputs]
    simp only [begin, hrole, finish, ← hidle]
  · rw [step_call hidle hinputs]
    simp only [begin, hrole, finish, ← hidle]
  · rw [step_call hidle hinputs]
    simp only [begin, hrole, raise, finish, frameClear, unassignAll, ← hidle, List.append_assoc]
    rfl
  · rw [step_call hidle hinputs]
    simp only [begin, hrole]

/-- Settles O60: every command is `onNode`, which refuses in host role. -/
theorem hostRunsNoCommand : Obligations.HostRunsNoCommand := by
  intro i s hlevel hrole
  have hrefused (f : State → State) : onNode f s = .refused .noNodeEngine := by simp only [onNode, hrole]
  cases i <;> first | (cases hlevel; done) | exact hrefused _

end Sys2Proof.Machine
end

section
/-! The Host Engine without a reply to look at: the handshake, the requests, the waits, the trigger of a cycle (rules
R306 to R332, R348 to R352, R360 to R362). -/

namespace Sys2Proof.Machine

/-! ## What the arms share -/

/-- A send clears the frame, puts the packet on the bus and notes the tick (rule R310). -/
theorem heSend_eq (addr : Byte) (payload : Payload) (s : State) :
    heSend addr payload s = { frameClear s with
      ht0 := s.tick, trace := s.trace ++ transmitEvents (fcPacket addr payload) } := rfl

/-- A change of state ends the call with whether the new state is a session state (rule R318). -/
theorem goHost_eq (h : HostState) (s : State) :
    goHost h s = { s with hs := h, phase := .idle, trace := s.trace ++ [.returned (.bool h.isSession)] } := rfl

/-- A state that is kept ends the call with whether it is a session state (rule R318). -/
theorem finishHost_eq {s : State} {h : HostState} (hs : s.hs = h) :
    finishHost s = { s with phase := .idle, trace := s.trace ++ [.returned (.bool h.isSession)] } := by
  rw [← hs]; rfl

/-- With no reply to look at, a step of `HE_RUN` is the arm of the state (rules R304, R313). -/
theorem step_hostArm {s t : State} (hturn : nextTurn s = .block t) (hphase : t.phase = .hostArm)
    (h : ¬(t.hs.isWait = true ∧ t.fComplete = true)) : step s = .next (hostArm t) := by
  refine step_done hturn ?_
  simp only [fetch, hphase, fetchHost, if_neg h]

/-- A step of `HE_RUN` in a state other than the wait states. -/
theorem step_hostArm_of_state {s t : State} {h : HostState} (hturn : nextTurn s = .block t)
    (hphase : t.phase = .hostArm) (hs : t.hs = h) (hwait : h.isWait = false) :
    step s = .next (hostArm t) :=
  step_hostArm hturn hphase fun hw => absurd ((hs ▸ hw.1).symm.trans hwait) (by decide)

/-! ## The handshake -/

/-- Settles O37: the arms of the handshake. -/
theorem handshakeStatesOfTheHost : Obligations.HandshakeStatesOfTheHost := by
  intro s t hturn hphase
  refine ⟨fun hs => ?_, fun hs => ?_, fun hs hlast => ?_, fun hs hroom => ?_, fun hs hready => ?_,
    fun hs hready hgrace => ?_, fun hs hready hgrace => ?_⟩ <;>
    rw [step_hostArm_of_state hturn hphase hs rfl]
  · have harm : hostArm t = goHost .connected { t with ht0 := t.tick } := by simp only [hostArm, hs]
    rw [harm, goHost_eq]; rfl
  · have harm : hostArm t = sendReset .address t := by simp only [hostArm, hs]
    rw [harm, sendReset, goHost_eq, heSend_eq]; rfl
  · have harm : hostArm t = assignAddress t := by simp only [hostArm, hs]
    rw [harm, assignAddress, if_pos hlast]; rfl
  · have harm : hostArm t = assignAddress t := by simp only [hostArm, hs]
    rw [harm, assignAddress, if_neg (by omega), goHost_eq, heSend_eq]; rfl
  all_goals
    have harm : hostArm t = readyCheck t := by simp only [hostArm, hs]
    rw [harm, readyCheck]
  · rw [if_pos hready, goHost_eq]; rfl
  · rw [if_neg (by rw [hready]; decide), if_pos (by exact hgrace), goHost_eq]; rfl
  · rw [if_neg (by rw [hready]; decide), if_neg (by exact Nat.not_le.mpr hgrace), finishHost_eq hs]; rfl

/-- Settles O38: the arms before and after the handshake. -/
theorem settlingReadyAndErrorStates : Obligations.SettlingReadyAndErrorStates := by
  intro s t hturn hphase
  have hconnected (hs : t.hs = .connected) : hostArm t =
      if t.cfg.tSettle ≤ elapsed t.cfg.tickBits t.ht0 t.tick then goHost .reset1 t else finishHost t := by
    simp only [hostArm, hs]; rfl
  refine ⟨fun hs hsettled => ?_, fun hs hsettled => ?_, fun hs => ?_, fun hs => ?_, fun hs => ?_⟩
  · rw [step_hostArm_of_state hturn hphase hs rfl, hconnected hs, if_pos hsettled, goHost_eq]; rfl
  · rw [step_hostArm_of_state hturn hphase hs rfl, hconnected hs, if_neg (Nat.not_le.mpr hsettled),
      finishHost_eq hs]
    rfl
  · have harm : hostArm t = sendReset .reset2 t := by simp only [hostArm, hs]
    rw [step_hostArm_of_state hturn hphase hs rfl, harm, sendReset, goHost_eq, heSend_eq]; rfl
  · have harm : hostArm t = finishHost t := by simp only [hostArm, hs]
    rw [step_hostArm_of_state hturn hphase hs rfl, harm, finishHost_eq hs]; rfl
  · simp only [List.mem_cons, List.not_mem_nil, or_false] at hs
    have harm : hostArm t = finishHost (heDisconnect t) := by
      rcases hs with hs | hs | hs <;> simp only [hostArm, hs]
    have hwait : t.hs.isWait = false := by rcases hs with hs | hs | hs <;> rw [hs] <;> rfl
    rw [step_hostArm_of_state hturn hphase rfl hwait, harm]; rfl

/-! ## Requests -/

/-- A request of one command is sent and the host waits for its reply (rule R332). -/
theorem query_eq (op : Byte) {h : HostState} (hh : h.isSession = false) (t : State) :
    query op h t = { frameClear t with
      hs := h, ht0 := t.tick, phase := .idle
      trace := t.trace ++ transmitEvents (fcPacket (BitVec.ofNat 8 t.htgt) ⟨[op], by simp⟩) ++
        [.returned (.bool false)] } := by
  rw [← hh]; rfl

/-- Settles O39: the five request states are the same query with another opcode. -/
theorem hostQueriesTheTarget : Obligations.HostQueriesTheTarget := by
  intro s t h w op hturn hphase hrow hs
  simp only [List.mem_cons, Prod.mk.injEq, List.not_mem_nil, or_false] at hrow
  rcases hrow with ⟨rfl, rfl, rfl⟩ | ⟨rfl, rfl, rfl⟩ | ⟨rfl, rfl, rfl⟩ | ⟨rfl, rfl, rfl⟩ | ⟨rfl, rfl, rfl⟩ <;>
    rw [step_hostArm_of_state hturn hphase hs rfl, ← query_eq _ rfl] <;> simp only [hostArm, hs]

/-- A cell of a host array within its four. -/
theorem cell_eq (v : Vector Byte 4) (d : Fin 4) : cell v d.val = v[d] := by
  rw [cell, Vector.getElem?_eq_getElem d.isLt]; rfl

/-- The sync request for one of the first four targets (rule R352). -/
theorem syncRequest_eq {t : State} {d : Fin 4} (h : t.htgt = d.val + 1) :
    syncRequest t = ⟨[0x20, t.hplayers[d], BitVec.ofNat 8 ((t.hbuttons[d].toNat + 7) / 8), 0x21,
      t.hcoinslots[d]], by simp⟩ := by
  have htarget : targetIndex t = d.val := by rw [targetIndex, h]; rfl
  simp only [syncRequest, bytesPerPlayer, htarget, cell_eq]

/-- Settles O40: the sync request is sent to the target. -/
theorem syncRequestNamesTheCachedCounts : Obligations.SyncRequestNamesTheCachedCounts := by
  intro s t d hturn hphase hs htgt
  rw [step_hostArm_of_state hturn hphase hs rfl]
  simp only [hostArm, hs]
  rw [goHost_eq, heSend_eq, syncRequest_eq htgt]
  rfl

/-! ## Waiting -/

/-- The wait states by name (rule R303). -/
theorem isWait_eq_true {h : HostState} :
    h.isWait = true ↔ h ∈ [HostState.addressWait, .waitIoid, .waitCmdrev, .waitJvrev, .waitProtover,
      .waitFeatchk, .waitSync, .waitCoinSync] := by
  cases h <;> decide

/-- The session states by name (rule R303). -/
theorem isSession_eq (h : HostState) :
    h.isSession = decide (h ∈ [HostState.ready, .reqSync, .waitSync, .waitCoinSync]) := by
  cases h <;> decide

/-- In a wait state `HE_RUN` with no reply is the timeout test (rule R313). -/
theorem hostArm_of_wait {t : State} (h : t.hs.isWait = true) : hostArm t = waitOn t := by
  cases hs : t.hs <;> rw [hs] at h <;> first | (cases h; done) | simp only [hostArm, hs]

/-- The wait states that are session states (rule R303). -/
theorem isSession_of_isWait {h : HostState} (hw : h.isWait = true) :
    h.isSession = (decide (h = .waitSync) || decide (h = .waitCoinSync)) := by
  revert hw; cases h <;> decide

/-- Settles O41: the timeout test of `waitOn`. -/
theorem waitStatesTimeOut : Obligations.WaitStatesTimeOut := by
  intro s t hturn hphase hs hcomplete
  have hwait : t.hs.isWait = true := isWait_eq_true.mpr hs
  rw [step_hostArm hturn hphase (by rw [hcomplete]; exact fun h => absurd h.2 (by decide)),
    hostArm_of_wait hwait, ← isSession_of_isWait hwait]
  refine ⟨fun hlate => ?_, fun hearly => ?_⟩
  · rw [waitOn, if_pos (by rw [timedOut, decide_eq_true_eq]; exact hlate)]
    rfl
  · rw [waitOn, if_neg (by rw [timedOut, decide_eq_true_eq]; exact Nat.not_le.mpr hearly)]
    rfl

/-- Settles O49: `HE_SYNC` in `READY` and elsewhere. -/
theorem syncTriggerStartsACycle : Obligations.SyncTriggerStartsACycle := by
  intro s rest hidle hrole hinputs
  have hbegin : step s = .next (finish .unit (heSync { s with inputs := rest })) := by
    rw [step_call hidle hinputs]
    simp only [begin, hrole]
  rw [hbegin]
  refine ⟨fun hready => ?_, fun hready => ?_⟩
  · rw [heSync, if_pos hready, finish, hidle]
  · rw [heSync, if_neg hready, finish, hidle]

end Sys2Proof.Machine
end

section
/-! The Host Engine with a reply: the status byte, the report code, and what each wait state accepts (rules R308,
R312, R313, R327, R336 to R346, R354 to R358). -/

namespace Sys2Proof.Machine

/-! ## A well-formed reply -/

/-- A reply is awaited in a wait state of a host with a verified frame (rules R303, R313). -/
theorem replyAwaited_eq_true {s : State} :
    replyAwaited s = true ↔ s.cfg.role = .host ∧ s.hs.isWait = true ∧ s.fComplete = true := by
  simp only [replyAwaited, Bool.and_eq_true, decide_eq_true_eq, and_assoc]

/-- A reply that is not accepted leaves the host in `INVALID_RESPONSE` with the frame taken (rules R313, R361). -/
theorem invalidReply_eq (s : State) :
    invalidReply s = { frameClear s with
      hs := .invalidResponse, phase := .idle, trace := s.trace ++ [.returned (.bool false)] } := rfl

/-- Settles O42: each status code in host role. -/
theorem hostReadsTheStatusByte : Obligations.HostReadsTheStatusByte := by
  intro s
  refine ⟨?_, fun hawaited => ⟨?_, fun i hi => ?_⟩⟩
  · rw [replyAwaited_eq_true, isWait_eq_true]
  · rw [exec_stOk, execStOk, byRole_of_host hawaited]
  · rw [← invalidReply_eq]
    simp only [List.mem_cons, List.not_mem_nil, or_false] at hi
    rcases hi with rfl | rfl | rfl <;> exact byRole_of_host hawaited

/-- A payload begins with `ST_OK` and `RP_OK` when its first two bytes are these. -/
theorem ok_ok_isPrefix {p : List Byte} :
    [0x01, 0x01] <+: p ↔ 2 ≤ p.length ∧ p.getD 0 0 = 0x01 ∧ p.getD 1 0 = 0x01 := by
  match p with
  | [] => simp
  | [a] => simp
  | a :: b :: rest => simp [eq_comm]

theorem run_one_eq (s : State) : Sys2Proof.core.run 1 s = step s := by
  simp only [Host.Core.run, Sys2Proof.core]
  cases step s <;> rfl

/-- The template of a wait state with a verified frame: an ill-formed reply is rejected, the status byte of any other
is `ST_OK` (rule R312). -/
theorem step_replyStatus {s : State} (hinputs : s.inputs = []) (hphase : s.phase = .hostArm)
    (hawaited : replyAwaited s = true) :
    step s = .next
      (if rxRead s 0 = 0x00 ∧ 2 ≤ (replyPayload s).length ∧ (replyPayload s).getD 0 0 = 0x01 then
        { s with phase := .hostReport } else invalidReply s) := by
  obtain ⟨hrole, hwait, hcomplete⟩ := replyAwaited_eq_true.mp hawaited
  rw [step_of_block (nextTurn_of_inputs_nil hinputs), work_hostArm hphase hrole, if_pos ⟨hwait, hcomplete⟩]
  simp only [replyFramed, Bool.and_eq_true, decide_eq_true_eq, and_assoc]
  rfl

/-- The second byte of a reply is `RP_OK` or the reply is rejected (rule R312). -/
theorem step_replyReport {s : State} (hinputs : s.inputs = []) (hphase : s.phase = .hostReport)
    (hawaited : replyAwaited s = true) :
    ((replyPayload s).getD 1 0 = 0x01 → step s = exec .rpOk s) ∧
    ((replyPayload s).getD 1 0 ≠ 0x01 → step s = .next (invalidReply s)) := by
  have hstep : step s = .next
      (if (replyPayload s).getD 1 0 = 0x01 then takeReply s else invalidReply s) := by
    rw [step_of_block (nextTurn_of_inputs_nil hinputs), work_hostReport hphase hawaited]
    rfl
  refine ⟨fun hok => ?_, fun hbad => ?_⟩
  · rw [hstep, if_pos hok, exec_rpOk, execRpOk, byRole_of_host hawaited]
  · rw [hstep, if_neg hbad]

/-- Settles O43: the status byte and the report code, one step each. -/
theorem rejectedFrameIsAnInvalidResponse : Obligations.RejectedFrameIsAnInvalidResponse := by
  rintro s p rfl hinputs hphase hrole hwait hcomplete
  have hawaited := replyAwaited_eq_true.mpr ⟨hrole, hwait, hcomplete⟩
  have hstatus := step_replyStatus hinputs hphase hawaited
  obtain ⟨hok, hbad⟩ := step_replyReport (s := { s with phase := .hostReport }) hinputs rfl hawaited
  refine ⟨⟨?_, fun k hk => ?_⟩, fun haddress hpayload => ?_, fun hreject => ?_⟩
  · rw [rxSlice, Memory.length_slice]; omega
  · rw [rxSlice, Memory.length_slice] at hk
    rw [List.getD_eq_getElem?_getD, rxSlice, Memory.getElem?_slice, if_pos hk, Nat.add_comm]
    rfl
  · obtain ⟨htwo, hfirst, hsecond⟩ := ok_ok_isPrefix.mp hpayload
    rw [if_pos ⟨haddress, htwo, hfirst⟩] at hstatus
    rw [run_succ hstatus, run_one_eq]
    exact hok hsecond
  · by_cases hframed : rxRead s 0 = 0x00 ∧ 2 ≤ (replyPayload s).length ∧ (replyPayload s).getD 0 0 = 0x01
    · rw [if_pos hframed] at hstatus
      obtain ⟨haddress, htwo, hfirst⟩ := hframed
      refine ⟨2, .inr rfl, ?_⟩
      rw [run_succ hstatus, run_one_eq]
      refine hbad fun hsecond => ?_
      rcases hreject with hother | hpayload
      · exact hother haddress
      · exact hpayload (ok_ok_isPrefix.mpr ⟨htwo, hfirst, hsecond⟩)
    · rw [if_neg hframed] at hstatus
      exact ⟨1, .inl rfl, run_one hstatus⟩

/-! ## What a wait state accepts -/

/-- An accepted reply ends the call in the state its action leaves (rules R308, R313). -/
theorem exec_rpOk_accepted {s u : State} (hawaited : replyAwaited s = true)
    (h : acceptReply (rxSlice s 2 (s.rxw.val - 1)) (frameClear s) = some u) :
    exec .rpOk s = .next { u with
      phase := .idle, trace := u.trace ++ [.returned (.bool u.hs.isSession)] } := by
  have hpayload : acceptReply (replyPayload s) (frameClear s) = some u := h
  rw [exec_rpOk, execRpOk, byRole_of_host hawaited, takeReply, hpayload]
  rfl

/-- A reply that the wait state does not accept is an invalid response (rules R308, R313). -/
theorem exec_rpOk_rejected {s : State} (hawaited : replyAwaited s = true)
    (h : acceptReply (rxSlice s 2 (s.rxw.val - 1)) (frameClear s) = none) :
    exec .rpOk s = .next { frameClear s with
      hs := .invalidResponse, phase := .idle, trace := s.trace ++ [.returned (.bool false)] } := by
  have hpayload : acceptReply (replyPayload s) (frameClear s) = none := h
  rw [exec_rpOk, execRpOk, byRole_of_host hawaited, takeReply, hpayload]
  rfl

/-- Settles O44: the one payload both acknowledgments accept. -/
theorem acknowledgmentsAdvanceTheHost : Obligations.AcknowledgmentsAdvanceTheHost := by
  refine ⟨?_, ?_⟩
  · rintro s p rfl hawaited hs
    refine ⟨fun hp => ?_, fun hp => exec_rpOk_rejected hawaited ?_⟩
    · rw [exec_rpOk_accepted hawaited (by simp only [acceptReply, frameClear_hs, hs]; exact if_pos hp)]
      rfl
    · simp only [acceptReply, frameClear_hs, hs]; exact if_neg hp
  · rintro s p rfl hawaited hs
    have haccept : rxSlice s 2 (s.rxw.val - 1) = [0x01, 0x01] →
        acceptReply (rxSlice s 2 (s.rxw.val - 1)) (frameClear s) = some (advanceTarget (frameClear s)) := by
      intro hp
      simp only [acceptReply, frameClear_hs, hs]; exact if_pos hp
    refine ⟨fun hp hmore hcap => ?_, fun hp hlast => ?_, fun hp => exec_rpOk_rejected hawaited ?_⟩
    · rw [exec_rpOk_accepted hawaited (haccept hp), advanceTarget,
        if_pos (by exact Nat.lt_min.mpr ⟨hmore, hcap⟩)]
      rfl
    · rw [exec_rpOk_accepted hawaited (haccept hp), advanceTarget, if_neg]
      · simp only [emit, emitAll, List.append_assoc]
        rfl
      · show ¬ s.htgt < min s.hdev 4
        omega
    · simp only [acceptReply, frameClear_hs, hs]; exact if_neg hp

/-- The data of a revision reply is its one byte behind the two codes (rules R338 to R340). -/
theorem drop_two_of_length_three {p : List Byte} (h : p.length = 3) : p.drop 2 = [payAt p 2] := by
  obtain ⟨a, b, c, rfl⟩ := List.length_eq_three.mp h
  rfl

/-- Settles O45: the identification takes any payload, a revision exactly three bytes. -/
theorem capabilityRepliesAreReported : Obligations.CapabilityRepliesAreReported := by
  rintro s p h n k rfl hawaited hs hrow
  have hrevision {p : List Byte} (hp : p.length = 3) (kind : CapKind) (next : HostState) :
      takeRevision p kind next (frameClear s) =
        some { frameClear s with hs := next, trace := s.trace ++ [.evCapability s.htgt kind (p.drop 2)] } := by
    rw [takeRevision, if_pos hp, drop_two_of_length_three hp]; rfl
  simp only [List.mem_cons, Prod.mk.injEq, List.not_mem_nil, or_false] at hrow
  rcases hrow with ⟨rfl, rfl, rfl⟩ | ⟨rfl, rfl, rfl⟩ | ⟨rfl, rfl, rfl⟩ | ⟨rfl, rfl, rfl⟩
  · refine ⟨fun _ => ?_, fun hne => absurd rfl hne⟩
    rw [exec_rpOk_accepted hawaited (by simp only [acceptReply, frameClear_hs, hs]; rfl)]
    simp only [emit, emitAll, List.append_assoc]
    rfl
  all_goals
    refine ⟨fun hp => ?_, fun _ hp => exec_rpOk_rejected hawaited ?_⟩
    · rw [exec_rpOk_accepted hawaited (by
        simp only [acceptReply, frameClear_hs, hs]
        exact hrevision (hp.resolve_left (by decide)) _ _)]
      simp only [List.append_assoc]
      rfl
    · simp only [acceptReply, frameClear_hs, hs]
      exact if_neg hp

end Sys2Proof.Machine
end

section
/-! The function check: which records parse, and what is cached of them (rules R344 to R346). -/

namespace Sys2Proof.Machine

/-! ## Records -/

/-- A function-check record: its function code and three parameter bytes. -/
abbrev FeatureRecord := Byte × Byte × Byte × Byte

/-- The bytes of the records, one behind the other. -/
def recordBytes (records : List FeatureRecord) : List Byte :=
  records.flatMap fun r => [r.1, r.2.1, r.2.2.1, r.2.2.2]

/-- What one record says of players, buttons and coin slots (rule R345). -/
def applyRecord (acc : Byte × Byte × Byte) (r : FeatureRecord) : Byte × Byte × Byte :=
  if r.1 = 0x01 then (r.2.1, r.2.2.1, acc.2.2)
  else if r.1 = 0x02 then (acc.1, acc.2.1, r.2.1) else acc

/-- The end mark is the last byte: it ends the records with what they have said (rule R345). -/
theorem parseRecords_end (acc : Byte × Byte × Byte) : parseRecords [0x00] acc = some acc := by
  simp [parseRecords]

/-- A record whose function code is not zero is applied, and the rest parsed (rule R345). -/
theorem parseRecords_record {r : FeatureRecord} (hr : r.1 ≠ 0x00) (rest : List Byte)
    (acc : Byte × Byte × Byte) :
    parseRecords (r.1 :: r.2.1 :: r.2.2.1 :: r.2.2.2 :: rest) acc = parseRecords rest (applyRecord acc r) := by
  rw [parseRecords, if_neg hr, applyRecord]
  split_ifs <;> rfl

/-- Records ended by one zero byte parse to what they say, the last of a kind winning (rule R345). -/
theorem parseRecords_recordBytes {records : List FeatureRecord} (h : ∀ r ∈ records, r.1 ≠ 0x00)
    (acc : Byte × Byte × Byte) :
    parseRecords (recordBytes records ++ [0x00]) acc = some (records.foldl applyRecord acc) := by
  induction records generalizing acc with
  | nil => exact parseRecords_end acc
  | cons r records ih =>
    calc parseRecords (recordBytes (r :: records) ++ [0x00]) acc
        = parseRecords (r.1 :: r.2.1 :: r.2.2.1 :: r.2.2.2 :: (recordBytes records ++ [0x00])) acc := rfl
      _ = parseRecords (recordBytes records ++ [0x00]) (applyRecord acc r) :=
        parseRecords_record (h r List.mem_cons_self) _ _
      _ = some ((r :: records).foldl applyRecord acc) := ih (fun q hq => h q (List.mem_cons_of_mem r hq)) _

/-- Whatever parses is records ended by one zero byte (rule R345). -/
theorem records_of_parseRecords {l : List Byte} {acc res : Byte × Byte × Byte}
    (h : parseRecords l acc = some res) :
    ∃ records, l = recordBytes records ++ [0x00] ∧ ∀ r ∈ records, r.1 ≠ 0x00 := by
  match l with
  | [] => cases h
  | [f] =>
    rw [parseRecords, Option.ite_none_right_eq_some] at h
    exact ⟨[], by rw [h.1]; rfl, by simp⟩
  | [_, _] => cases h
  | [_, _, _] => cases h
  | f :: p1 :: p2 :: p3 :: rest =>
    by_cases hf : f = 0x00
    · rw [hf, parseRecords, if_pos rfl] at h; cases h
    · rw [parseRecords_record (r := (f, p1, p2, p3)) hf] at h
      obtain ⟨records, rfl, hrecords⟩ := records_of_parseRecords h
      exact ⟨(f, p1, p2, p3) :: records, rfl, List.forall_mem_cons.mpr ⟨hf, hrecords⟩⟩
termination_by l.length

/-- Settles O46: the records of a payload that parses, and their fold. -/
theorem featureRecordsParse : Obligations.FeatureRecordsParse := by
  intro p players buttons coins
  constructor
  · intro h
    obtain ⟨records, hl, hrecords⟩ := records_of_parseRecords h
    rw [parseFeatures, hl, parseRecords_recordBytes hrecords] at h
    exact ⟨records, hl, hrecords, (Option.some.inj h).symm⟩
  · rintro ⟨records, hl, hrecords, hfold⟩
    have hparse := parseRecords_recordBytes hrecords (0, 0, 0)
    rw [parseFeatures, hl, hfold]
    exact hparse

/-! ## What is cached -/

/-- The counts of the first four devices are cached, and only these (rule R344). -/
theorem cacheFeatures_eq (players buttons coins : Byte) (s : State) :
    cacheFeatures players buttons coins s = { s with
      hplayers := if s.htgt ≤ 4 then s.hplayers.setIfInBounds (s.htgt - 1) players else s.hplayers
      hbuttons := if s.htgt ≤ 4 then s.hbuttons.setIfInBounds (s.htgt - 1) buttons else s.hbuttons
      hcoinslots := if s.htgt ≤ 4 then s.hcoinslots.setIfInBounds (s.htgt - 1) coins else s.hcoinslots
      htotal := if s.htgt ≤ 4 then min 4 (s.htotal + players.toNat) else s.htotal } := by
  have hcap : targetIndex s < hostDevCap ↔ s.htgt ≤ 4 := by
    show s.htgt - 1 < 4 ↔ s.htgt ≤ 4
    omega
  simp only [cacheFeatures, hcap]
  split_ifs <;> rfl

/-- After the function check the next device is asked, or the handshake is over (rule R346). -/
theorem afterFeatures_eq (s : State) :
    afterFeatures s = { s with
      htgt := if s.htgt < s.hdev then s.htgt + 1 else s.htgt
      hs := if s.htgt < s.hdev then .reqIoid else .ready } := by
  unfold afterFeatures
  split_ifs <;> rfl

/-- Settles O47: what is cached, what is reported, and the next state. -/
theorem functionCheckIsCached : Obligations.FunctionCheckIsCached := by
  rintro s p rfl hawaited hs
  refine ⟨fun hp => exec_rpOk_rejected hawaited ?_, fun players buttons coins hp => ?_⟩
  · simp only [acceptReply, frameClear_hs, hs, hp]
  · have hsession : (if s.htgt < s.hdev then HostState.reqIoid else HostState.ready).isSession =
        decide (s.hdev ≤ s.htgt) := by
      split_ifs with hmore
      · exact (decide_eq_false (Nat.not_le.mpr hmore)).symm
      · exact (decide_eq_true (Nat.not_lt.mp hmore)).symm
    rw [exec_rpOk_accepted hawaited (by simp only [acceptReply, frameClear_hs, hs, hp]; rfl),
      afterFeatures_eq, cacheFeatures_eq, ← hsession]
    simp only [emit, emitAll, List.append_assoc]
    rfl

end Sys2Proof.Machine
end

section
/-! The sync reply: the two switch maps, the coins, and what the host does next (rules R354 to R358). -/

namespace Sys2Proof.Machine

/-- A switch map takes the bytes of the players it covers and keeps the other slots (rule R354). -/
theorem getElem_switchMap (p : List Byte) (bpp np base j : Nat) (old : Vector Byte 4) {g : Nat} (hg : g < 4) :
    (switchMap p bpp np base j old)[g] =
      if base ≤ g ∧ g < base + np then switchByte p bpp (g - base) j else old[g] := by
  induction np with
  | zero => rw [if_neg (by omega)]; rfl
  | succ n ih =>
    have hsucc : switchMap p bpp (n + 1) base j old =
        (switchMap p bpp n base j old).setIfInBounds (base + n) (switchByte p bpp n j) := by
      simp only [switchMap, List.range_succ, List.foldl_append, List.foldl_cons, List.foldl_nil]
    simp only [hsucc, Vector.getElem_setIfInBounds, ih]
    by_cases hn : base + n = g
    · subst hn
      rw [if_pos rfl, if_pos (by omega), Nat.add_sub_cancel_left]
    · rw [if_neg hn]
      exact ite_congr (propext (by omega)) (fun _ => rfl) fun _ => rfl

/-- The players before the target are those of the first cells of the array (rule R354). -/
theorem playersBefore_eq {s : State} {d : Fin 4} (h : s.htgt = d.val + 1) :
    playersBefore s = ((s.hplayers.toList.take d.val).map BitVec.toNat).sum := by
  have htarget : targetIndex s = d.val := by rw [targetIndex, h]; rfl
  have hcells : (List.range d.val).map (cell s.hplayers) = s.hplayers.toList.take d.val := by
    refine List.ext_getElem? fun i => ?_
    rw [List.getElem?_map, List.getElem?_take]
    by_cases hi : i < d.val
    · have hlt : i < 4 := by omega
      rw [if_pos hi, List.getElem?_range hi, Option.map_some, cell_eq s.hplayers ⟨i, hlt⟩]
      simp [hlt]
    · simp [hi]
  rw [playersBefore, htarget, ← hcells, List.map_map]
  rfl

/-- The slot whose coin is subtracted is the first with coins among those with a place of their own (rule R355). -/
theorem coinSlot_eq_some {p : List Byte} {q nc base slot : Nat} (hslot : slot < nc) (hbase : base + slot < 4)
    (hcoins : 0 < coinCounter p q slot) (hfirst : ∀ j, j < slot → coinCounter p q j = 0) :
    coinSlot p q nc base = some slot := by
  rw [coinSlot, List.find?_range_eq_some]
  refine ⟨?_, List.mem_range.mpr hslot, fun j hj => ?_⟩
  · rw [Bool.and_eq_true, decide_eq_true_eq, decide_eq_true_eq]
    exact ⟨hcoins, hbase⟩
  · rw [hfirst j hj]; rfl

theorem coinSlot_eq_none {p : List Byte} {q nc base : Nat}
    (hnone : ∀ slot, slot < nc → base + slot < 4 → coinCounter p q slot = 0) :
    coinSlot p q nc base = none := by
  rw [coinSlot, List.find?_eq_none]
  intro slot hslot hcoins
  rw [Bool.and_eq_true, decide_eq_true_eq, decide_eq_true_eq] at hcoins
  have := hnone slot (List.mem_range.mp hslot) hcoins.2
  omega

/-- The flag of a coin slot (rule R356). -/
theorem coinFlag_eq {n : Nat} (h : n < 4) : 1#8 <<< n = BitVec.ofNat 8 (2 ^ n) := by
  interval_cases n <;> rfl

/-- `Advance()` while there are more targets (rule R358). -/
theorem advanceTarget_more {s : State} (hmore : s.htgt < s.hdev) (hcap : s.htgt < 4) :
    advanceTarget s = { s with htgt := s.htgt + 1, hs := .reqSync } :=
  if_pos (Nat.lt_min.mpr ⟨hmore, hcap⟩)

/-- `Advance()` after the last target (rule R358). -/
theorem advanceTarget_last {s : State} (hlast : s.hdev ≤ s.htgt ∨ 4 ≤ s.htgt) :
    advanceTarget s = { s with
      hs := .ready, trace := s.trace ++ [.evSynced s.htotal s.hcoin s.hsw0 s.hsw1] } := by
  refine if_neg ?_
  show ¬ s.htgt < min s.hdev 4
  omega

/-- The state a sync reply is looked at in: the switch maps are filled and the coins come next (rule R354). -/
def withSwitches (p : List Byte) (s : State) : State :=
  { s with
    hsw0 := switchMap p (bytesPerPlayer s) (targetPlayers s) (playersBefore s) 0 s.hsw0
    hsw1 := switchMap p (bytesPerPlayer s) (targetPlayers s) (playersBefore s) 1 s.hsw1 }

theorem takeSyncReply_eq (p : List Byte) (s : State) :
    takeSyncReply p s =
      coinStep p (secondReportIndex s) (targetCoinSlots s) (playersBefore s) (withSwitches p s) := rfl

/-- A slot with coins is flagged, and one coin is subtracted (rules R355, R356). -/
theorem coinStep_some {p : List Byte} {q nc base slot : Nat} {s : State} (hbase : base + slot < 4)
    (h : coinSlot p q nc base = some slot) :
    coinStep p q nc base s = { frameClear s with
      hcoin := s.hcoin ||| BitVec.ofNat 8 (2 ^ (base + slot))
      hs := .waitCoinSync, ht0 := s.tick
      trace := s.trace ++ transmitEvents (fcPacket (BitVec.ofNat 8 s.htgt)
        ⟨[0x30, BitVec.ofNat 8 (slot + 1), 0x00, 0x01], by simp⟩) } := by
  simp only [coinStep, h, ← coinFlag_eq hbase]
  rfl

theorem coinStep_none {p : List Byte} {q nc base : Nat} {s : State} (h : coinSlot p q nc base = none) :
    coinStep p q nc base s = advanceTarget s := by
  simp only [coinStep, h]

/-- Neither the coins nor the next target touch the switch maps (rules R355, R358). -/
theorem coinStep_switches (p : List Byte) (q nc base : Nat) (s : State) :
    (coinStep p q nc base s).hsw0 = s.hsw0 ∧ (coinStep p q nc base s).hsw1 = s.hsw1 := by
  unfold coinStep
  split
  · exact ⟨rfl, rfl⟩
  · unfold advanceTarget
    split <;> exact ⟨rfl, rfl⟩

/-- The test of a sync reply (rule R354). -/
theorem syncReplyOk_eq_true {p : List Byte} {s : State} :
    syncReplyOk p s = true ↔
      p.length = 4 + targetPlayers s * bytesPerPlayer s + 2 * targetCoinSlots s ∧
        p.getD (3 + targetPlayers s * bytesPerPlayer s) 0 = 0x01 := by
  rw [syncReplyOk, Bool.and_eq_true, decide_eq_true_eq, decide_eq_true_eq]
  rfl

/-- What `WAIT_SYNC` accepts (rule R354). -/
theorem acceptReply_waitSync {s : State} (hs : s.hs = .waitSync) (p : List Byte) :
    acceptReply p (frameClear s) =
      if syncReplyOk p s then some (takeSyncReply p (frameClear s)) else none := by
  simp only [acceptReply, frameClear_hs, hs]
  rfl

/-- A switch map after a sync reply, slot by slot (rule R354). -/
theorem withSwitches_slots (p : List Byte) (s : State) {g : Nat} (hg : g < 4) :
    (playersBefore s ≤ g ∧ g < playersBefore s + targetPlayers s →
      (withSwitches p s).hsw0[g] = (if 1 ≤ bytesPerPlayer s then
        p.getD (3 + (g - playersBefore s) * bytesPerPlayer s) 0 else 0) ∧
      (withSwitches p s).hsw1[g] = (if 2 ≤ bytesPerPlayer s then
        p.getD (3 + (g - playersBefore s) * bytesPerPlayer s + 1) 0 else 0)) ∧
    (¬(playersBefore s ≤ g ∧ g < playersBefore s + targetPlayers s) →
      (withSwitches p s).hsw0[g] = s.hsw0[g] ∧ (withSwitches p s).hsw1[g] = s.hsw1[g]) := by
  refine ⟨fun hin => ⟨?_, ?_⟩, fun hout => ⟨?_, ?_⟩⟩
  · exact (getElem_switchMap _ _ _ _ _ _ hg).trans (if_pos hin)
  · exact (getElem_switchMap _ _ _ _ _ _ hg).trans (if_pos hin)
  · exact (getElem_switchMap _ _ _ _ _ _ hg).trans (if_neg hout)
  · exact (getElem_switchMap _ _ _ _ _ _ hg).trans (if_neg hout)

/-- Settles O48: the reply's length and second report code, the two switch maps, and the three ways the coins go. -/
theorem syncReplyIsTaken : Obligations.SyncReplyIsTaken := by
  rintro s d p cnt np bpp nc q base hp hawaited hs htgt rfl rfl rfl rfl hcnt rfl
  have htarget : targetIndex s = d.val := by rw [targetIndex, htgt]; rfl
  have hplayers : targetPlayers s = s.hplayers[d].toNat := by rw [targetPlayers, htarget, cell_eq]
  have hbytes : bytesPerPlayer s = (s.hbuttons[d].toNat + 7) / 8 := by
    rw [bytesPerPlayer, htarget, cell_eq]
  have hslots : targetCoinSlots s = s.hcoinslots[d].toNat := by rw [targetCoinSlots, htarget, cell_eq]
  rw [← hplayers, ← hbytes] at hcnt
  rw [← hplayers, ← hbytes, ← hslots, ← playersBefore_eq htgt]
  have hcounter (slot : Nat) : coinCounter p (secondReportIndex s) slot = cnt slot := (hcnt slot).symm
  have haccept := acceptReply_waitSync hs p
  refine ⟨fun hbad => exec_rpOk_rejected hawaited ?_, fun hlength hcode => ?_⟩
  · rw [← hp, haccept, if_neg]
    rw [syncReplyOk_eq_true]
    rintro ⟨hlength, hcode⟩
    exact hbad.elim (fun h => h hlength) fun h => h hcode
  rw [if_pos (syncReplyOk_eq_true.mpr ⟨hlength, hcode⟩), hp] at haccept
  rw [exec_rpOk_accepted hawaited haccept, ← hp, takeSyncReply_eq]
  obtain ⟨hsw0, hsw1⟩ := coinStep_switches p (secondReportIndex (frameClear s))
    (targetCoinSlots (frameClear s)) (playersBefore (frameClear s)) (withSwitches p (frameClear s))
  have hclear : frameClear (withSwitches p (frameClear s)) = withSwitches p (frameClear s) := by
    have hrole := (replyAwaited_eq_true.mp hawaited).1
    rw [frameClear_of_host (s := withSwitches p (frameClear s)) hrole]
    rfl
  refine ⟨_, rfl, fun g hg => ?_, fun slot hslot hbase hcoins hfirst => ?_, fun hnone => ⟨?_, ?_⟩⟩
  · simp only [hsw0, hsw1]
    exact withSwitches_slots p (frameClear s) hg
  · have hcoin : coinSlot p (secondReportIndex (frameClear s)) (targetCoinSlots (frameClear s))
        (playersBefore (frameClear s)) = some slot :=
      coinSlot_eq_some hslot hbase (by rw [← hcounter] at hcoins; exact hcoins)
        fun j hj => (hcounter j).trans (hfirst j hj)
    have hbase' : playersBefore (frameClear s) + slot < 4 := hbase
    rw [coinStep_some hbase' hcoin, hclear]
    rfl
  all_goals
    have hcoin : coinSlot p (secondReportIndex (frameClear s)) (targetCoinSlots (frameClear s))
        (playersBefore (frameClear s)) = none :=
      coinSlot_eq_none fun slot hslot hbase => (hcounter slot).trans (hnone slot hslot hbase)
    rw [coinStep_none hcoin]
  · intro hmore hcap
    rw [advanceTarget_more (by exact hmore) (by exact hcap)]
    rfl
  · intro hlast
    rw [advanceTarget_last (by exact hlast)]
    simp only [List.append_assoc]
    rfl

end Sys2Proof.Machine
end

section
/-! What happens outside the block, and `INIT` (rules R49, R74, R306, R401 to R403, R420 to R422, R437). -/

namespace Sys2Proof.Machine

/-- An event of the environment acts at once (rule R8). -/
theorem step_env {s : State} {e : EnvEvent} {rest : List Input} (hinputs : s.inputs = .env e :: rest) :
    step s = .next (applyEnv e { s with inputs := rest }) := by
  simp only [step, nextTurn, hinputs]

/-- The ticks since `t0`, fewer than a wrap, are those that have passed (rules R306, R437). -/
theorem elapsed_add {bits t0 n : Nat} (ht0 : t0 < 2 ^ bits) (hn : n < 2 ^ bits) :
    elapsed bits t0 ((t0 + n) % 2 ^ bits) = n := by
  rw [elapsed, Nat.mod_eq_of_lt ht0, Nat.mod_add_mod,
    show t0 + n + (2 ^ bits - t0) = n + 2 ^ bits by omega, Nat.add_mod_right, Nat.mod_eq_of_lt hn]

/-- Settles O59: each event by `step_env`, and the wrap by `elapsed_add`. -/
theorem environmentActsAlone : Obligations.EnvironmentActsAlone := by
  refine ⟨fun s rest => ⟨fun b h => step_env h, fun v h => step_env h, fun v h => step_env h,
    fun yes h => step_env h, fun n h => step_env h⟩, fun s n rest h hnoted ht0 hn => ⟨_, step_env h, ?_⟩⟩
  show elapsed s.cfg.tickBits s.ht0 ((s.tick + n) % 2 ^ s.cfg.tickBits) = n
  rw [hnoted]
  exact elapsed_add ht0 hn

/-- The table after `INIT` has one unassigned slot for each device (rules R34, R49). -/
theorem initTable_of_node {c : Config} (h : c.role = .node) : initTable c = List.replicate c.ndev 0xFF := by
  simp only [initTable, h]
  rfl

/-- Settles O52: the fields of `State.init`, and `INIT` as a call by `reinit`. -/
theorem initLoadsTheResetValues : Obligations.InitLoadsTheResetValues := by
  refine ⟨fun c => ⟨rfl, rfl, rfl, rfl, rfl, rfl, rfl, rfl, rfl, rfl, rfl, rfl, rfl, rfl, rfl, rfl, rfl, rfl,
    rfl, fun d => ?_, fun hrole => ⟨?_, fun a ha => ?_, ?_⟩, fun hrole => ⟨?_, ?_⟩⟩,
    fun s rest hidle hinputs => ?_⟩
  · have hzero : (Vector.replicate 4 (0 : Byte))[d] = 0 := Vector.getElem_replicate d.isLt
    exact ⟨hzero, hzero, hzero, hzero, hzero⟩
  · show (initTable c).length = c.ndev
    rw [initTable_of_node hrole, List.length_replicate]
  · have ha' : a ∈ initTable c := ha
    rw [initTable_of_node hrole] at ha'
    exact List.eq_of_mem_replicate ha'
  · show initOutputs c.role = _
    rw [hrole]; rfl
  · show initTable c = _
    simp only [initTable, hrole]; rfl
  · show initOutputs c.role = _
    rw [hrole]; rfl
  · rw [step_call hidle hinputs]
    cases hrole : s.cfg.role <;> simp only [begin, hrole] <;> rfl

end Sys2Proof.Machine
end

section
/-! Everything a step of the running call can do, said once, with the events it appends to the trace: `Work s es u`
(rules R210 to R358). The statements about every step follow from it case by case. -/

namespace Sys2Proof.Machine

/-! ## The cases -/

/-- A node's loop stands at a command: the one its bytes decode to (rules R252, R256). -/
structure AtCommand (s : State) (i : Instr) : Prop where
  looping : ∃ spec, s.phase = .nodeLoop spec
  node : s.cfg.role = .node
  noSumerr : s.fSumerr = false
  inside : s.rxr < fetchLimit s
  decoded : ∃ rest, decodeCommand s.cfg (fetchBytes s) = .ok (i, rest)

/-- A staged address and the first free slot, which takes it; the signals asserted when that slot is the last (rule
R277). -/
def Commits (s : State) (table : List Byte) (signals : List PortEvent) : Prop :=
  (table = s.atab ∧ signals = []) ∨
  ∃ i, s.newaddr ≠ addrBcast ∧ firstFree s.atab = some i ∧ table = s.atab.set i s.newaddr ∧
    signals = if i + 1 = s.cfg.ndev then [.readyOut true, .ledOut true] else []

/-- The event of an unknown opcode, where there is one (rule R260). -/
def Notes (events : List PortEvent) : Prop := events = [] ∨ ∃ op, events = [.evUnknownOpcode op]

/-- An engine looks at a frame in the loop of `NE_NEXT` or at `case HS of`. -/
def AtFrame (s : State) : Prop := (∃ spec, s.phase = .nodeLoop spec) ∨ s.phase = .hostArm

/-- A wait state of the host takes a reply, whose report code is `RP_OK`. -/
structure TakesReply (s : State) : Prop where
  awaited : replyAwaited s = true
  phase : s.phase = .hostReport ∨ ∃ b, s.phase = .push b

/-- The packet of an error status (rule R277). -/
def errorPacket (st : Byte) : List Byte := fcPacket addrHost ⟨[st], by simp⟩

/-- `Work s es u`: a step of the call running in `s` can end in `u`, appending the events `es`. -/
inductive Work (s : State) : List PortEvent → State → Prop
  | idle (hphase : s.phase = .idle) : Work s [] s
  -- `FC_RECEIVE`
  | received {r : Receiver} (hphase : s.phase = .receive r)
      (hend : framePending s = true ∨ (frameEndDue s = false ∧ s.chanRx = [])) :
      Work s [] { s with phase := r.after }
  | frameEnded {r : Receiver} (hphase : s.phase = .receive r) (hpending : framePending s = false)
      (hdue : frameEndDue s = true) : Work s [] (frameEnd (rxRead s 0) s)
  | byteTaken {r : Receiver} {b : Byte} {rest : List Byte} (hphase : s.phase = .receive r)
      (hpending : framePending s = false) (hdue : frameEndDue s = false) (hchan : s.chanRx = b :: rest) :
      Work s [] (takeByte b { s with chanRx := rest })
  -- `NE_NEXT`
  | waited (r : Result) (hphase : ∃ spec, s.phase = .nodeLoop spec) :
      Work s [.returned r] { s with phase := .idle, trace := s.trace ++ [.returned r] }
  | surfaced {i : Instr} (r : Result) (hcommand : AtCommand s i) :
      Work s [.returned r]
        { s with rxr := s.rxr + (encode i).length, phase := .idle, trace := s.trace ++ [.returned r] }
  | answeredOk {i : Instr} (hcommand : AtCommand s i) :
      Work s [] { nePush reportOk s with rxr := s.rxr + (encode i).length }
  | answeredByte {i : Instr} (b : Byte) (hcommand : AtCommand s i) :
      Work s [] { nePush b (nePush reportOk s) with rxr := s.rxr + (encode i).length }
  | staged {i : Instr} (addr : Byte) (hcommand : AtCommand s i) (hfree : hasFreeSlot s = true) :
      Work s [] { nePush reportOk { s with newaddr := addr } with rxr := s.rxr + (encode i).length }
  | reset {i : Instr} (r : Result) (hcommand : AtCommand s i) :
      Work s [.readyOut false, .ledOut false, .returned r]
        { frameClear s with
          atab := List.replicate s.atab.length addrBcast, phase := .idle
          trace := s.trace ++ [.readyOut false, .ledOut false, .returned r] }
  | abandoned {i : Instr} (hcommand : AtCommand s i) :
      Work s [.returned .none]
        { frameClear s with phase := .idle, trace := s.trace ++ [.returned .none] }
  | switched {i : Instr} (m : CommMode) (hcommand : AtCommand s i) (hcomplete : s.fComplete = true)
      (hyes : (m, true) ∈ s.speedYes) :
      Work s [.speedCommit m true, .returned .none]
        { frameClear s with
          commMode := m, phase := .idle, trace := s.trace ++ [.speedCommit m true, .returned .none] }
  | speedRefused {i : Instr} (m : CommMode) (hcommand : AtCommand s i) :
      Work s [.speedCommit m false, .returned .none]
        { frameClear s with phase := .idle, trace := s.trace ++ [.speedCommit m false, .returned .none] }
  | resent {i : Instr} (p : List Byte) (hcommand : AtCommand s i) (hcomplete : s.fComplete = true) :
      Work s (nodeTransmitEvents s p ++ [.returned .none])
        { frameClear s with
          phase := .idle, trace := s.trace ++ (nodeTransmitEvents s p ++ [.returned .none]) }
  -- the status packets of a node
  | sent (table : List Byte) (signals : List PortEvent) (hrole : s.cfg.role = .node) (hat : AtFrame s)
      (hcomplete : s.fComplete = true) (hcommits : Commits s table signals) :
      Work s (signals ++ (nodeTransmitEvents s (statusPacket s) ++ [.returned .none]))
        { frameClear s with
          atab := table, txlast := some (statusPacket s), phase := .idle
          trace := s.trace ++ (signals ++ (nodeTransmitEvents s (statusPacket s) ++ [.returned .none])) }
  | errorSent (st : Byte) (events : List PortEvent) (hrole : s.cfg.role = .node) (hat : AtFrame s)
      (hpending : framePending s = true) (hevents : Notes events) :
      Work s (events ++ (nodeTransmitEvents s (errorPacket st) ++ [.returned .none]))
        { frameClear s with
          txlast := some (errorPacket st), phase := .idle
          trace := s.trace ++ (events ++ (nodeTransmitEvents s (errorPacket st) ++ [.returned .none])) }
  -- `NE_PUSH`
  | pushed (b : Byte) (hphase : (∃ c, s.phase = .push c) ∨ (s.phase = .hostReport ∧ s.cfg.role = .node)) :
      Work s [.returned .unit]
        { nePush b s with phase := .idle, trace := s.trace ++ [.returned .unit] }
  -- `HE_RUN` without a reply to look at
  | hostStayed (hphase : s.phase = .hostArm) :
      Work s [.returned (.bool s.hs.isSession)]
        { s with phase := .idle, trace := s.trace ++ [.returned (.bool s.hs.isSession)] }
  | hostMoved (h : HostState) (t0 target : Nat) (hphase : s.phase = .hostArm) (hh : h ≠ .addressWait)
      (hcycle : h.inCycle = false) (ht0 : t0 = s.ht0 ∨ t0 = s.tick)
      (htarget : target = s.htgt ∨ target = 1) :
      Work s [.returned (.bool h.isSession)]
        { s with
          hs := h, ht0 := t0, htgt := target, phase := .idle
          trace := s.trace ++ [.returned (.bool h.isSession)] }
  | hostSent (h : HostState) (addr : Byte) (p : Payload) (hphase : s.phase = .hostArm)
      (hsends : s.hs ∈ sendingStates) (hnotSync : s.hs ≠ .waitSync)
      (haddress : h = .addressWait → s.hdev ≠ 254) (hcycle : h.inCycle = true → s.hs.inCycle = true) :
      Work s (transmitEvents (fcPacket addr p) ++ [.returned (.bool h.isSession)])
        { frameClear s with
          hs := h, ht0 := s.tick, phase := .idle
          trace := s.trace ++ (transmitEvents (fcPacket addr p) ++ [.returned (.bool h.isSession)]) }
  | disconnected (hphase : s.phase = .hostArm) :
      Work s [.returned (.bool false)]
        { heDisconnect s with phase := .idle, trace := s.trace ++ [.returned (.bool false)] }
  -- `HE_RUN` with a reply
  | replyOk (hawaited : replyAwaited s = true) (hat : AtFrame s) : Work s [] { s with phase := .hostReport }
  | replyInvalid (events : List PortEvent) (hevents : Notes events) :
      Work s (events ++ [.returned (.bool false)])
        { frameClear s with
          hs := .invalidResponse, phase := .idle
          trace := s.trace ++ (events ++ [.returned (.bool false)]) }
  | addressed (hreply : TakesReply s) (hs : s.hs = .addressWait) :
      Work s [.returned (.bool false)]
        { frameClear s with
          hdev := s.hdev + 1, ht0 := s.tick, hs := .readyCheck, phase := .idle
          trace := s.trace ++ [.returned (.bool false)] }
  | reported (h : HostState) (kind : CapKind) (data : List Byte) (hreply : TakesReply s)
      (hh : h ≠ .addressWait) (hcycle : h.inCycle = false) :
      Work s [.evCapability s.htgt kind data, .returned (.bool h.isSession)]
        { frameClear s with
          hs := h, phase := .idle
          trace := s.trace ++ [.evCapability s.htgt kind data, .returned (.bool h.isSession)] }
  | featuresTaken (h : HostState) (players buttons coins : Vector Byte 4) (total target : Nat)
      (data : List Byte) (hreply : TakesReply s) (hh : h ≠ .addressWait) (hcycle : h.inCycle = false)
      (htotal : total = s.htotal ∨ total ≤ 4)
      (htarget : target = s.htgt ∨ (target = s.htgt + 1 ∧ s.htgt < s.hdev)) :
      Work s [.evCapability s.htgt .featchk data, .returned (.bool h.isSession)]
        { frameClear s with
          hplayers := players, hbuttons := buttons, hcoinslots := coins, htotal := total, htgt := target
          hs := h, phase := .idle
          trace := s.trace ++ [.evCapability s.htgt .featchk data, .returned (.bool h.isSession)] }
  | coinTaken (sw0 sw1 : Vector Byte 4) (n : Nat) (addr : Byte) (p : Payload) (hreply : TakesReply s)
      (hs : s.hs = .waitSync) (hn : n < 4) :
      Work s (transmitEvents (fcPacket addr p) ++ [.returned (.bool true)])
        { frameClear s with
          hsw0 := sw0, hsw1 := sw1, hcoin := s.hcoin ||| BitVec.ofNat 8 (2 ^ n), hs := .waitCoinSync
          ht0 := s.tick, phase := .idle
          trace := s.trace ++ (transmitEvents (fcPacket addr p) ++ [.returned (.bool true)]) }
  | cycleContinued (sw0 sw1 : Vector Byte 4) (hreply : TakesReply s) (hmore : s.htgt < s.hdev)
      (hcap : s.htgt < 4) :
      Work s [.returned (.bool true)]
        { frameClear s with
          hsw0 := sw0, hsw1 := sw1, htgt := s.htgt + 1, hs := .reqSync, phase := .idle
          trace := s.trace ++ [.returned (.bool true)] }
  | cycleEnded (sw0 sw1 : Vector Byte 4) (hreply : TakesReply s) :
      Work s [.evSynced s.htotal s.hcoin sw0 sw1, .returned (.bool true)]
        { frameClear s with
          hsw0 := sw0, hsw1 := sw1, hs := .ready, phase := .idle
          trace := s.trace ++ [.evSynced s.htotal s.hcoin sw0 sw1, .returned (.bool true)] }

/-- A step is one of the cases, in whatever form its state is written. -/
theorem Work.of_eq {s u v : State} {es : List PortEvent} (h : Work s es u) (huv : v = u) : ∃ es, Work s es v :=
  ⟨es, huv ▸ h⟩

/-! ## The codes of a status packet -/

/-- What a status that answers an error does in either role (rules R254, R258, R276, R312). -/
theorem work_errorStatus {s u : State} {st : Byte} {events : List PortEvent} (hat : AtFrame s)
    (hpending : framePending s = true) (hevents : Notes events)
    (h : byRole (replyAndReturn st) invalidReply { s with trace := s.trace ++ events } = .next u) :
    ∃ es, Work s es u := by
  rcases byRole_next.mp h with ⟨hrole, rfl⟩ | ⟨_, _, rfl⟩
  · refine (Work.errorSent (s := s) st events hrole hat hpending hevents).of_eq ?_
    rw [replyAndReturn_eq]
    simp only [List.append_assoc]
    rfl
  · refine (Work.replyInvalid (s := s) events hevents).of_eq ?_
    rw [invalidReply_eq]
    simp only [List.append_assoc]
    rfl

/-- An error status with no event before it. -/
theorem work_errorStatus_plain {s u : State} {st : Byte} (hat : AtFrame s) (hpending : framePending s = true)
    (h : byRole (replyAndReturn st) invalidReply s = .next u) : ∃ es, Work s es u :=
  work_errorStatus (events := []) hat hpending (.inl rfl) (by rw [List.append_nil]; exact h)

/-- The commit of a staged address, as a table and the signals it asserts (rule R277). -/
theorem commits_commitAddress (s : State) :
    ∃ table signals, Commits s table signals ∧
      (commitAddress s).atab = table ∧ (commitAddress s).trace = s.trace ++ signals := by
  rcases commitAddress_cases s with ⟨_, he⟩ | ⟨_, _, he⟩ | ⟨i, hne, hfree, he⟩ <;> rw [he]
  · exact ⟨_, _, .inl ⟨rfl, rfl⟩, rfl, (List.append_nil _).symm⟩
  · exact ⟨_, _, .inl ⟨rfl, rfl⟩, rfl, (List.append_nil _).symm⟩
  · exact ⟨_, _, .inr ⟨i, hne, hfree, rfl, rfl⟩, rfl, rfl⟩

/-- `ST_OK` in either role (rules R253, R277, R312). -/
theorem work_stOk {s u : State} (hat : AtFrame s) (hcomplete : s.fComplete = true)
    (h : exec .stOk s = .next u) : ∃ es, Work s es u := by
  cases hrole : s.cfg.role with
  | node =>
    rw [exec_stOk_of_node hrole] at h
    obtain ⟨table, signals, hcommits, htable, htrace⟩ := commits_commitAddress s
    refine (Work.sent table signals hrole hat hcomplete hcommits).of_eq ?_
    rw [htable, htrace] at h
    rw [← Host.Outcome.next.inj h]
    simp only [List.append_assoc]
  | host =>
    rw [exec_stOk, execStOk] at h
    rcases byRole_next.mp h with ⟨hnode, _⟩ | ⟨_, hawaited, rfl⟩
    · rw [hrole] at hnode; cases hnode
    · exact ⟨_, .replyOk hawaited hat⟩

/-! ## The commands -/

/-- A withheld command waits for a verified frame (rule R257). -/
theorem work_withheld {s u : State} {i : Instr} {f : State → State} (hcommand : AtCommand s i)
    (hf : s.fComplete = true → ∃ es, Work s es (f s)) (h : onNode (whenVerified f) s = .next u) :
    ∃ es, Work s es u := by
  obtain ⟨_, rfl⟩ := onNode_next.mp h
  cases hcomplete : s.fComplete with
  | true => rw [whenVerified_of_complete hcomplete]; exact hf hcomplete
  | false => rw [whenVerified_of_unverified hcomplete]; exact ⟨_, .waited .incomplete hcommand.looping⟩

/-- An address is staged while a slot is free, or the frame is abandoned (rule R266). -/
theorem work_stageAddress {s : State} {addr : Byte} (hcommand : AtCommand s (.setaddr addr)) :
    ∃ es, Work s es (stageAddress addr s) := by
  unfold stageAddress
  split
  · rename_i hready
    exact ⟨_, .staged addr hcommand hready.2⟩
  · exact ⟨_, .abandoned hcommand⟩

/-- The speed is switched, or it is kept (rule R271). -/
theorem work_switchSpeed {s : State} {i : Instr} {mode : Byte} (hcommand : AtCommand s i)
    (hcomplete : s.fComplete = true) : ∃ es, Work s es (abandon (switchSpeed mode s)) := by
  rcases switchSpeed_cases mode s with ⟨_, he⟩ | ⟨m, _, hyes, he⟩ | ⟨m, _, _, he⟩ <;> rw [he]
  · exact ⟨_, .abandoned hcommand⟩
  · refine (Work.switched m hcommand hcomplete hyes).of_eq ?_
    rw [abandon_eq]; simp only [List.append_assoc]; rfl
  · refine (Work.speedRefused m hcommand).of_eq ?_
    rw [abandon_eq]; simp only [List.append_assoc]; rfl

/-- The last packet is sent again, or there is none (rule R272). -/
theorem work_resendLast {s : State} {i : Instr} (hcommand : AtCommand s i) (hcomplete : s.fComplete = true) :
    ∃ es, Work s es (abandon (resendLast s)) := by
  cases hlast : s.txlast with
  | none => rw [resendLast, hlast]; exact ⟨_, .abandoned hcommand⟩
  | some p =>
    refine (Work.resent p hcommand hcomplete).of_eq ?_
    rw [resendLast, hlast, abandon_eq, ← List.append_assoc]
    rfl

/-- The effect of a command (rules R257, R264 to R273). -/
theorem work_command {s u : State} {i : Instr} (hcommand : AtCommand s i) (hlevel : i.level = .command)
    (h : exec i s = .next u) : ∃ es, Work s es u := by
  by_cases hsurfaced : surfaced i = true
  · rw [exec_of_surfaced hsurfaced hcommand.node] at h
    cases h
    exact ⟨_, .surfaced _ hcommand⟩
  · cases i with
    | cmdrev | jvsrev | commver | commsup =>
      obtain ⟨_, rfl⟩ := onNode_next.mp h
      exact ⟨_, .answeredByte _ hcommand⟩
    | mainid text =>
      obtain ⟨_, rfl⟩ := onNode_next.mp h
      exact ⟨_, .answeredOk hcommand⟩
    | retry => exact work_withheld hcommand (work_resendLast hcommand) h
    | reset arg =>
      refine work_withheld hcommand (fun _ => ?_) h
      exact (Work.reset _ hcommand).of_eq (resetNode_eq arg s)
    | setaddr addr => exact work_withheld hcommand (fun _ => work_stageAddress hcommand) h
    | commchg mode => exact work_withheld hcommand (work_switchSpeed hcommand) h
    | sync | mark | stOk | stUnknown | stSumerr | stOverflow | rpOk | addrHost | addrBcast => cases hlevel
    | _ => exact absurd rfl hsurfaced

/-- What the command decoder answers is a command. -/
theorem level_of_decodeCommand {cfg : Config} {bytes rest : List Byte} {i : Instr}
    (h : decodeCommand cfg bytes = .ok (i, rest)) : i.level = .command := by
  obtain ⟨n, _, _, hi, _⟩ := decodeCommand_eq_ok.mp h
  cases hbytes : bytes.take n with
  | nil => rw [hbytes] at hi; cases hi
  | cons op args =>
    rw [hbytes] at hi
    rcases ofOpcode_some hi with ⟨_, _, hlevel, _⟩ | ⟨_, _, _, _, rfl⟩ | ⟨_, _, _, _, rfl⟩ |
      ⟨_, _, _, _, rfl⟩ | ⟨_, rfl⟩ | ⟨_, rfl⟩
    · exact hlevel
    all_goals rfl

/-! ## The loop of `NE_NEXT` -/

/-- One turn of the loop of `NE_NEXT` (rules R252 to R260). -/
theorem work_effect_nodeLoop {s u : State} {spec : Bool} (hphase : s.phase = .nodeLoop spec)
    (h : work s = .next u) : ∃ es, Work s es u := by
  have hat : AtFrame s := .inl ⟨spec, hphase⟩
  rcases work_nodeLoop hphase h with ⟨hsumerr, he⟩ | ⟨_, _, ⟨r, _, rfl⟩ | rfl⟩ |
    ⟨_, hcomplete, ⟨_, he⟩ | ⟨_, _, he⟩ | ⟨op, _, _, _, he⟩ | ⟨e, _, _, _, _, he⟩⟩ |
    ⟨i, rest, hsumerr, _, _, hinside, hdecode, he⟩
  · exact work_errorStatus_plain hat (framePending_eq_true.mpr (.inr hsumerr)) he
  · exact ⟨_, .waited r ⟨spec, hphase⟩⟩
  · exact ⟨_, .waited .incomplete ⟨spec, hphase⟩⟩
  · exact work_errorStatus_plain hat (framePending_eq_true.mpr (.inl hcomplete)) he
  · exact work_stOk hat hcomplete he
  · exact work_errorStatus hat (framePending_eq_true.mpr (.inl hcomplete)) (.inr ⟨op, rfl⟩) he
  · exact work_errorStatus_plain hat (framePending_eq_true.mpr (.inl hcomplete)) he
  · have hlevel := level_of_decodeCommand hdecode
    cases hrole : s.cfg.role with
    | node =>
      exact work_command ⟨⟨spec, hphase⟩, hrole, hsumerr, hinside, rest, hdecode⟩ hlevel he
    | host => rw [hostRunsNoCommand i s hlevel hrole] at he; cases he

/-! ## The receive loop -/

/-- One turn of the receive loop (rules R210, R212, R220). -/
theorem work_effect_receive {s u : State} {r : Receiver} (hphase : s.phase = .receive r)
    (h : work s = .next u) : ∃ es, Work s es u := by
  rw [work_receive hphase] at h
  split at h
  · rename_i hpending
    cases h; exact ⟨_, .received hphase (.inl hpending)⟩
  · rename_i hpending
    split at h
    · rename_i hdue
      cases h; exact ⟨_, .frameEnded hphase (by simpa using hpending) hdue⟩
    · rename_i hdue
      split at h
      · rename_i hchan
        cases h; exact ⟨_, .received hphase (.inr ⟨by simpa using hdue, hchan⟩)⟩
      · rename_i b rest hchan
        cases h; exact ⟨_, .byteTaken hphase (by simpa using hpending) (by simpa using hdue) hchan⟩

/-! ## The arms of the host -/

/-- The arms that only move on (rules R320, R321, R326, R328, R313, R360 to R362). -/
theorem Work.moved {s : State} {h : HostState} (hphase : s.phase = .hostArm) (hh : h ≠ .addressWait)
    (hcycle : h.inCycle = false) : ∃ es, Work s es (goHost h s) :=
  ⟨_, .hostMoved h s.ht0 s.htgt hphase hh hcycle (.inl rfl) (.inl rfl)⟩

/-- The arms that send a packet (rules R310, R322, R323, R326, R332, R352). -/
theorem Work.sends {s : State} {h : HostState} {addr : Byte} {p : Payload} (hphase : s.phase = .hostArm)
    (hsends : s.hs ∈ sendingStates) (hnotSync : s.hs ≠ .waitSync)
    (haddress : h = .addressWait → s.hdev ≠ 254) (hcycle : h.inCycle = true → s.hs.inCycle = true) :
    ∃ es, Work s es (goHost h (heSend addr p s)) := by
  refine (Work.hostSent h addr p hphase hsends hnotSync haddress hcycle).of_eq ?_
  rw [goHost_eq, heSend_eq]
  simp only [List.append_assoc]

/-- The arm of each state of the host (rules R320 to R332, R348, R352, R360 to R362). -/
theorem work_effect_arm {s : State} (hphase : s.phase = .hostArm) : ∃ es, Work s es (hostArm s) := by
  have hwaits (hwait : s.hs.isWait = true) : ∃ es, Work s es (hostArm s) := by
    rw [hostArm_of_wait hwait, waitOn]
    split
    · exact Work.moved (h := .timeout) hphase (by decide) rfl
    · exact ⟨_, .hostStayed hphase⟩
  have hsending {h : HostState} (hs : s.hs = h) (hmem : h ∈ sendingStates) : s.hs ∈ sendingStates := hs ▸ hmem
  have hne {h : HostState} (hs : s.hs = h) (hnot : h ≠ .waitSync) : s.hs ≠ .waitSync := hs ▸ hnot
  cases hs : s.hs with
  | addressWait | waitIoid | waitCmdrev | waitJvrev | waitProtover | waitFeatchk | waitSync | waitCoinSync =>
    exact hwaits (by rw [hs]; rfl)
  | disconnected =>
    simp only [hostArm, hs]
    exact ⟨_, .hostMoved .connected s.tick s.htgt hphase (by decide) rfl (.inr rfl) (.inl rfl)⟩
  | connected =>
    simp only [hostArm, hs]
    split
    · exact Work.moved hphase (by decide) rfl
    · exact ⟨_, .hostStayed hphase⟩
  | reset1 | reset2 | reqIoid | reqCmdrev | reqJvrev | reqProtover | reqFeatchk =>
    simp only [hostArm, hs]
    exact Work.sends hphase (hsending hs (by decide)) (hne hs (by decide)) (fun h => nomatch h)
      fun h => nomatch h
  | reqSync =>
    simp only [hostArm, hs]
    exact Work.sends hphase (hsending hs (by decide)) (hne hs (by decide)) (fun h => nomatch h)
      fun _ => by rw [hs]; rfl
  | address =>
    simp only [hostArm, hs, assignAddress]
    split
    · exact Work.moved (h := .unexpected) hphase (by decide) rfl
    · exact Work.sends hphase (hsending hs (by decide)) (hne hs (by decide)) (fun _ => by omega)
        fun h => nomatch h
  | readyCheck =>
    simp only [hostArm, hs, readyCheck]
    split
    · exact ⟨_, .hostMoved .reqIoid s.ht0 1 hphase (by decide) rfl (.inl rfl) (.inr rfl)⟩
    · split
      · exact Work.moved hphase (by decide) rfl
      · exact ⟨_, .hostStayed hphase⟩
  | ready =>
    simp only [hostArm, hs]
    exact ⟨_, .hostStayed hphase⟩
  | timeout | invalidResponse | unexpected =>
    simp only [hostArm, hs]
    exact ⟨_, .disconnected hphase⟩

/-! ## The replies of the host -/

theorem work_invalidReply (s : State) : ∃ es, Work s es (invalidReply s) := ⟨_, .replyInvalid [] (.inl rfl)⟩

/-- The next target, or the snapshot, with whatever the switch maps hold (rule R358). -/
theorem work_advanceTarget {s : State} (hreply : TakesReply s) (sw0 sw1 : Vector Byte 4) :
    ∃ es, Work s es (finishHost (advanceTarget { frameClear s with hsw0 := sw0, hsw1 := sw1 })) := by
  by_cases hmore : s.htgt < s.hdev ∧ s.htgt < 4
  · refine (Work.cycleContinued sw0 sw1 hreply hmore.1 hmore.2).of_eq ?_
    rw [advanceTarget_more (by exact hmore.1) (by exact hmore.2)]
    rfl
  · refine (Work.cycleEnded sw0 sw1 hreply).of_eq ?_
    have hlast : s.hdev ≤ s.htgt ∨ 4 ≤ s.htgt := by omega
    rw [advanceTarget_last (by exact hlast), finishHost_eq rfl]
    simp only [List.append_assoc]
    rfl

/-- A sync reply: one coin is subtracted, or the cycle goes on (rules R354 to R358). -/
theorem work_takeSyncReply {s : State} (hreply : TakesReply s) (hs : s.hs = .waitSync) (p : List Byte) :
    ∃ es, Work s es (finishHost (takeSyncReply p (frameClear s))) := by
  rw [takeSyncReply_eq]
  cases hslot : coinSlot p (secondReportIndex (frameClear s)) (targetCoinSlots (frameClear s))
      (playersBefore (frameClear s)) with
  | none =>
    rw [coinStep_none hslot]
    exact work_advanceTarget hreply _ _
  | some slot =>
    have hbase : playersBefore (frameClear s) + slot < 4 := by
      have hfound := List.find?_some hslot
      rw [Bool.and_eq_true, decide_eq_true_eq, decide_eq_true_eq] at hfound
      exact hfound.2
    have hrole := (replyAwaited_eq_true.mp hreply.awaited).1
    refine (Work.coinTaken (withSwitches p (frameClear s)).hsw0 (withSwitches p (frameClear s)).hsw1
      (playersBefore (frameClear s) + slot) (BitVec.ofNat 8 s.htgt)
      ⟨[0x30, BitVec.ofNat 8 (slot + 1), 0x00, 0x01], by simp⟩ hreply hs hbase).of_eq ?_
    rw [coinStep_some hbase hslot, frameClear_of_host (s := withSwitches p (frameClear s)) hrole,
      finishHost_eq rfl]
    simp only [List.append_assoc]
    rfl

/-- A revision reply is reported (rules R338 to R340). -/
theorem work_takeRevision {s u : State} {p : List Byte} {kind : CapKind} {h : HostState}
    (hreply : TakesReply s) (hh : h ≠ .addressWait) (hcycle : h.inCycle = false)
    (haccept : takeRevision p kind h (frameClear s) = some u) : ∃ es, Work s es (finishHost u) := by
  rw [takeRevision, Option.ite_none_right_eq_some] at haccept
  obtain ⟨_, hu⟩ := haccept
  cases hu
  refine (Work.reported h kind [payAt p 2] hreply hh hcycle).of_eq ?_
  rw [finishHost_eq rfl]
  simp only [emit, emitAll, List.append_assoc]
  rfl

/-- A function-check reply is cached and reported (rules R344, R346). -/
theorem work_takeFeatures {s : State} {p : List Byte} {players buttons coins : Byte}
    (hreply : TakesReply s) :
    ∃ es, Work s es (finishHost (afterFeatures (emit (.evCapability s.htgt .featchk (p.drop 2))
      (cacheFeatures players buttons coins (frameClear s))))) := by
  rw [afterFeatures_eq, cacheFeatures_eq]
  refine (Work.featuresTaken (if s.htgt < s.hdev then .reqIoid else .ready)
    (if s.htgt ≤ 4 then s.hplayers.setIfInBounds (s.htgt - 1) players else s.hplayers)
    (if s.htgt ≤ 4 then s.hbuttons.setIfInBounds (s.htgt - 1) buttons else s.hbuttons)
    (if s.htgt ≤ 4 then s.hcoinslots.setIfInBounds (s.htgt - 1) coins else s.hcoinslots)
    (if s.htgt ≤ 4 then min 4 (s.htotal + players.toNat) else s.htotal)
    (if s.htgt < s.hdev then s.htgt + 1 else s.htgt) (p.drop 2) hreply ?_ ?_ ?_ ?_).of_eq ?_
  · split_ifs <;> decide
  · split_ifs <;> rfl
  · split_ifs
    · exact .inr (Nat.min_le_left _ _)
    · exact .inl rfl
  · split_ifs with hmore
    · exact .inr ⟨rfl, hmore⟩
    · exact .inl rfl
  · rw [finishHost_eq rfl]
    simp only [emit, emitAll, List.append_assoc]
    rfl

/-- Whatever a wait state accepts (rules R327, R336 to R346, R354, R357). -/
theorem work_acceptReply {s u : State} {p : List Byte} (hreply : TakesReply s)
    (h : acceptReply p (frameClear s) = some u) : ∃ es, Work s es (finishHost u) := by
  unfold acceptReply at h
  rw [frameClear_hs] at h
  cases hs : s.hs <;> rw [hs] at h
  case addressWait =>
    obtain ⟨_, hu⟩ := Option.ite_none_right_eq_some.mp h
    cases hu
    exact ⟨_, .addressed hreply hs⟩
  case waitIoid =>
    cases h
    refine (Work.reported .reqCmdrev .ioid (p.drop 2) hreply (by decide) rfl).of_eq ?_
    rw [finishHost_eq rfl]
    simp only [emit, emitAll, List.append_assoc]
    rfl
  case waitCmdrev => exact work_takeRevision hreply (by decide) rfl h
  case waitJvrev => exact work_takeRevision hreply (by decide) rfl h
  case waitProtover => exact work_takeRevision hreply (by decide) rfl h
  case waitFeatchk =>
    simp only at h
    split at h
    · cases h
    · cases h; exact work_takeFeatures hreply
  case waitSync =>
    obtain ⟨_, hu⟩ := Option.ite_none_right_eq_some.mp h
    cases hu
    exact work_takeSyncReply hreply hs p
  case waitCoinSync =>
    obtain ⟨_, hu⟩ := Option.ite_none_right_eq_some.mp h
    cases hu
    exact work_advanceTarget hreply s.hsw0 s.hsw1
  all_goals cases h

/-- A reply with both codes is accepted or it is invalid (rule R313). -/
theorem work_takeReply {s : State} (hreply : TakesReply s) : ∃ es, Work s es (takeReply s) := by
  unfold takeReply
  split
  · rename_i u haccept
    exact work_acceptReply hreply haccept
  · exact work_invalidReply s

/-! ## The report code and the status byte -/

/-- A byte pushed by the application, or in host role the report code of a reply (rules R111, R274, R312). -/
theorem work_rpOk {s u : State} (hphase : s.phase = .hostReport ∨ ∃ b, s.phase = .push b)
    (h : exec .rpOk s = .next u) : ∃ es, Work s es u := by
  rw [exec_rpOk, execRpOk] at h
  rcases byRole_next.mp h with ⟨hrole, rfl⟩ | ⟨_, hawaited, rfl⟩
  · exact ⟨_, .pushed reportOk (hphase.symm.imp id fun hp => ⟨hp, hrole⟩)⟩
  · exact work_takeReply ⟨hawaited, hphase⟩

theorem work_effect_push {s u : State} {b : Byte} (hphase : s.phase = .push b) (h : work s = .next u) :
    ∃ es, Work s es u := by
  simp only [work, fetch, hphase, fetchPush] at h
  cases hreport : decodeReport b with
  | some i =>
    obtain ⟨_, rfl⟩ := decodeReport_eq_some hreport
    simp only [hreport] at h
    exact work_rpOk (.inr ⟨b, hphase⟩) h
  | none =>
    simp only [hreport] at h
    cases h
    exact ⟨_, .pushed b (.inl ⟨b, hphase⟩)⟩

theorem work_effect_hostReport {s u : State} (hphase : s.phase = .hostReport) (h : work s = .next u) :
    ∃ es, Work s es u := by
  simp only [work, fetch, hphase, fetchReport] at h
  cases hreport : decodeReport (payAt (replyPayload s) 1) with
  | some i =>
    obtain ⟨_, rfl⟩ := decodeReport_eq_some hreport
    simp only [hreport] at h
    exact work_rpOk (.inl hphase) h
  | none =>
    simp only [hreport] at h
    cases h
    exact work_invalidReply s

theorem work_effect_hostArm {s u : State} (hphase : s.phase = .hostArm) (h : work s = .next u) :
    ∃ es, Work s es u := by
  simp only [work, fetch, hphase, fetchHost] at h
  by_cases hreply : s.hs.isWait = true ∧ s.fComplete = true
  · have hpending : framePending s = true := framePending_eq_true.mpr (.inl hreply.2)
    rw [if_pos hreply] at h
    by_cases hframed : replyFramed s = true
    · rw [if_pos hframed] at h
      cases hstatus : decodeStatus (payAt (replyPayload s) 0) with
      | none =>
        simp only [hstatus] at h
        cases h
        exact work_invalidReply s
      | some i =>
        simp only [hstatus] at h
        have hlevel := (decodeStatus_isCode s.cfg hstatus).1
        cases i with
        | stOk => exact work_stOk (.inr hphase) hreply.2 h
        | stUnknown | stSumerr | stOverflow => exact work_errorStatus_plain (.inr hphase) hpending h
        | _ => cases hlevel
    · rw [if_neg hframed] at h
      cases h
      exact work_invalidReply s
  · rw [if_neg hreply] at h
    cases h
    exact work_effect_arm hphase

/-- Every step of the running call is one of the cases of `Work`. -/
theorem work_effect {s u : State} (h : work s = .next u) : ∃ es, Work s es u := by
  cases hphase : s.phase with
  | idle =>
    rw [work_idle hphase] at h
    cases h
    exact ⟨_, .idle hphase⟩
  | receive r => exact work_effect_receive hphase h
  | nodeLoop spec => exact work_effect_nodeLoop hphase h
  | push b => exact work_effect_push hphase h
  | hostArm => exact work_effect_hostArm hphase h
  | hostReport => exact work_effect_hostReport hphase h

end Sys2Proof.Machine
end

section
/-! What every step of the machine keeps, whatever the state: the configuration, the trace so far, the speed, the order
of the slots, the bytes behind a pending frame (rules R36, R46, R75, R81, R212, R283 c). -/

namespace Sys2Proof.Machine

/-! ## The receive loop's operations leave the rest of the state -/

/-- Taking a byte touches the receive state only, and what a frame marker clears (rules R213 to R218). -/
theorem takeByte_frame (b : Byte) (s : State) :
    takeByte b s = { s with
      rxb := (takeByte b s).rxb, rxw := (takeByte b s).rxw, rxr := (takeByte b s).rxr
      fFraming := (takeByte b s).fFraming, fEsc := (takeByte b s).fEsc
      fComplete := (takeByte b s).fComplete, fSumerr := (takeByte b s).fSumerr
      dsrSnap := (takeByte b s).dsrSnap, freeCount := (takeByte b s).freeCount
      txn := (takeByte b s).txn, newaddr := (takeByte b s).newaddr, fTxovf := (takeByte b s).fTxovf } := by
  unfold takeByte
  split_ifs
  · rfl
  · unfold takeMark; split_ifs <;> rfl
  · rcases takePlain_cases b s with ⟨_, he⟩ | ⟨_, _, he⟩ | ⟨_, _, he⟩
    · rw [he]
    · rw [he]; rfl
    · rw [he]

/-- The end of a frame touches the receive state only, and what a cleared frame clears (rules R222 to R227). -/
theorem frameEnd_frame (a : Byte) (s : State) :
    frameEnd a s = { s with
      rxw := (frameEnd a s).rxw, rxr := (frameEnd a s).rxr, fFraming := (frameEnd a s).fFraming
      fEsc := (frameEnd a s).fEsc, fComplete := (frameEnd a s).fComplete
      fSumerr := (frameEnd a s).fSumerr, txn := (frameEnd a s).txn
      newaddr := (frameEnd a s).newaddr, fTxovf := (frameEnd a s).fTxovf } := by
  rcases frameEnd_cases a s with ⟨_, he⟩ | ⟨_, _, he⟩ | ⟨_, _, _, he⟩ | ⟨_, _, _, _, he⟩ <;> rw [he] <;> rfl

/-! ## The running call -/

/-- The configuration, the entries to come and the clock are not the running call's to change. -/
structure Keeps (s u : State) : Prop where
  cfg : u.cfg = s.cfg
  inputs : u.inputs = s.inputs
  tick : u.tick = s.tick

theorem Work.keeps {s u : State} {es : List PortEvent} (h : Work s es u) : Keeps s u := by
  cases h with
  | frameEnded => rw [frameEnd_frame]; exact ⟨rfl, rfl, rfl⟩
  | byteTaken => rw [takeByte_frame]; exact ⟨rfl, rfl, rfl⟩
  | _ => exact ⟨rfl, rfl, rfl⟩

/-- The events of a case are what it appends to the trace (rules R75, R81). -/
theorem Work.trace {s u : State} {es : List PortEvent} (h : Work s es u) : u.trace = s.trace ++ es := by
  cases h with
  | idle | received | answeredOk | answeredByte | staged | replyOk => exact (List.append_nil _).symm
  | frameEnded => rw [frameEnd_frame]; exact (List.append_nil _).symm
  | byteTaken => rw [takeByte_frame]; exact (List.append_nil _).symm
  | _ => rfl

/-- The speed is switched by a committed change in a verified frame, and by nothing else (rules R36, R271). -/
theorem Work.commMode {s u : State} {es : List PortEvent} (h : Work s es u) :
    u.commMode = s.commMode ∨
    (s.fComplete = true ∧ (u.commMode, true) ∈ s.speedYes ∧ .speedCommit u.commMode true ∈ es) := by
  cases h with
  | frameEnded => rw [frameEnd_frame]; exact .inl rfl
  | byteTaken => rw [takeByte_frame]; exact .inl rfl
  | switched m _ hcomplete hyes => exact .inr ⟨hcomplete, hyes, List.mem_cons_self⟩
  | _ => exact .inl rfl

/-- The table changes by a reset and by the commit of a staged address (rules R264, R277). -/
theorem Work.atab {s u : State} {es : List PortEvent} (h : Work s es u) :
    u.atab = s.atab ∨ u.atab = List.replicate s.atab.length addrBcast ∨
    ∃ signals, Commits s u.atab signals := by
  cases h with
  | frameEnded => rw [frameEnd_frame]; exact .inl rfl
  | byteTaken => rw [takeByte_frame]; exact .inl rfl
  | reset => exact .inr (.inl rfl)
  | sent table signals _ _ _ hcommits => exact .inr (.inr ⟨signals, hcommits⟩)
  | _ => exact .inl rfl

/-- Bytes are taken from the channel only while no frame is pending (rule R212). -/
theorem Work.chanRx {s u : State} {es : List PortEvent} (h : Work s es u)
    (hpending : framePending s = true) : u.chanRx = s.chanRx := by
  cases h with
  | frameEnded => rw [frameEnd_frame]
  | byteTaken _ hnone => rw [hpending] at hnone; cases hnone
  | _ => rfl

/-! ## A step -/

/-- When the block acts, it acts on the state but for the entry that gave it its turn. -/
theorem nextTurn_block_frame {s t : State} (h : nextTurn s = .block t) : ∃ l, t = { s with inputs := l } := by
  rcases nextTurn_block.mp h with ⟨_, rfl⟩ | ⟨rest, _, rfl⟩ | ⟨_, _, _, _, rfl⟩
  · exact ⟨_, rfl⟩
  · exact ⟨rest, rfl⟩
  · exact ⟨_, rfl⟩

/-- A step is an event of the environment, the beginning of a call, or a step of the running call. -/
theorem step_effect {s u : State} (h : step s = .next u) :
    (∃ e rest, s.inputs = .env e :: rest ∧ u = applyEnv e { s with inputs := rest }) ∨
    (∃ c rest, s.inputs = .call c :: rest ∧ s.phase = .idle ∧
      begin c { s with inputs := rest } = .next u) ∨
    (∃ l es, Work { s with inputs := l } es u) := by
  rcases step_next h with henv | hcall | ⟨t, hturn, hwork⟩
  · exact .inl henv
  · exact .inr (.inl hcall)
  · obtain ⟨l, rfl⟩ := nextTurn_block_frame hturn
    obtain ⟨es, he⟩ := work_effect hwork
    exact .inr (.inr ⟨l, es, he⟩)

/-- An event of the environment changes what it names and nothing of the block (rules R8, R401 to R403). -/
theorem applyEnv_frame (e : EnvEvent) (s : State) :
    applyEnv e s = { s with
      chanRx := (applyEnv e s).chanRx, connectedIn := (applyEnv e s).connectedIn
      readyIn := (applyEnv e s).readyIn, downstreamReady := (applyEnv e s).downstreamReady
      tick := (applyEnv e s).tick, speedYes := (applyEnv e s).speedYes } := by
  cases e <;> rfl

/-- Events that put no byte on the bus and do not assert the ready signal. -/
def Silent (es : List PortEvent) : Prop := transmits es = false ∧ PortEvent.readyOut true ∉ es

/-- The beginning of a call keeps the configuration and the channel, and appends events that are silent. -/
theorem begin_effect {c : Call} {s u : State} (h : begin c s = .next u) :
    u.cfg = s.cfg ∧ u.chanRx = s.chanRx ∧ ∃ es, u.trace = s.trace ++ es ∧ Silent es := by
  rcases begin_next h with ⟨_, _, _, rfl⟩ | ⟨_, _, _, rfl⟩ | ⟨_, _, rfl⟩ | ⟨_, _, rfl⟩ | ⟨_, _, rfl⟩ |
    ⟨_, _, _, rfl⟩ | ⟨_, _, _, rfl⟩ | ⟨_, _, rfl⟩ | ⟨_, rfl⟩
  · exact ⟨rfl, rfl, [], (List.append_nil _).symm, rfl, List.not_mem_nil⟩
  · exact ⟨rfl, rfl, [], (List.append_nil _).symm, rfl, List.not_mem_nil⟩
  · exact ⟨rfl, rfl, _, rfl, rfl, by simp⟩
  · exact ⟨rfl, rfl, _, rfl, rfl, by simp⟩
  · exact ⟨rfl, rfl, [.readyOut false, .ledOut false, .returned .unit], List.append_assoc _ _ _, rfl, by simp⟩
  · exact ⟨rfl, rfl, [], (List.append_nil _).symm, rfl, List.not_mem_nil⟩
  · exact ⟨rfl, rfl, _, rfl, rfl, by simp⟩
  · unfold heSync
    split_ifs <;> exact ⟨rfl, rfl, [.returned .unit], rfl, rfl, by simp⟩
  · refine ⟨rfl, rfl, initOutputs s.cfg.role ++ [PortEvent.returned .unit],
      List.append_assoc _ _ _, ?_, ?_⟩ <;>
      cases s.cfg.role <;> simp [initOutputs, transmits]

/-- What a step appends to the trace: silent events, or those of the running call. -/
theorem step_trace {s u : State} (h : step s = .next u) :
    ∃ es, u.trace = s.trace ++ es ∧ (Silent es ∨ ∃ l, Work { s with inputs := l } es u) := by
  rcases step_effect h with ⟨e, rest, _, rfl⟩ | ⟨c, rest, _, _, hbegin⟩ | ⟨l, es, hwork⟩
  · rw [applyEnv_frame]
    exact ⟨[], (List.append_nil _).symm, .inl ⟨rfl, List.not_mem_nil⟩⟩
  · obtain ⟨_, _, es, htrace, hsilent⟩ := begin_effect hbegin
    exact ⟨es, htrace, .inl hsilent⟩
  · exact ⟨es, hwork.trace, .inr ⟨l, hwork⟩⟩

/-- Settles O57: no case of a step writes the configuration, and every case appends to the trace. -/
theorem configurationStaysAndOutputsGrow : Obligations.ConfigurationStaysAndOutputsGrow := by
  refine ⟨fun s t h => ?_, fun s t h => ?_⟩
  · rcases step_effect h with ⟨e, rest, _, rfl⟩ | ⟨c, rest, _, _, hbegin⟩ | ⟨l, es, hwork⟩
    · rw [applyEnv_frame]
    · exact (begin_effect hbegin).1
    · exact hwork.keeps.cfg
  · obtain ⟨es, htrace, _⟩ := step_trace h
    exact ⟨es, htrace.symm⟩

theorem gained_of_trace {s t : State} {es : List PortEvent} (h : t.trace = s.trace ++ es) : gained s t = es := by
  rw [gained, h, List.drop_left]

/-- A call other than `INIT` keeps the speed, and `INIT` sets the base speed (rules R36, R49). -/
theorem begin_commMode {c : Call} {s u : State} (h : begin c s = .next u) :
    u.commMode = s.commMode ∨ (c = .init ∧ u.commMode = .base) := by
  rcases begin_next h with ⟨_, _, _, rfl⟩ | ⟨_, _, _, rfl⟩ | ⟨_, _, rfl⟩ | ⟨_, _, rfl⟩ | ⟨_, _, rfl⟩ |
    ⟨_, _, _, rfl⟩ | ⟨_, _, _, rfl⟩ | ⟨_, _, rfl⟩ | ⟨hc, rfl⟩
  · exact .inl rfl
  · exact .inl rfl
  · exact .inl rfl
  · exact .inl rfl
  · exact .inl rfl
  · exact .inl rfl
  · exact .inl rfl
  · unfold heSync
    split_ifs <;> exact .inl rfl
  · exact .inr ⟨hc, rfl⟩

/-- Settles O58: `INIT`, or the one case of the running call that switches. -/
theorem linkSpeedChangesOnlyOnCommit : Obligations.LinkSpeedChangesOnlyOnCommit := by
  intro s t h hne
  rcases step_effect h with ⟨e, rest, _, rfl⟩ | ⟨c, rest, hinputs, _, hbegin⟩ | ⟨l, es, hwork⟩
  · rw [applyEnv_frame] at hne; exact absurd rfl hne
  · rcases begin_commMode hbegin with hsame | ⟨rfl, hbase⟩
    · exact absurd hsame hne
    · exact .inr ⟨rest, hinputs, hbase⟩
  · rcases hwork.commMode with hsame | ⟨hcomplete, hyes, hmem⟩
    · exact absurd hsame hne
    · exact .inl ⟨hcomplete, hyes, by rw [gained_of_trace (s := s) hwork.trace]; exact hmem⟩

/-- Settles O15: only a new byte touches the channel behind a pending frame, and the receive loop ends at once. -/
theorem pendingFrameStallsTheDecoder : Obligations.PendingFrameStallsTheDecoder := by
  refine ⟨fun s t hpending h => ?_, fun s t hturn hpending => ?_⟩
  · rcases step_effect h with ⟨e, rest, _, rfl⟩ | ⟨c, rest, _, _, hbegin⟩ | ⟨l, es, hwork⟩
    · cases e with
      | byte b => exact List.prefix_append _ _
      | _ => exact List.prefix_rfl
    · rw [(begin_effect hbegin).2.1]
    · rw [hwork.chanRx (framePending_eq_true.mpr hpending)]
  · exact ⟨fun spec hphase => step_receive_pending hturn hphase (framePending_eq_true.mpr hpending),
      fun hphase => step_receive_pending hturn hphase (framePending_eq_true.mpr hpending)⟩

/-! ## The order of the slots -/

theorem filledInOrder_replicate (n : Nat) : filledInOrder (List.replicate n addrBcast) = true := by
  cases n with
  | zero => rfl
  | succ n => simp [List.replicate_succ, filledInOrder]

/-- An address in the first free slot keeps the slots in order (rule R283 c). -/
theorem filledInOrder_set {l : List Byte} {i : Nat} {a : Byte} (h : filledInOrder l = true)
    (hi : firstFree l = some i) (ha : a ≠ addrBcast) : filledInOrder (l.set i a) = true := by
  induction l generalizing i with
  | nil => cases hi
  | cons b l ih =>
    by_cases hb : b = addrBcast
    · obtain rfl : i = 0 := by
        simpa [firstFree, List.findIdx?_cons, hb] using hi.symm
      have hrest : l.all (fun c => decide (c = addrBcast)) = true := by simpa [filledInOrder, hb] using h
      obtain ⟨n, rfl⟩ : ∃ n, l = List.replicate n addrBcast :=
        ⟨l.length, List.eq_replicate_iff.mpr ⟨rfl, by simpa using hrest⟩⟩
      rw [List.set_cons_zero, filledInOrder, if_neg ha]
      exact filledInOrder_replicate n
    · have hrest : filledInOrder l = true := by simpa [filledInOrder, hb] using h
      obtain ⟨j, hj, rfl⟩ : ∃ j, firstFree l = some j ∧ j + 1 = i := by
        simpa [firstFree, List.findIdx?_cons, hb] using hi
      rw [List.set_cons_succ, filledInOrder, if_neg hb]
      exact ih hrest hj

theorem filledInOrder_initTable (c : Config) : filledInOrder (initTable c) = true := by
  unfold initTable
  cases c.role with
  | node => exact filledInOrder_replicate c.ndev
  | host => rfl

/-- A call keeps the order of the slots: it keeps the table, clears it or initialises it. -/
theorem begin_filledInOrder {c : Call} {s u : State} (h : begin c s = .next u)
    (ho : filledInOrder s.atab = true) : filledInOrder u.atab = true := by
  rcases begin_next h with ⟨_, _, _, rfl⟩ | ⟨_, _, _, rfl⟩ | ⟨_, _, rfl⟩ | ⟨_, _, rfl⟩ | ⟨_, _, rfl⟩ |
    ⟨_, _, _, rfl⟩ | ⟨_, _, _, rfl⟩ | ⟨_, _, rfl⟩ | ⟨_, rfl⟩
  · exact ho
  · exact ho
  · exact ho
  · exact ho
  · exact filledInOrder_replicate _
  · exact ho
  · exact ho
  · unfold heSync
    split_ifs <;> exact ho
  · exact filledInOrder_initTable _

/-- Settles O33: the table is kept, cleared, or has its first free slot filled. -/
theorem slotsFillInOrder : Obligations.SlotsFillInOrder := by
  intro s t ho h
  rcases step_effect h with ⟨e, rest, _, rfl⟩ | ⟨c, rest, _, _, hbegin⟩ | ⟨l, es, hwork⟩
  · rw [applyEnv_frame]; exact ho
  · exact begin_filledInOrder hbegin ho
  · rcases hwork.atab with he | he | ⟨_, ⟨he, _⟩ | ⟨i, hne, hfree, he, _⟩⟩ <;> rw [he]
    · exact ho
    · exact filledInOrder_replicate _
    · exact ho
    · exact filledInOrder_set ho hfree hne

end Sys2Proof.Machine
end

section
/-! Which steps transmit, assert the ready signal, or return from `HE_RUN` (rules R278, R283, R310, R318, R431). -/

namespace Sys2Proof.Machine

/-! ## Transmission -/

/-- The cases in which a byte is put on the bus: a node answers an ended frame, a host sends from a send state or from
`WAIT_SYNC`; each ends the call with no frame pending (rules R278, R310). -/
theorem Work.transmits {s u : State} {es : List PortEvent} (h : Work s es u) (ht : transmits es = true) :
    ((s.cfg.role = .node ∧ AtFrame s ∧ framePending s = true) ∨
      (s.phase = .hostArm ∧ s.hs ∈ sendingStates ∧ s.hs ≠ .waitSync ∧ u.ht0 = s.tick) ∨
      (TakesReply s ∧ s.hs = .waitSync ∧ u.ht0 = s.tick)) ∧
    framePending u = false ∧ u.phase = .idle := by
  cases h with
  | resent p hcommand hcomplete =>
    exact ⟨.inl ⟨hcommand.node, .inl hcommand.looping, framePending_eq_true.mpr (.inl hcomplete)⟩, rfl, rfl⟩
  | sent table signals hrole hat hcomplete _ =>
    exact ⟨.inl ⟨hrole, hat, framePending_eq_true.mpr (.inl hcomplete)⟩, rfl, rfl⟩
  | errorSent st events hrole hat hpending _ => exact ⟨.inl ⟨hrole, hat, hpending⟩, rfl, rfl⟩
  | hostSent h addr p hphase hsends hnotSync _ _ =>
    exact ⟨.inr (.inl ⟨hphase, hsends, hnotSync, rfl⟩), rfl, rfl⟩
  | coinTaken sw0 sw1 n addr p hreply hs _ => exact ⟨.inr (.inr ⟨hreply, hs, rfl⟩), rfl, rfl⟩
  | replyInvalid events hevents => rcases hevents with rfl | ⟨op, rfl⟩ <;> cases ht
  | _ => cases ht

/-- A step that transmits is a step of the running call. -/
theorem work_of_transmits {s t : State} (h : step s = .next t) (ht : transmits (gained s t) = true) :
    ∃ l es, Work { s with inputs := l } es t ∧ transmits es = true := by
  obtain ⟨es, htrace, hsilent | ⟨l, hwork⟩⟩ := step_trace h
  · rw [gained_of_trace htrace, hsilent.1] at ht; cases ht
  · exact ⟨l, es, hwork, by rw [gained_of_trace htrace] at ht; exact ht⟩

/-- The invariant ties the phases of the host's engine to its role (rule R2). -/
theorem role_of_hostArm {s : State} (hinv : s.Inv) (hphase : s.phase = .hostArm) : s.cfg.role = .host := by
  obtain ⟨_, _, _, _, _, _, hfits, _⟩ := hinv
  simpa [State.phaseFits, hphase] using hfits

theorem role_of_nodeLoop {s : State} (hinv : s.Inv) {spec : Bool} (hphase : s.phase = .nodeLoop spec) :
    s.cfg.role = .node := by
  obtain ⟨_, _, _, _, _, _, hfits, _⟩ := hinv
  simpa [State.phaseFits, hphase] using hfits

theorem role_of_push {s : State} (hinv : s.Inv) {b : Byte} (hphase : s.phase = .push b) :
    s.cfg.role = .node := by
  obtain ⟨_, _, _, _, _, _, hfits, _⟩ := hinv
  simpa [State.phaseFits, hphase] using hfits

theorem awaited_of_hostReport {s : State} (hinv : s.Inv) (hphase : s.phase = .hostReport) :
    replyAwaited s = true := by
  obtain ⟨_, _, _, _, _, _, hfits, _⟩ := hinv
  simpa [State.phaseFits, hphase] using hfits

/-- Settles O35: in node role the cases that transmit are those of an ended frame. -/
theorem nodeTransmitsOnlyOnAnEndedFrame : Obligations.NodeTransmitsOnlyOnAnEndedFrame := by
  intro s t hinv hrole h ht
  obtain ⟨l, es, hwork, ht'⟩ := work_of_transmits h ht
  obtain ⟨hcase, hclear, hidle⟩ := hwork.transmits ht'
  have hnotHost (hhost : s.cfg.role = .host) : False := by rw [hrole] at hhost; cases hhost
  rcases hcase with ⟨_, hloop | harm, hpending⟩ | ⟨harm, _⟩ | ⟨hreply, _⟩
  · exact ⟨hloop, hpending, hclear, hidle⟩
  · exact (hnotHost (role_of_hostArm hinv harm)).elim
  · exact (hnotHost (role_of_hostArm hinv harm)).elim
  · exact (hnotHost (replyAwaited_eq_true.mp hreply.awaited).1).elim

/-- Settles O51: in host role the cases that transmit are those of a send state and of a sync reply. -/
theorem hostTransmitsOnlyFromSendStates : Obligations.HostTransmitsOnlyFromSendStates := by
  intro s t hinv hrole h ht
  obtain ⟨l, es, hwork, ht'⟩ := work_of_transmits h ht
  obtain ⟨hcase, hclear, hidle⟩ := hwork.transmits ht'
  have hnotNode (hnode : s.cfg.role = .node) : False := by rw [hrole] at hnode; cases hnode
  rcases hcase with ⟨hnode, _⟩ | ⟨_, hsends, hnotSync, hnoted⟩ | ⟨hreply, hs, hnoted⟩
  · exact (hnotNode hnode).elim
  · exact ⟨hsends, fun hs => absurd hs hnotSync, hclear, hidle, hnoted⟩
  · have hcomplete : s.fComplete = true := (replyAwaited_eq_true.mp hreply.awaited).2.2
    have hphase : s.phase = .hostReport :=
      hreply.phase.resolve_right fun ⟨_, hpush⟩ => hnotNode (role_of_push hinv hpush)
    have hs' : s.hs = .waitSync := hs
    exact ⟨by rw [hs']; decide, fun _ => ⟨hphase, hcomplete⟩, hclear, hidle, hnoted⟩

/-! ## The ready signal -/

theorem readyOut_notMem_transmitEvents (p : List Byte) (v : Bool) : PortEvent.readyOut v ∉ transmitEvents p := by
  simp [transmitEvents]

theorem readyOut_notMem_nodeTransmitEvents (s : State) (p : List Byte) (v : Bool) :
    PortEvent.readyOut v ∉ nodeTransmitEvents s p := by
  unfold nodeTransmitEvents
  split_ifs <;> simp [transmitEvents]

/-- The ready signal is asserted by the commit that fills the last slot, and by nothing else (rule R277). -/
theorem Work.readyOut {s u : State} {es : List PortEvent} (h : Work s es u)
    (hr : PortEvent.readyOut true ∈ es) :
    ∃ i, s.newaddr ≠ addrBcast ∧ firstFree s.atab = some i ∧ u.atab = s.atab.set i s.newaddr ∧
      i + 1 = s.cfg.ndev := by
  cases h with
  | sent table signals _ _ _ hcommits =>
    simp only [List.mem_append, readyOut_notMem_nodeTransmitEvents, List.mem_singleton, reduceCtorEq,
      or_false] at hr
    rcases hcommits with ⟨_, rfl⟩ | ⟨i, hne, hfree, htable, rfl⟩
    · cases hr
    · by_cases hlast : i + 1 = s.cfg.ndev
      · exact ⟨i, hne, hfree, htable, hlast⟩
      · rw [if_neg hlast] at hr; cases hr
  | errorSent st events _ _ _ hevents =>
    rcases hevents with rfl | ⟨op, rfl⟩ <;> simp [readyOut_notMem_nodeTransmitEvents] at hr
  | replyInvalid events hevents => rcases hevents with rfl | ⟨op, rfl⟩ <;> simp at hr
  | resent => simp [readyOut_notMem_nodeTransmitEvents] at hr
  | hostSent => simp [readyOut_notMem_transmitEvents] at hr
  | coinTaken => simp [readyOut_notMem_transmitEvents] at hr
  | _ => simp at hr

/-- Filling the last slot of a table leaves none free. -/
theorem notMem_set_of_last {l : List Byte} {i : Nat} {a : Byte} (hi : firstFree l = some i)
    (hlast : i + 1 = l.length) (ha : a ≠ addrBcast) : addrBcast ∉ l.set i a := by
  obtain ⟨_, _, hfirst⟩ := firstFree_eq_some.mp hi
  intro hmem
  obtain ⟨j, hj, hfree⟩ := List.getElem_of_mem hmem
  rw [List.length_set] at hj
  rw [List.getElem_set] at hfree
  split_ifs at hfree
  · exact ha hfree
  · exact hfirst j (by omega) hfree

/-- Settles O34: the one case that asserts the signal fills the last of `NDEV` slots. -/
theorem readyMeansTheTableIsFull : Obligations.ReadyMeansTheTableIsFull := by
  intro s t hinv h hr
  obtain ⟨es, htrace, hsilent | ⟨l, hwork⟩⟩ := step_trace h
  · rw [gained_of_trace htrace] at hr; exact absurd hr hsilent.2
  · rw [gained_of_trace htrace] at hr
    obtain ⟨i, hne, hfree, htable, hlast⟩ := hwork.readyOut hr
    obtain ⟨hi, hslot, _⟩ := firstFree_eq_some.mp hfree
    obtain ⟨_, _, _, ⟨hnode, hhost⟩, _⟩ := hinv
    have hlength : s.atab.length = s.cfg.ndev := by
      cases hrole : s.cfg.role with
      | node => exact (hnode hrole).1
      | host =>
        have htab : s.atab = [addrHost] := hhost hrole
        have hfree' : firstFree s.atab = some i := hfree
        rw [htab] at hfree'
        exact absurd hfree' (by simp [firstFree, List.findIdx?_cons, addrHost, addrBcast])
    refine ⟨List.mem_of_getElem hslot, ?_⟩
    rw [htable]
    exact notMem_set_of_last hfree (hlast.trans hlength.symm) hne

/-! ## The return of `HE_RUN` -/

/-- A step of `HE_RUN` that ends the call ends the trace with whether its state is a session state (rule R318). -/
theorem Work.returned {s u : State} {es : List PortEvent} (h : Work s es u) (hrole : s.cfg.role = .host)
    (hphase : s.phase = .receive .heRun ∨ s.phase = .hostArm ∨ s.phase = .hostReport)
    (hidle : u.phase = .idle) : ∃ pre, u.trace = pre ++ [.returned (.bool u.hs.isSession)] := by
  have hnotNode (hnode : s.cfg.role = .node) : False := by rw [hrole] at hnode; cases hnode
  cases h with
  | idle h => rw [h] at hphase; simp at hphase
  | received h =>
    rename_i r _
    cases r <;> cases hidle
  | frameEnded h =>
    rw [frameEnd_frame] at hidle
    exact absurd (h.symm.trans hidle) (by simp)
  | byteTaken h =>
    rw [takeByte_frame] at hidle
    exact absurd (h.symm.trans hidle) (by simp)
  | waited r h => obtain ⟨spec, h⟩ := h; rw [h] at hphase; simp at hphase
  | surfaced r hcommand => exact (hnotNode hcommand.node).elim
  | answeredOk hcommand => exact (hnotNode hcommand.node).elim
  | answeredByte b hcommand => exact (hnotNode hcommand.node).elim
  | staged addr hcommand => exact (hnotNode hcommand.node).elim
  | reset r hcommand => exact (hnotNode hcommand.node).elim
  | abandoned hcommand => exact (hnotNode hcommand.node).elim
  | switched m hcommand => exact (hnotNode hcommand.node).elim
  | speedRefused m hcommand => exact (hnotNode hcommand.node).elim
  | resent p hcommand => exact (hnotNode hcommand.node).elim
  | sent table signals hnode => exact (hnotNode hnode).elim
  | errorSent st events hnode => exact (hnotNode hnode).elim
  | pushed b h =>
    rcases h with ⟨c, h⟩ | ⟨_, hnode⟩
    · rw [h] at hphase; simp at hphase
    · exact (hnotNode hnode).elim
  | hostStayed => exact ⟨_, rfl⟩
  | hostMoved => exact ⟨_, rfl⟩
  | hostSent => exact ⟨_, (List.append_assoc _ _ _).symm⟩
  | disconnected => exact ⟨_, rfl⟩
  | replyOk => cases hidle
  | replyInvalid => exact ⟨_, (List.append_assoc _ _ _).symm⟩
  | addressed => exact ⟨_, rfl⟩
  | reported => exact ⟨_, List.append_cons _ _ _⟩
  | featuresTaken => exact ⟨_, List.append_cons _ _ _⟩
  | coinTaken => exact ⟨_, (List.append_assoc _ _ _).symm⟩
  | cycleContinued => exact ⟨_, rfl⟩
  | cycleEnded => exact ⟨_, List.append_cons _ _ _⟩

/-- A step that ends a running call is a step of that call. -/
theorem work_of_ends {s t : State} (h : step s = .next t) (hrunning : s.phase ≠ .idle)
    (hidle : t.phase = .idle) : ∃ l es, Work { s with inputs := l } es t := by
  rcases step_effect h with ⟨e, rest, _, rfl⟩ | ⟨_, _, _, hstart, _⟩ | hwork
  · rw [applyEnv_frame] at hidle; exact absurd hidle hrunning
  · exact absurd hstart hrunning
  · exact hwork

/-- Settles O50: `HE_RUN` ends at its beginning when presence is lost, else in a case of `Work.returned`. -/
theorem runReturnsSessionReady : Obligations.RunReturnsSessionReady := by
  intro s t hrole hphase h hidle
  rw [← isSession_eq]
  by_cases hstart : s.phase = .idle
  · obtain ⟨rest, hinputs⟩ : ∃ rest, s.inputs = .call .heRun :: rest := by simpa [hstart] using hphase
    rw [step_call hstart hinputs] at h
    rcases begin_next h with ⟨_, hc, _⟩ | ⟨_, hc, _⟩ | ⟨hc, _⟩ | ⟨hc, _⟩ | ⟨hc, _⟩ |
      ⟨_, _, _, rfl⟩ | ⟨_, _, _, rfl⟩ | ⟨hc, _⟩ | ⟨hc, _⟩
    case inr.inr.inr.inr.inr.inl => cases hidle
    case inr.inr.inr.inr.inr.inr.inl => exact ⟨_, rfl⟩
    all_goals cases hc
  · obtain ⟨l, es, hwork⟩ := work_of_ends h hstart hidle
    refine hwork.returned hrole ?_ hidle
    simpa [hstart] using hphase

end Sys2Proof.Machine
end

section
/-! The invariant: it holds after `INIT`, and every step keeps it (rules R11, R21 to R44, R49). -/

namespace Sys2Proof.Machine

/-! ## After `INIT` -/

/-- A buffer with no ended frame meets what the invariant says of the receive state (rules R21 to R27). -/
theorem rxOk_of_unended {s : State} (hwf : Memory.wf s.rxb = true) (hbelow : Memory.below s.rxb rxCap = true)
    (hrxr : s.rxr ≤ rxCap) (hesc : s.fEsc = true → s.fFraming = true) (hcomplete : s.fComplete = false)
    (hsumerr : s.fSumerr = false) : s.rxOk := by
  have hnotComplete : ¬ s.fComplete = true := by rw [hcomplete]; decide
  have hnotSumerr : ¬ s.fSumerr = true := by rw [hsumerr]; decide
  exact ⟨hwf, hbelow, hrxr, hesc, fun h => hnotComplete h.2, fun h => hnotSumerr h.2,
    fun h => hnotComplete h.1, fun h => absurd h hnotComplete, fun h => absurd h hnotSumerr⟩

theorem tableOk_init (c : Config) : (State.init c).tableOk := by
  refine ⟨fun hrole => ⟨?_, fun hne => absurd rfl hne⟩, fun hrole => ?_⟩
  · have hrole' : c.role = .node := hrole
    show (initTable c).length = c.ndev
    rw [initTable_of_node hrole', List.length_replicate]
  · have hrole' : c.role = .host := hrole
    show initTable c = [addrHost]
    simp only [initTable, hrole']

/-- A machine with no frame, no report and no session meets the invariant. -/
theorem inv_init {c : Config} (hlegal : c.legal = true) : (State.init c).Inv := by
  have hrxr : 2 ≤ rxCap := by decide
  have hfirst : 1 ≤ 254 := by decide
  have hcoin : (0 : Byte).toNat < 16 := by decide
  exact ⟨hlegal, rxOk_of_unended rfl rfl hrxr (fun h => (nomatch h)) rfl rfl, ⟨rfl, rfl, rfl⟩, tableOk_init c,
    ⟨Nat.two_pow_pos _, Nat.two_pow_pos _⟩,
    ⟨Nat.zero_le _, le_refl _, hfirst, Nat.zero_le _, hcoin, fun h => (nomatch h), fun h => (nomatch h)⟩,
    rfl, fun h => (nomatch h)⟩

/-- Settles O53: any legal configuration, and that of reset. -/
theorem invHoldsAfterInit : Obligations.InvHoldsAfterInit :=
  ⟨fun _ => inv_init, inv_init (by decide)⟩

/-! ## The parts of the invariant -/

/-- A cleared frame meets what the invariant says of the receive state (rule R29). -/
theorem rxOk_frameClear {s : State} (h : s.rxOk) : (frameClear s).rxOk := by
  obtain ⟨hwf, hbelow, _⟩ := h
  exact rxOk_of_unended hwf hbelow (by rw [frameClear_rxr]; decide) (fun h => (nomatch h)) rfl rfl

/-- Moving the read cursor within the buffer keeps the receive state (rule R23). -/
theorem rxOk_rxr {s : State} (h : s.rxOk) {n : Nat} (hn : n ≤ rxCap) : State.rxOk { s with rxr := n } := by
  obtain ⟨hwf, hbelow, _, hflags⟩ := h
  exact ⟨hwf, hbelow, hn, hflags⟩

/-- Clearing a frame drops the staged address and keeps the table (rules R29, R35). -/
theorem tableOk_frameClear {s : State} (h : s.tableOk) : (frameClear s).tableOk := by
  obtain ⟨hnode, hhost⟩ := h
  refine ⟨fun hrole => ⟨(hnode hrole).1, fun hne => absurd ?_ hne⟩, hhost⟩
  rw [frameClear_newaddr]
  exact if_pos hrole

/-- In node role a cleared frame goes with any table of `NDEV` slots (rules R29, R34). -/
theorem tableOk_cleared_table {s : State} (hrole : s.cfg.role = .node) (h : s.tableOk) {table : List Byte}
    (hlength : table.length = s.atab.length) : State.tableOk { frameClear s with atab := table } := by
  obtain ⟨hnode, _⟩ := h
  refine ⟨fun _ => ⟨hlength.trans (hnode hrole).1, fun hne => absurd ?_ hne⟩, fun hhost => ?_⟩
  · exact if_pos hrole
  · exact absurd (hrole.symm.trans hhost) (by decide)

theorem length_of_commits {s : State} {table : List Byte} {signals : List PortEvent}
    (h : Commits s table signals) : table.length = s.atab.length := by
  rcases h with ⟨rfl, _⟩ | ⟨i, _, _, rfl, _⟩
  · rfl
  · exact List.length_set

/-- A composed packet with a payload can be kept (rule R32). -/
theorem packetLengthOk_fcPacket (a : Byte) {p : Payload} (hp : 1 ≤ p.bytes.length) :
    packetLengthOk (some (fcPacket a p)) = true := by
  have hbound := p.bound
  simp only [packetLengthOk, length_fcPacket, Bool.and_eq_true, decide_eq_true_eq]
  omega

/-- A push keeps the transmit state (rules R30, R31). -/
theorem txOk_nePush {s : State} (h : s.txOk) (b : Byte) : (nePush b s).txOk := by
  obtain ⟨hwf, hbelow, hlast⟩ := h
  obtain ⟨hwf', hbelow'⟩ := nePush_memory hwf hbelow b
  exact ⟨hwf', hbelow', hlast⟩

/-- With no call running and no frame whose end is due the program position is sound. -/
theorem phaseOk_idle {u : State} (hphase : u.phase = .idle) (hdue : frameEndDue u = false) : u.phaseOk := by
  refine ⟨by rw [State.phaseFits, hphase], fun h => ?_⟩
  rw [hdue] at h; cases h

/-- Outside the receive loop no frame's end is due (rule R220). -/
theorem frameEndDue_of_inv {s : State} (hinv : s.Inv) (hphase : s.receiving = false) :
    frameEndDue s = false := by
  obtain ⟨_, _, _, _, _, _, _, hdue⟩ := hinv
  by_contra h
  rw [Bool.not_eq_false] at h
  rw [(hdue h).1] at hphase
  cases hphase

theorem frameEndDue_of_idle {s : State} (hinv : s.Inv) (hphase : s.phase = .idle) : frameEndDue s = false :=
  frameEndDue_of_inv hinv (by rw [State.receiving, hphase])

theorem frameEndDue_of_nodeLoop {s : State} (hinv : s.Inv) (hphase : ∃ spec, s.phase = .nodeLoop spec) :
    frameEndDue s = false := by
  obtain ⟨spec, hphase⟩ := hphase
  exact frameEndDue_of_inv hinv (by rw [State.receiving, hphase])

theorem frameEndDue_of_hostArm {s : State} (hinv : s.Inv) (hphase : s.phase = .hostArm) :
    frameEndDue s = false :=
  frameEndDue_of_inv hinv (by rw [State.receiving, hphase])

/-- The receiver of a running loop belongs to the role, before and after the loop (rule R2). -/
theorem phaseFits_receive {u : State} {r : Receiver} (hphase : u.phase = .receive r ∨ u.phase = r.after)
    {s : State} (hinv : s.Inv) (hs : s.phase = .receive r) (hcfg : u.cfg = s.cfg) : u.phaseFits = true := by
  obtain ⟨_, _, _, _, _, _, hfits, _⟩ := hinv
  cases r <;> rcases hphase with hu | hu <;> simpa [State.phaseFits, hs, hu, hcfg, Receiver.after] using hfits

/-- The loop of `NE_NEXT` that goes on is sound (rule R252). -/
theorem phaseOk_nodeLoop {s u : State} (hinv : s.Inv) (hphase : ∃ spec, s.phase = .nodeLoop spec)
    (hu : u.phase = s.phase) (hcfg : u.cfg = s.cfg) (hdue : frameEndDue u = frameEndDue s) : u.phaseOk := by
  have hnone := frameEndDue_of_nodeLoop hinv hphase
  obtain ⟨spec, hphase⟩ := hphase
  have hrole := role_of_nodeLoop hinv hphase
  refine ⟨?_, fun h => by rw [hdue, hnone] at h; cases h⟩
  simp [State.phaseFits, hu, hphase, hcfg, hrole]

/-- The read cursor stays within the buffer behind a command (rules R23, R252). -/
theorem AtCommand.rxr_le {s : State} {i : Instr} (h : AtCommand s i) (hlegal : s.cfg.legal = true) :
    s.rxr + (encode i).length ≤ rxCap := by
  obtain ⟨rest, hdecode⟩ := h.decoded
  obtain ⟨_, hlength, _⟩ := encode_of_decodeCommand hlegal hdecode
  have hinside := h.inside
  have hindex : fetchLimit s ≤ checksumIndex s := by
    unfold fetchLimit
    split_ifs
    · exact le_refl _
    · exact Nat.min_le_left _ _
  have hbyte := (rxRead s 1).isLt
  show s.rxr + (encode i).length ≤ 256
  rw [checksumIndex] at hindex
  omega

/-! ## The receive loop -/

/-- While a frame is pending the decoder is not framing (rules R24 to R27). -/
theorem frameEndDue_of_pending {s : State} (hrx : s.rxOk) (hpending : framePending s = true) :
    frameEndDue s = false := by
  obtain ⟨_, _, _, _, hnotComplete, hnotSumerr, _⟩ := hrx
  rw [← Bool.not_eq_true, frameEndDue_eq_true]
  rintro ⟨hframing, _⟩
  rcases framePending_eq_true.mp hpending with hc | hs
  · exact hnotComplete ⟨hframing, hc⟩
  · exact hnotSumerr ⟨hframing, hs⟩

/-- Clearing the frame within the receive loop keeps the invariant. -/
theorem inv_receive_frameClear {s : State} {r : Receiver} (hinv : s.Inv) (hphase : s.phase = .receive r) :
    (frameClear s).Inv := by
  have hfits := phaseFits_receive (u := frameClear s) (.inl hphase) hinv hphase rfl
  obtain ⟨hlegal, hrx, htx, htab, htime, hsess, _⟩ := hinv
  exact ⟨hlegal, rxOk_frameClear hrx, htx, tableOk_frameClear htab, htime, hsess, hfits, fun h => (nomatch h)⟩

/-- The end of a frame keeps the invariant: a verified frame has its count and its checksum (rules R220 to R227). -/
theorem inv_frameEnd {s : State} {r : Receiver} (hinv : s.Inv) (hphase : s.phase = .receive r)
    (hpending : framePending s = false) (hdue : frameEndDue s = true) (a : Byte) : (frameEnd a s).Inv := by
  have hclear := inv_receive_frameClear hinv hphase
  have hfits (u : State) (hu : u.phase = s.phase) (hcfg : u.cfg = s.cfg) : u.phaseFits = true :=
    phaseFits_receive (.inl (hu.trans hphase)) hinv hphase hcfg
  obtain ⟨hlegal, ⟨hwf, hbelow, hrxr, _, _, _, _, _⟩, htx, htab, htime, hsess, _, hended⟩ := hinv
  obtain ⟨_, htwo, hcount⟩ := frameEndDue_eq_true.mp hdue
  obtain ⟨_, hesc⟩ := hended hdue
  simp only [framePending, Bool.or_eq_false_iff] at hpending
  obtain ⟨hcomplete, hsumerr⟩ := hpending
  have hnotEsc (h : s.fEsc = true) : False := by rw [hesc] at h; cases h
  have hnotComplete (h : s.fComplete = true) : False := by rw [hcomplete] at h; cases h
  have hnotSumerr (h : s.fSumerr = true) : False := by rw [hsumerr] at h; cases h
  rcases frameEnd_cases a s with ⟨_, he⟩ | ⟨_, hsum, he⟩ | ⟨_, _, _, he⟩ | ⟨_, _, hrole, _, he⟩ <;> rw [he]
  · exact hclear
  · refine ⟨hlegal, ⟨hwf, hbelow, hrxr, ?_, fun h => (nomatch h.1), fun h => (nomatch h.1), ?_,
      fun _ => ⟨htwo, hcount, hsum⟩, ?_⟩, htx, htab, htime, hsess, hfits _ rfl rfl, fun h => (nomatch h)⟩
    · exact fun h => (hnotEsc h).elim
    · exact fun h => (hnotSumerr h.2).elim
    · exact fun h => (hnotSumerr h).elim
  · exact hclear
  · refine ⟨hlegal, ⟨hwf, hbelow, hrxr, ?_, fun h => (nomatch h.1), fun h => (nomatch h.1), ?_, ?_,
      fun _ => hrole⟩, htx, htab, htime, hsess, hfits _ rfl rfl, fun h => (nomatch h)⟩
    · exact fun h => (hnotEsc h).elim
    · exact fun h => (hnotComplete h.1).elim
    · exact fun h => (hnotComplete h).elim

/-- Taking a byte keeps the invariant (rules R213 to R218). -/
theorem inv_takeByte {s : State} {r : Receiver} (hinv : s.Inv) (hphase : s.phase = .receive r)
    (hpending : framePending s = false) (hdue : frameEndDue s = false) (b : Byte) : (takeByte b s).Inv := by
  have hclear := inv_receive_frameClear hinv hphase
  have hfits (u : State) (hu : u.phase = s.phase) (hcfg : u.cfg = s.cfg) : u.phaseFits = true :=
    phaseFits_receive (.inl (hu.trans hphase)) hinv hphase hcfg
  have hkeep := hinv
  obtain ⟨hlegal, ⟨hwf, hbelow, hrxr, _, _, _, _, _⟩, htx, htab, htime, hsess, _, _⟩ := hinv
  simp only [framePending, Bool.or_eq_false_iff] at hpending
  obtain ⟨hcomplete, hsumerr⟩ := hpending
  unfold takeByte
  split_ifs
  · obtain ⟨_, ⟨_, _, hrxr', _⟩, _, htab', _⟩ := hclear
    refine ⟨hlegal, rxOk_of_unended hwf hbelow hrxr' (fun _ => rfl) rfl rfl, htx, htab', htime, hsess,
      hfits _ rfl rfl, fun h => ?_⟩
    obtain ⟨_, htwo, _⟩ := frameEndDue_eq_true.mp h
    exact absurd htwo (by rw [takeSync_rxw]; decide)
  · unfold takeMark
    split_ifs with hframing
    · exact ⟨hlegal, rxOk_of_unended hwf hbelow hrxr (fun _ => hframing) hcomplete hsumerr, htx, htab, htime,
        hsess, hfits _ rfl rfl, fun h => absurd (hdue.symm.trans h) (by decide)⟩
    · exact hkeep
  · rcases takePlain_cases b s with ⟨_, he⟩ | ⟨_, _, he⟩ | ⟨hroom, _, he⟩ <;> rw [he]
    · exact hkeep
    · exact hclear
    · have hreceiving : s.receiving = true := by rw [State.receiving, hphase]
      exact ⟨hlegal, rxOk_of_unended (Memory.wf_write hwf _ _) (Memory.below_write hbelow hroom _) hrxr
        (fun h => (nomatch h)) hcomplete hsumerr, htx, htab, htime, hsess, hfits _ rfl rfl,
        fun _ => ⟨hreceiving, rfl⟩⟩

/-! ## The running call -/

/-- A call that ends with the frame cleared: what is left to show is what the case changes. -/
theorem inv_ended_cleared {s u : State} (hinv : s.Inv) (hcfg : u.cfg = s.cfg) (hrx : (frameClear s).rxOk → u.rxOk)
    (htx : s.txOk → u.txOk) (htab : (frameClear s).tableOk → u.tableOk) (htime : s.timeOk → u.timeOk)
    (hsess : s.sessionOk → u.sessionOk) (hphase : u.phase = .idle) (hframing : u.fFraming = false) : u.Inv := by
  obtain ⟨hlegal, hrx', htx', htab', htime', hsess', _⟩ := hinv
  refine ⟨hcfg ▸ hlegal, hrx (rxOk_frameClear hrx'), htx htx', htab (tableOk_frameClear htab'), htime htime',
    hsess hsess', phaseOk_idle hphase ?_⟩
  rw [← Bool.not_eq_true, frameEndDue_eq_true, hframing]
  rintro ⟨h, _⟩
  cases h

/-- A coin flag of one of the four slots (rule R44). -/
theorem coinFlag_lt {coins : Byte} (h : coins.toNat < 16) {n : Nat} (hn : n < 4) :
    (coins ||| BitVec.ofNat 8 (2 ^ n)).toNat < 16 := by
  have hflag : (BitVec.ofNat 8 (2 ^ n)).toNat < 2 ^ 4 := by interval_cases n <;> decide
  rw [BitVec.toNat_or]
  exact Nat.or_lt_two_pow h hflag

/-- A change of the host's state to one outside the polling cycle keeps the session (rules R326, R358). -/
theorem sessionOk_moved {s : State} (hsess : s.sessionOk) {h : HostState} (hh : h ≠ .addressWait)
    (hcycle : h.inCycle = false) : State.sessionOk { s with hs := h } := by
  obtain ⟨hdev, hone, hmax, htotal, hcoin, _, _⟩ := hsess
  exact ⟨hdev, hone, hmax, htotal, hcoin, fun hs => absurd hs hh,
    fun hs => absurd (hcycle.symm.trans hs) (by decide)⟩

/-- A disconnected host has no session (rule R316). -/
theorem sessionOk_disconnected (s : State) : (heDisconnect s).sessionOk := by
  have hfirst : 1 ≤ 254 := by decide
  have hcoin : (0 : Byte).toNat < 16 := by decide
  exact ⟨Nat.zero_le _, le_refl _, hfirst, Nat.zero_le _, hcoin, fun h => (nomatch h), fun h => (nomatch h)⟩

/-- Every case of a step of the running call keeps the invariant. -/
theorem Work.inv {s u : State} {es : List PortEvent} (hinv : s.Inv) (h : Work s es u) : u.Inv := by
  have hkeep := hinv
  obtain ⟨hlegal, hrx, htx, htab, htime, hsess, hfits, hended⟩ := hinv
  cases h with
  | idle => exact hkeep
  | received hphase hend =>
    have hdue : frameEndDue s = false := hend.elim (frameEndDue_of_pending hrx) fun h => h.1
    exact ⟨hlegal, hrx, htx, htab, htime, hsess, phaseFits_receive (.inr rfl) hkeep hphase rfl,
      fun h => absurd (hdue.symm.trans h) (by decide)⟩
  | frameEnded hphase hpending hdue => exact inv_frameEnd hkeep hphase hpending hdue _
  | byteTaken hphase hpending hdue =>
    rename_i b rest _
    exact inv_takeByte (s := { s with chanRx := rest }) hkeep hphase hpending hdue b
  | waited r hphase =>
    have hdue := frameEndDue_of_nodeLoop hkeep hphase
    exact ⟨hlegal, hrx, htx, htab, htime, hsess, phaseOk_idle rfl hdue⟩
  | surfaced r hcommand =>
    have hdue := frameEndDue_of_nodeLoop hkeep hcommand.looping
    exact ⟨hlegal, rxOk_rxr hrx (hcommand.rxr_le hlegal), htx, htab, htime, hsess, phaseOk_idle rfl hdue⟩
  | answeredOk hcommand =>
    exact ⟨hlegal, rxOk_rxr hrx (hcommand.rxr_le hlegal), txOk_nePush htx _, htab, htime, hsess,
      phaseOk_nodeLoop hkeep hcommand.looping rfl rfl rfl⟩
  | answeredByte b hcommand =>
    exact ⟨hlegal, rxOk_rxr hrx (hcommand.rxr_le hlegal), txOk_nePush (txOk_nePush htx _) _, htab, htime,
      hsess, phaseOk_nodeLoop hkeep hcommand.looping rfl rfl rfl⟩
  | staged addr hcommand hfree =>
    obtain ⟨hnode, hhost⟩ := htab
    exact ⟨hlegal, rxOk_rxr hrx (hcommand.rxr_le hlegal), txOk_nePush (s := { s with newaddr := addr }) htx _,
      ⟨fun hrole => ⟨(hnode hrole).1, fun _ => hfree⟩, hhost⟩, htime, hsess,
      phaseOk_nodeLoop hkeep hcommand.looping rfl rfl rfl⟩
  | reset r hcommand =>
    exact inv_ended_cleared hkeep rfl id id
      (fun _ => tableOk_cleared_table hcommand.node htab List.length_replicate) id id rfl rfl
  | abandoned | switched | speedRefused | resent => exact inv_ended_cleared hkeep rfl id id id id id rfl rfl
  | sent table signals hrole _ _ hcommits =>
    have hpacket : packetLengthOk (some (statusPacket s)) = true :=
      packetLengthOk_fcPacket _ (Nat.le_add_left 1 _)
    exact inv_ended_cleared hkeep rfl id (fun ⟨hwf, hbelow, _⟩ => ⟨hwf, hbelow, hpacket⟩)
      (fun _ => tableOk_cleared_table hrole htab (length_of_commits hcommits)) id id rfl rfl
  | errorSent st =>
    have hpacket : packetLengthOk (some (errorPacket st)) = true := packetLengthOk_fcPacket _ (le_refl 1)
    exact inv_ended_cleared hkeep rfl id (fun ⟨hwf, hbelow, _⟩ => ⟨hwf, hbelow, hpacket⟩) id id id rfl rfl
  | pushed b hphase =>
    have hdue : frameEndDue s = false := by
      rcases hphase with ⟨c, hphase⟩ | ⟨hphase, _⟩ <;>
        exact frameEndDue_of_inv hkeep (by rw [State.receiving, hphase])
    exact ⟨hlegal, hrx, txOk_nePush htx b, htab, htime, hsess, phaseOk_idle rfl hdue⟩
  | hostStayed hphase =>
    have hdue := frameEndDue_of_hostArm hkeep hphase
    exact ⟨hlegal, hrx, htx, htab, htime, hsess, phaseOk_idle rfl hdue⟩
  | hostMoved h t0 target hphase hh hcycle ht0 htarget =>
    have hdue := frameEndDue_of_hostArm hkeep hphase
    obtain ⟨htick, hht0⟩ := htime
    have ht0' : t0 < 2 ^ s.cfg.tickBits := by rcases ht0 with rfl | rfl <;> assumption
    obtain ⟨hdev, hone, hmax, htotal, hcoin, hwait, hcyc⟩ := sessionOk_moved hsess hh hcycle
    have hone' : 1 ≤ target := by rcases htarget with rfl | rfl <;> first | exact hone | exact le_refl 1
    have hmax' : target ≤ 254 := by rcases htarget with rfl | rfl <;> first | exact hmax | decide
    exact ⟨hlegal, hrx, htx, htab, ⟨htick, ht0'⟩,
      ⟨hdev, hone', hmax', htotal, hcoin, hwait, fun hs => absurd (hcycle.symm.trans hs) (by decide)⟩,
      phaseOk_idle rfl hdue⟩
  | hostSent h addr p hphase _ _ haddress hcycle =>
    refine inv_ended_cleared hkeep rfl id id id (fun ⟨htick, _⟩ => ⟨htick, htick⟩) ?_ rfl rfl
    rintro ⟨hdev, hone, hmax, htotal, hcoin, _, hcyc⟩
    refine ⟨hdev, hone, hmax, htotal, hcoin, fun hs => ?_, fun hs => hcyc (hcycle hs)⟩
    have hlast := haddress hs
    show s.hdev ≤ 253
    omega
  | disconnected =>
    exact inv_ended_cleared hkeep rfl id id id id (fun _ => sessionOk_disconnected s) rfl rfl
  | replyOk hawaited hat =>
    have hdue : frameEndDue s = false :=
      hat.elim (frameEndDue_of_nodeLoop hkeep) (frameEndDue_of_hostArm hkeep)
    exact ⟨hlegal, hrx, htx, htab, htime, hsess, hawaited, fun h => absurd (hdue.symm.trans h) (by decide)⟩
  | replyInvalid =>
    exact inv_ended_cleared hkeep rfl id id id id (fun hsess => sessionOk_moved hsess (by decide) rfl) rfl rfl
  | addressed _ hs =>
    refine inv_ended_cleared hkeep rfl id id id (fun ⟨htick, _⟩ => ⟨htick, htick⟩) ?_ rfl rfl
    rintro ⟨hdev, hone, hmax, htotal, hcoin, hwait, _⟩
    exact ⟨Nat.succ_le_succ (hwait hs), hone, hmax, htotal, hcoin, fun h => (nomatch h), fun h => (nomatch h)⟩
  | reported h kind data _ hh hcycle =>
    exact inv_ended_cleared hkeep rfl id id id id (fun hsess => sessionOk_moved hsess hh hcycle) rfl rfl
  | featuresTaken h players buttons coins total target data _ hh hcycle htotal htarget =>
    refine inv_ended_cleared hkeep rfl id id id id ?_ rfl rfl
    rintro ⟨hdev, hone, hmax, htotal', hcoin, _, _⟩
    refine ⟨hdev, ?_, ?_, ?_, hcoin, fun hs => absurd hs hh, fun hs => absurd (hcycle.symm.trans hs) (by decide)⟩
    · show 1 ≤ target
      omega
    · show target ≤ 254
      omega
    · exact htotal.elim (fun h => h ▸ htotal') id
  | coinTaken sw0 sw1 n addr p _ hs hn =>
    refine inv_ended_cleared hkeep rfl id id id (fun ⟨htick, _⟩ => ⟨htick, htick⟩) ?_ rfl rfl
    rintro ⟨hdev, hone, hmax, htotal, hcoin, _, hcyc⟩
    exact ⟨hdev, hone, hmax, htotal, coinFlag_lt hcoin hn, fun h => (nomatch h),
      fun _ => hcyc (by rw [hs]; rfl)⟩
  | cycleContinued sw0 sw1 _ _ hcap =>
    refine inv_ended_cleared hkeep rfl id id id id ?_ rfl rfl
    rintro ⟨hdev, _, _, htotal, hcoin, _, _⟩
    have hmax : s.htgt + 1 ≤ 254 := by omega
    exact ⟨hdev, Nat.le_add_left 1 _, hmax, htotal, hcoin, fun h => (nomatch h), fun _ => hcap⟩
  | cycleEnded =>
    exact inv_ended_cleared hkeep rfl id id id id (fun hsess => sessionOk_moved hsess (by decide) rfl) rfl rfl

/-! ## The environment and the calls -/

theorem inv_applyEnv {s : State} (hinv : s.Inv) (e : EnvEvent) : (applyEnv e s).Inv := by
  cases e with
  | ticks n =>
    obtain ⟨hlegal, hrx, htx, htab, ⟨_, hht0⟩, hsess, hphase⟩ := hinv
    exact ⟨hlegal, hrx, htx, htab, ⟨Nat.mod_lt _ (Nat.two_pow_pos _), hht0⟩, hsess, hphase⟩
  | _ => exact hinv

/-- `INIT` on a running machine meets the invariant, with the clock as it is (rules R420, R421). -/
theorem inv_reinit {s : State} (hinv : s.Inv) : (reinit s).Inv := by
  obtain ⟨hlegal, _, _, _, ⟨htick, _⟩, _, _⟩ := hinv
  obtain ⟨_, hrx, htx, htab, ⟨_, hht0⟩, hsess, hphase⟩ := inv_init hlegal
  exact ⟨hlegal, hrx, htx, htab, ⟨htick, hht0⟩, hsess, hphase⟩

/-- Ending a call that had no receive loop keeps the invariant. -/
theorem inv_finish {s : State} (hinv : s.Inv) (hphase : s.phase = .idle) (r : Result) : (finish r s).Inv := by
  have hdue := frameEndDue_of_idle hinv hphase
  obtain ⟨hlegal, hrx, htx, htab, htime, hsess, _⟩ := hinv
  exact ⟨hlegal, hrx, htx, htab, htime, hsess, phaseOk_idle rfl hdue⟩

/-- The start of a cycle keeps the session (rule R350). -/
theorem inv_heSync {s : State} (hinv : s.Inv) (hphase : s.phase = .idle) : (heSync s).Inv := by
  have hdue := frameEndDue_of_idle hinv hphase
  unfold heSync
  split_ifs
  · obtain ⟨hlegal, hrx, htx, htab, htime, ⟨hdev, _, _, htotal, _, _, _⟩, _⟩ := hinv
    have hfirst : 1 ≤ 254 := by decide
    have hcap : 1 ≤ hostDevCap := by decide
    have hcoin : (0 : Byte).toNat < 16 := by decide
    exact ⟨hlegal, hrx, htx, htab, htime,
      ⟨hdev, le_refl _, hfirst, htotal, hcoin, fun h => (nomatch h), fun _ => hcap⟩, phaseOk_idle hphase hdue⟩
  · exact hinv

/-- The beginning of a call keeps the invariant. -/
theorem inv_begin {c : Call} {s u : State} (hinv : s.Inv) (hphase : s.phase = .idle)
    (h : begin c s = .next u) : u.Inv := by
  have hdue := frameEndDue_of_idle hinv hphase
  have hkeep := hinv
  obtain ⟨hlegal, hrx, htx, htab, htime, hsess, _⟩ := hinv
  rcases begin_next h with ⟨_, _, hrole, rfl⟩ | ⟨_, _, hrole, rfl⟩ | ⟨_, _, rfl⟩ | ⟨_, _, rfl⟩ |
    ⟨_, hrole, rfl⟩ | ⟨_, hrole, _, rfl⟩ | ⟨_, _, _, rfl⟩ | ⟨_, _, rfl⟩ | ⟨_, rfl⟩
  · exact ⟨hlegal, hrx, htx, htab, htime, hsess, decide_eq_true hrole,
      fun h => absurd (hdue.symm.trans h) (by decide)⟩
  · exact ⟨hlegal, hrx, htx, htab, htime, hsess, decide_eq_true hrole,
      fun h => absurd (hdue.symm.trans h) (by decide)⟩
  · exact inv_finish hkeep hphase _
  · exact inv_finish hkeep hphase _
  · exact inv_ended_cleared hkeep rfl id id
      (fun _ => tableOk_cleared_table hrole htab List.length_replicate) id id rfl rfl
  · exact ⟨hlegal, hrx, htx, htab, htime, hsess, decide_eq_true hrole,
      fun h => absurd (hdue.symm.trans h) (by decide)⟩
  · exact inv_ended_cleared hkeep rfl id id id id (fun _ => sessionOk_disconnected s) rfl rfl
  · have hsync := inv_heSync hkeep hphase
    refine inv_finish hsync ?_ _
    unfold heSync
    split_ifs <;> exact hphase
  · exact inv_finish (inv_reinit hkeep) rfl _

/-- Settles O54: the environment, the calls, and every case of a step of the running call. -/
theorem stepKeepsInv : Obligations.StepKeepsInv := by
  intro s t hinv h
  rcases step_effect h with ⟨e, rest, _, rfl⟩ | ⟨c, rest, _, hphase, hbegin⟩ | ⟨l, es, hwork⟩
  · exact inv_applyEnv (s := { s with inputs := rest }) hinv e
  · exact inv_begin (s := { s with inputs := rest }) hinv hphase hbegin
  · exact Work.inv (s := { s with inputs := l }) hinv hwork

end Sys2Proof.Machine
end

section
/-! Which steps proceed, and how many of them a call takes (rules R2, R9, R250, R252, R300, R366, R396). -/

namespace Sys2Proof.Machine

/-! ## What proceeds -/

/-- In node role every instruction has a meaning (rules R2, R366). -/
theorem exec_proceeds_of_node (i : Instr) {s : State} (hrole : s.cfg.role = .node) :
    ∃ u, exec i s = .next u := by
  cases i with
  | sync | mark | addrHost | addrBcast => exact ⟨_, rfl⟩
  | stUnknown | stSumerr | stOverflow => exact ⟨_, byRole_of_node hrole⟩
  | stOk => exact ⟨_, exec_stOk_of_node hrole⟩
  | rpOk =>
    rw [exec_rpOk, execRpOk, byRole_of_node hrole]
    exact ⟨_, rfl⟩
  | _ => exact ⟨_, onNode_of_node hrole⟩

/-- A fetch answers an instruction to run under the same configuration, or a state. -/
def Answers (s : State) (f : Fetched) : Prop :=
  (∃ i t, f = .run i t ∧ t.cfg = s.cfg) ∨ ∃ u, f = .done (.next u)

theorem answers_orIncomplete {s : State} {f : Fetched} (h : Answers s f) : Answers s (orIncomplete s f) := by
  unfold orIncomplete
  split
  · exact h
  · exact .inr ⟨_, rfl⟩

theorem answers_run (i : Instr) (s : State) : Answers s (.run i s) := .inl ⟨i, s, rfl, rfl⟩

theorem answers_fetchCommand (s : State) : Answers s (fetchCommand s) := by
  unfold fetchCommand
  cases decodeCommand s.cfg (fetchBytes s) with
  | ok decoded => exact answers_run _ _
  | error e =>
    cases e with
    | unknownOpcode op => exact answers_orIncomplete (.inl ⟨_, _, rfl, rfl⟩)
    | _ => exact answers_orIncomplete (answers_run _ _)

theorem answers_fetchNode (spec : Bool) (s : State) : Answers s (fetchNode spec s) := by
  unfold fetchNode
  split
  · exact answers_run _ _
  · split
    · exact .inr ⟨_, rfl⟩
    · split_ifs
      · exact answers_orIncomplete (answers_run _ _)
      · exact answers_orIncomplete (answers_run _ _)
      · exact answers_fetchCommand s

/-- Under the invariant the running call proceeds: its engine is that of the role, and a host looks at a report code
only with a reply (rules R2, R9, R366). -/
theorem work_proceeds {s : State} (hinv : s.Inv) : ∃ u, work s = .next u := by
  cases hphase : s.phase with
  | idle => exact ⟨_, work_idle hphase⟩
  | receive r => exact ⟨_, work_receive hphase⟩
  | push b => exact ⟨_, work_push hphase (role_of_push hinv hphase)⟩
  | hostArm => exact ⟨_, work_hostArm hphase (role_of_hostArm hinv hphase)⟩
  | hostReport => exact ⟨_, work_hostReport hphase (awaited_of_hostReport hinv hphase)⟩
  | nodeLoop spec =>
    rcases answers_fetchNode spec s with ⟨i, t, hfetch, hcfg⟩ | ⟨u, hfetch⟩
    · rw [work_run (t := t) ((fetch_nodeLoop hphase).trans hfetch)]
      exact exec_proceeds_of_node i (hcfg ▸ role_of_nodeLoop hinv hphase)
    · exact ⟨u, work_done ((fetch_nodeLoop hphase).trans hfetch)⟩

/-- A call begins in the role that has its engine (rules R2, R396). -/
theorem begin_proceeds (c : Call) (s : State) :
    (∃ u, begin c s = .next u) ∨
    (s.cfg.role = .host ∧ begin c s = .refused .noNodeEngine ∧ c ≠ .heRun ∧ c ≠ .heSync ∧ c ≠ .init) ∨
    (s.cfg.role = .node ∧ begin c s = .refused .noHostEngine ∧ (c = .heRun ∨ c = .heSync)) := by
  cases hrole : s.cfg.role with
  | node =>
    cases c with
    | heRun => exact .inr (.inr ⟨rfl, by simp only [begin, hrole], .inl rfl⟩)
    | heSync => exact .inr (.inr ⟨rfl, by simp only [begin, hrole], .inr rfl⟩)
    | _ => exact .inl ⟨_, by simp only [begin, hrole]; rfl⟩
  | host =>
    cases c with
    | heRun =>
      refine .inl ?_
      simp only [begin, hrole]
      split_ifs <;> exact ⟨_, rfl⟩
    | heSync | init => exact .inl ⟨_, by simp only [begin, hrole]; rfl⟩
    | _ =>
      exact .inr (.inl ⟨rfl, by simp only [begin, hrole], fun h => (nomatch h), fun h => (nomatch h),
        fun h => (nomatch h)⟩)

/-- Settles O55: the environment and the running call proceed; a call begins or its engine is the other role's. -/
theorem onlyForeignCallsAreRefused : Obligations.OnlyForeignCallsAreRefused := by
  intro s hinv
  have hblock {t : State} (hturn : nextTurn s = .block t) : ∃ u, step s = .next u := by
    rw [step_of_block hturn]
    obtain ⟨l, rfl⟩ := nextTurn_block_frame hturn
    exact work_proceeds (s := { s with inputs := l }) hinv
  cases hinputs : s.inputs with
  | nil => exact .inl (hblock (nextTurn_of_inputs_nil hinputs))
  | cons entry rest =>
    cases entry with
    | env e => exact .inl ⟨_, step_env hinputs⟩
    | turn => exact .inl (hblock (nextTurn_block.mpr (.inr (.inl ⟨rest, hinputs, rfl⟩))))
    | call c =>
      by_cases hidle : s.phase = .idle
      · rw [step_call hidle hinputs]
        rcases begin_proceeds c { s with inputs := rest } with hnext | ⟨hrole, hrefused, hc⟩ |
          ⟨hrole, hrefused, hc⟩
        · exact .inl hnext
        · exact .inr (.inl ⟨hrole, hidle, hrefused, c, rest, rfl, hc⟩)
        · exact .inr (.inr ⟨hrole, hidle, hrefused, c, rest, rfl, hc⟩)
      · exact .inl (hblock (nextTurn_block.mpr (.inr (.inr ⟨c, rest, hinputs, hidle, rfl⟩))))

/-! ## How long a call takes -/

/-- A bound on the steps a call has left: two for each byte that waits, one for the end of a frame that is due, one for
each byte of the buffer that the loop of `NE_NEXT` has not read (rules R210, R252, R304). -/
def stepsLeft (s : State) : Nat :=
  match s.phase with
  | .idle => 0
  | .receive _ => 2 * s.chanRx.length + (if frameEndDue s then 1 else 0) + 258
  | .nodeLoop _ => 257 - s.rxr
  | .push _ => 1
  | .hostArm => 2
  | .hostReport => 1

theorem stepsLeft_of_receive {s : State} {r : Receiver} (h : s.phase = .receive r) :
    stepsLeft s = 2 * s.chanRx.length + (if frameEndDue s then 1 else 0) + 258 := by
  simp only [stepsLeft, h]

theorem stepsLeft_of_nodeLoop {s : State} (h : ∃ spec, s.phase = .nodeLoop spec) :
    stepsLeft s = 257 - s.rxr := by
  obtain ⟨spec, h⟩ := h
  simp only [stepsLeft, h]

/-- Behind the receive loop fewer steps are left than in it. -/
theorem stepsLeft_after_le (r : Receiver) (s : State) : stepsLeft { s with phase := r.after } ≤ 257 := by
  cases r with
  | neNext spec => exact Nat.sub_le _ _
  | heRun => exact (by decide : 2 ≤ 257)

theorem stepsLeft_le {s : State} : stepsLeft s ≤ 2 * s.chanRx.length + 300 := by
  unfold stepsLeft
  split
  · omega
  · split_ifs <;> omega
  all_goals omega

theorem rxr_le_of_inv {s : State} (hinv : s.Inv) : s.rxr ≤ 256 := by
  obtain ⟨_, ⟨_, _, hrxr, _⟩, _⟩ := hinv
  exact hrxr

/-- A running call has a step left. -/
theorem stepsLeft_pos {s : State} (hinv : s.Inv) (hrunning : s.phase ≠ .idle) : 0 < stepsLeft s := by
  have hrxr := rxr_le_of_inv hinv
  unfold stepsLeft
  split
  · exact absurd ‹_› hrunning
  all_goals omega

/-- Behind a command the loop of `NE_NEXT` has fewer bytes left (rule R252). -/
theorem stepsLeft_answered {s u : State} {i : Instr} (hinv : s.Inv) (hcommand : AtCommand s i)
    (hphase : u.phase = s.phase) (hrxr : u.rxr = s.rxr + (encode i).length) : stepsLeft u < stepsLeft s := by
  have hlooping := hcommand.looping
  have hfits : s.rxr + (encode i).length ≤ 256 := hcommand.rxr_le hinv.1
  have hpos := List.length_pos_iff.mpr (encode_ne_nil i)
  rw [stepsLeft_of_nodeLoop (hphase ▸ hlooping), stepsLeft_of_nodeLoop hlooping, hrxr]
  omega

/-- The end of a frame is due once (rules R220, R222 to R227). -/
theorem frameEndDue_frameEnd (a : Byte) (s : State) : frameEndDue (frameEnd a s) = false := by
  have hframing : (frameEnd a s).fFraming = false := by
    rcases frameEnd_cases a s with ⟨_, he⟩ | ⟨_, _, he⟩ | ⟨_, _, _, he⟩ | ⟨_, _, _, _, he⟩ <;> rw [he] <;> rfl
  rw [frameEndDue, hframing]
  rfl

/-- Every case of a running call leaves fewer steps. -/
theorem Work.stepsLeft_lt {s u : State} {es : List PortEvent} (hinv : s.Inv) (hrunning : s.phase ≠ .idle)
    (h : Work s es u) : stepsLeft u < stepsLeft s := by
  have hpos := stepsLeft_pos hinv hrunning
  cases h with
  | idle hphase => exact absurd hphase hrunning
  | received hphase =>
    rename_i r _
    have hafter := stepsLeft_after_le r s
    rw [stepsLeft_of_receive hphase]
    omega
  | frameEnded hphase _ hdue =>
    rename_i r _
    have hphase' : (frameEnd (rxRead s 0) s).phase = .receive r := by rw [frameEnd_frame]; exact hphase
    have hchan : (frameEnd (rxRead s 0) s).chanRx = s.chanRx := by rw [frameEnd_frame]
    rw [stepsLeft_of_receive hphase', stepsLeft_of_receive hphase, frameEndDue_frameEnd, hdue, hchan]
    simp
  | byteTaken hphase _ hdue hchan =>
    rename_i r b rest _
    have hphase' : (takeByte b { s with chanRx := rest }).phase = .receive r := by
      rw [takeByte_frame]; exact hphase
    have hchan' : (takeByte b { s with chanRx := rest }).chanRx = rest := by rw [takeByte_frame]
    rw [stepsLeft_of_receive hphase', stepsLeft_of_receive hphase, hchan', hchan, List.length_cons]
    split_ifs <;> omega
  | answeredOk hcommand => exact stepsLeft_answered hinv hcommand rfl rfl
  | answeredByte b hcommand => exact stepsLeft_answered hinv hcommand rfl rfl
  | staged addr hcommand => exact stepsLeft_answered hinv hcommand rfl rfl
  | replyOk hawaited hat =>
    have hrole := (replyAwaited_eq_true.mp hawaited).1
    rcases hat with ⟨spec, hphase⟩ | hphase
    · rw [role_of_nodeLoop hinv hphase] at hrole; cases hrole
    · simp only [stepsLeft, hphase]; decide
  | _ => exact hpos

/-- With nothing happening outside, a call is over within the steps it has left. -/
theorem returns_within (n : Nat) {s : State} (hinv : s.Inv) (hinputs : s.inputs = []) (hn : stepsLeft s ≤ n) :
    ∃ k t, k ≤ n ∧ Sys2Proof.core.run k s = .next t ∧ t.phase = .idle := by
  induction n generalizing s with
  | zero =>
    refine ⟨0, s, le_refl _, rfl, ?_⟩
    by_contra hrunning
    exact absurd (stepsLeft_pos hinv hrunning) (by omega)
  | succ n ih =>
    by_cases hidle : s.phase = .idle
    · exact ⟨0, s, Nat.zero_le _, rfl, hidle⟩
    · obtain ⟨u, hwork⟩ := work_proceeds hinv
      have hstep : step s = .next u := (step_of_block (nextTurn_of_inputs_nil hinputs)).trans hwork
      obtain ⟨es, hcase⟩ := work_effect hwork
      have hless := hcase.stepsLeft_lt hinv hidle
      obtain ⟨k, t, hk, hrun, ht⟩ :=
        ih (stepKeepsInv s u hinv hstep) (hcase.keeps.inputs.trans hinputs) (by omega)
      exact ⟨k + 1, t, Nat.succ_le_succ hk, (run_succ hstep k).trans hrun, ht⟩

/-- Settles O56: the steps left are bounded by the channel's bytes and the buffer's size. -/
theorem everyCallReturns : Obligations.EveryCallReturns :=
  fun _ hinv hinputs => returns_within _ hinv hinputs stepsLeft_le

end Sys2Proof.Machine
end

section
/-! The presence signal is looked at by the beginning of `HE_RUN` and by nothing else (rules R304, R305, R402). -/

namespace Sys2Proof.Machine

/-! ## Blind operations -/

/-- The state with the presence signal changed. -/
def withPresence (v : Bool) (s : State) : State := { s with connectedIn := v }

/-- An outcome with the presence signal changed in the state it ends in. -/
def presenceOut (v : Bool) : Outcome → Outcome
  | .next t => .next (withPresence v t)
  | .fault f => .fault f
  | .refused r => .refused r

/-- What is fetched, with the presence signal changed. -/
def presenceFetched (v : Bool) : Fetched → Fetched
  | .run i t => .run i (withPresence v t)
  | .done o => .done (presenceOut v o)

/-- `f` does not look at the presence signal and leaves it alone: changing it before or after is the same. -/
def Blind {α : Type} (change : Bool → α → α) (f : State → α) : Prop :=
  ∀ v s, f (withPresence v s) = change v (f s)

/-- A condition that does not look at the signal chooses between blind operations. -/
theorem Blind.ite {α : Type} {change : Bool → α → α} {c : State → Prop} [DecidablePred c] {f g : State → α}
    (hc : ∀ v s, c (withPresence v s) = c s) (hf : Blind change f) (hg : Blind change g) :
    Blind change fun s => if c s then f s else g s := by
  intro v s
  by_cases h : c s
  · simp only [if_pos h, if_pos ((hc v s).mpr h), hf v s]
  · simp only [if_neg h, if_neg fun h' => h ((hc v s).mp h'), hg v s]

/-- Blind operations in a row. -/
theorem Blind.comp {α : Type} {change : Bool → α → α} {f : State → α} {g : State → State}
    (hf : Blind change f) (hg : Blind withPresence g) : Blind change fun s => f (g s) := by
  intro v s
  simp only [hg v s, hf v (g s)]

theorem Blind.next {f : State → State} (hf : Blind withPresence f) :
    Blind presenceOut fun s => (.next (f s) : Outcome) := fun v s => congrArg Host.Outcome.next (hf v s)

theorem Blind.done {f : State → State} (hf : Blind withPresence f) :
    Blind presenceFetched fun s => .done (.next (f s)) := fun v s => congrArg Fetched.done (hf.next v s)

/-! ## The decoder -/

theorem blind_takeMark : Blind withPresence takeMark :=
  Blind.ite (fun _ _ => rfl) (fun _ _ => rfl) fun _ _ => rfl

theorem blind_takePlain (b : Byte) : Blind withPresence (takePlain b) := by
  refine Blind.ite (fun _ _ => rfl) (fun _ _ => rfl) fun v s => ?_
  by_cases hroom : s.rxw.val < 256
  · have hroom' : (withPresence v s).rxw.val < 256 := hroom
    rw [dif_pos hroom, dif_pos hroom']
    rfl
  · have hroom' : ¬ (withPresence v s).rxw.val < 256 := hroom
    rw [dif_neg hroom, dif_neg hroom']
    rfl

theorem blind_frameEnd (a : Byte) : Blind withPresence (frameEnd a) := by
  refine Blind.ite (fun _ _ => rfl) (fun _ _ => rfl) (Blind.ite (fun _ _ => rfl) (fun _ _ => rfl) ?_)
  exact Blind.ite (fun _ _ => rfl) (fun _ _ => rfl) fun _ _ => rfl

/-! ## The node -/

theorem blind_whenVerified {f : State → State} (hf : Blind withPresence f) : Blind withPresence (whenVerified f) :=
  Blind.ite (fun _ _ => rfl) hf fun _ _ => rfl

theorem blind_stageAddress (addr : Byte) : Blind withPresence (stageAddress addr) :=
  Blind.ite (fun _ _ => rfl) (fun _ _ => rfl) fun _ _ => rfl

theorem blind_switchSpeed (mode : Byte) : Blind withPresence (switchSpeed mode) := by
  intro v s
  have hspeed : speedOf (withPresence v s) mode = speedOf s mode := rfl
  unfold switchSpeed
  rw [hspeed]
  cases speedOf s mode with
  | none => rfl
  | some m =>
    have hswitch : Blind withPresence fun s =>
        if chanSpeed s m true then emit (.speedCommit m true) { s with commMode := m }
        else emit (.speedCommit m false) s := Blind.ite (fun _ _ => rfl) (fun _ _ => rfl) fun _ _ => rfl
    exact hswitch v s

theorem blind_resendLast : Blind withPresence resendLast := by
  intro v s
  have hlast : (withPresence v s).txlast = s.txlast := rfl
  unfold resendLast
  rw [hlast]
  cases s.txlast <;> rfl

theorem blind_commitAddress : Blind withPresence commitAddress := by
  refine Blind.ite (fun _ _ => rfl) (fun _ _ => rfl) fun v s => ?_
  have htable : (withPresence v s).atab = s.atab := rfl
  rw [htable]
  cases firstFree s.atab <;> rfl

theorem blind_neSendStatus : Blind withPresence neSendStatus := by
  intro v s
  simp only [neSendStatus, blind_commitAddress v s]
  rfl

/-! ## The host -/

theorem blind_waitOn : Blind withPresence waitOn :=
  Blind.ite (fun _ _ => rfl) (fun _ _ => rfl) fun _ _ => rfl

theorem blind_assignAddress : Blind withPresence assignAddress :=
  Blind.ite (fun _ _ => rfl) (fun _ _ => rfl) fun _ _ => rfl

theorem blind_readyCheck : Blind withPresence readyCheck :=
  Blind.ite (fun _ _ => rfl) (fun _ _ => rfl) (Blind.ite (fun _ _ => rfl) (fun _ _ => rfl) fun _ _ => rfl)

theorem blind_hostArm : Blind withPresence hostArm := by
  intro v s
  have hstate : (withPresence v s).hs = s.hs := rfl
  unfold hostArm
  rw [hstate]
  cases s.hs with
  | addressWait | waitIoid | waitCmdrev | waitJvrev | waitProtover | waitFeatchk | waitSync | waitCoinSync =>
    exact blind_waitOn v s
  | connected =>
    have hsettle : Blind withPresence fun s =>
        if s.cfg.tSettle ≤ sinceHt0 s then goHost .reset1 s else finishHost s :=
      Blind.ite (fun _ _ => rfl) (fun _ _ => rfl) fun _ _ => rfl
    exact hsettle v s
  | address => exact blind_assignAddress v s
  | readyCheck => exact blind_readyCheck v s
  | _ => rfl

theorem blind_advanceTarget : Blind withPresence advanceTarget :=
  Blind.ite (fun _ _ => rfl) (fun _ _ => rfl) fun _ _ => rfl

theorem blind_cacheFeatures (players buttons coins : Byte) :
    Blind withPresence (cacheFeatures players buttons coins) :=
  Blind.ite (fun _ _ => rfl) (fun _ _ => rfl) fun _ _ => rfl

theorem blind_afterFeatures : Blind withPresence afterFeatures :=
  Blind.ite (fun _ _ => rfl) (fun _ _ => rfl) fun _ _ => rfl

theorem blind_coinStep (p : List Byte) (q nc base : Nat) : Blind withPresence (coinStep p q nc base) := by
  intro v s
  unfold coinStep
  cases coinSlot p q nc base with
  | none => exact blind_advanceTarget v s
  | some slot => rfl

theorem blind_takeSyncReply (p : List Byte) : Blind withPresence (takeSyncReply p) := fun v s =>
  blind_coinStep p (secondReportIndex s) (targetCoinSlots s) (playersBefore s) v (withSwitches p s)

/-- What a wait state accepts, with the presence signal changed. -/
def presenceAccepted (v : Bool) : Option State → Option State := Option.map (withPresence v)

theorem Blind.accept {c : State → Prop} [DecidablePred c] {f : State → State}
    (hc : ∀ v s, c (withPresence v s) = c s) (hf : Blind withPresence f) :
    Blind presenceAccepted fun s => if c s then some (f s) else none :=
  Blind.ite hc (fun v s => congrArg some (hf v s)) fun _ _ => rfl

theorem blind_takeRevision (p : List Byte) (kind : CapKind) (h : HostState) :
    Blind presenceAccepted (takeRevision p kind h) :=
  Blind.accept (fun _ _ => rfl) fun _ _ => rfl

theorem blind_takeFeatures (p : List Byte) (players buttons coins : Byte) :
    Blind withPresence fun s => afterFeatures
      (emit (.evCapability s.htgt .featchk (p.drop 2)) (cacheFeatures players buttons coins s)) := by
  intro v s
  beta_reduce
  rw [blind_cacheFeatures players buttons coins v s]
  exact blind_afterFeatures v
    (emit (.evCapability s.htgt .featchk (p.drop 2)) (cacheFeatures players buttons coins s))

theorem blind_acceptReply (p : List Byte) : Blind presenceAccepted (acceptReply p) := by
  intro v s
  have hstate : (withPresence v s).hs = s.hs := rfl
  unfold acceptReply
  rw [hstate]
  cases s.hs with
  | addressWait =>
    exact Blind.accept (c := fun _ => p = [codeOk, reportOk])
      (f := fun s => { s with hdev := s.hdev + 1, ht0 := s.tick, hs := .readyCheck })
      (fun _ _ => rfl) (fun _ _ => rfl) v s
  | waitCmdrev => exact blind_takeRevision p .cmdrev .reqJvrev v s
  | waitJvrev => exact blind_takeRevision p .jvrev .reqProtover v s
  | waitProtover => exact blind_takeRevision p .protover .reqFeatchk v s
  | waitFeatchk =>
    cases parseFeatures p with
    | none => rfl
    | some counts =>
      obtain ⟨players, buttons, coins⟩ := counts
      exact congrArg some (blind_takeFeatures p players buttons coins v s)
  | waitSync =>
    exact Blind.accept (c := fun s => syncReplyOk p s = true) (fun _ _ => rfl) (blind_takeSyncReply p) v s
  | waitCoinSync =>
    exact Blind.accept (c := fun _ => p = [codeOk, reportOk]) (fun _ _ => rfl) blind_advanceTarget v s
  | _ => rfl

theorem blind_takeReply : Blind withPresence takeReply := by
  intro v s
  have haccept : acceptReply (replyPayload (withPresence v s)) (frameClear (withPresence v s)) =
      presenceAccepted v (acceptReply (replyPayload s) (frameClear s)) :=
    blind_acceptReply (replyPayload s) v (frameClear s)
  unfold takeReply
  rw [haccept]
  cases acceptReply (replyPayload s) (frameClear s) <;> rfl

/-! ## The meanings -/

theorem blind_onNode {f : State → State} (hf : Blind withPresence f) : Blind presenceOut (onNode f) := by
  intro v s
  have hcfg : (withPresence v s).cfg = s.cfg := rfl
  unfold onNode
  rw [hcfg]
  cases s.cfg.role with
  | node => exact hf.next v s
  | host => rfl

theorem blind_byRole {f g : State → State} (hf : Blind withPresence f) (hg : Blind withPresence g) :
    Blind presenceOut (byRole f g) := by
  intro v s
  have hcfg : (withPresence v s).cfg = s.cfg := rfl
  have hawaited : replyAwaited (withPresence v s) = replyAwaited s := rfl
  unfold byRole
  rw [hcfg, hawaited]
  cases s.cfg.role with
  | node => exact hf.next v s
  | host =>
    cases replyAwaited s with
    | true => exact hg.next v s
    | false => rfl

theorem blind_exec (i : Instr) : Blind presenceOut (exec i) := by
  cases i with
  | sync => exact Blind.next (f := fun s => takeSync { s with chanRx := s.chanRx.tail }) fun _ _ => rfl
  | mark => exact (blind_takeMark.comp (g := fun s => { s with chanRx := s.chanRx.tail }) fun _ _ => rfl).next
  | addrHost => exact (blind_frameEnd addrHost).next
  | addrBcast => exact (blind_frameEnd addrBcast).next
  | stOk =>
    refine blind_byRole (fun v s => ?_) fun _ _ => rfl
    rw [blind_neSendStatus v s]
    rfl
  | stUnknown | stSumerr | stOverflow => exact blind_byRole (fun _ _ => rfl) fun _ _ => rfl
  | rpOk => exact blind_byRole (fun _ _ => rfl) blind_takeReply
  | reset => exact blind_onNode (blind_whenVerified fun _ _ => rfl)
  | setaddr addr => exact blind_onNode (blind_whenVerified (blind_stageAddress addr))
  | commchg mode =>
    refine blind_onNode (blind_whenVerified fun v s => ?_)
    rw [blind_switchSpeed mode v s]
    rfl
  | retry =>
    refine blind_onNode (blind_whenVerified fun v s => ?_)
    rw [blind_resendLast v s]
    rfl
  | cmdrev => exact blind_onNode (f := fun s => answerByte .cmdrev s.cfg.cmdRev s) fun _ _ => rfl
  | jvsrev => exact blind_onNode (f := fun s => answerByte .jvsrev s.cfg.jvRev s) fun _ _ => rfl
  | commver => exact blind_onNode (f := fun s => answerByte .commver (protocolVersion s) s) fun _ _ => rfl
  | commsup => exact blind_onNode (f := fun s => answerByte .commsup s.cfg.speedMask s) fun _ _ => rfl
  | _ => exact blind_onNode fun _ _ => rfl

/-! ## Fetching -/

theorem blind_fetchReceive (r : Receiver) : Blind presenceFetched (fetchReceive r) := by
  refine Blind.ite (fun _ _ => rfl) (Blind.done fun _ _ => rfl) (Blind.ite (fun _ _ => rfl) ?_ ?_)
  · intro v s
    have hbyte : rxRead (withPresence v s) 0 = rxRead s 0 := rfl
    beta_reduce
    rw [hbyte]
    cases decodeAddress (rxRead s 0) with
    | none => exact (blind_frameEnd (rxRead s 0)).done v s
    | some i => rfl
  · intro v s
    have hchan : (withPresence v s).chanRx = s.chanRx := rfl
    beta_reduce
    rw [hchan]
    cases s.chanRx with
    | nil => rfl
    | cons b rest =>
      dsimp only
      cases decodeWire b with
      | none => exact (blind_takePlain b).done v { s with chanRx := rest }
      | some i => rfl

theorem blind_orIncomplete {f : State → Fetched} (hf : Blind presenceFetched f) :
    Blind presenceFetched fun s => orIncomplete s (f s) :=
  Blind.ite (fun _ _ => rfl) hf (Blind.done fun _ _ => rfl)

theorem blind_fetchCommand : Blind presenceFetched fetchCommand := by
  intro v s
  have hdecode : decodeCommand (withPresence v s).cfg (fetchBytes (withPresence v s)) =
      decodeCommand s.cfg (fetchBytes s) := rfl
  unfold fetchCommand
  rw [hdecode]
  cases decodeCommand s.cfg (fetchBytes s) with
  | ok decoded => rfl
  | error e =>
    cases e with
    | unknownOpcode op =>
      exact blind_orIncomplete (f := fun s => .run .stUnknown (emit (.evUnknownOpcode op) s)) (fun _ _ => rfl) v s
    | _ => exact blind_orIncomplete (f := fun s => .run .stUnknown s) (fun _ _ => rfl) v s

theorem blind_fetchNode (spec : Bool) : Blind presenceFetched (fetchNode spec) := by
  refine Blind.ite (fun _ _ => rfl) (fun _ _ => rfl) fun v s => ?_
  have hwaits : unverifiedResult spec (withPresence v s) = unverifiedResult spec s := rfl
  rw [hwaits]
  cases unverifiedResult spec s with
  | some r => rfl
  | none =>
    have hloop : Blind presenceFetched fun s =>
        if s.fTxovf then orIncomplete s (.run .stOverflow s)
        else if fetchLimit s ≤ s.rxr then orIncomplete s (.run .stOk s)
        else fetchCommand s :=
      Blind.ite (fun _ _ => rfl) (blind_orIncomplete fun _ _ => rfl)
        (Blind.ite (fun _ _ => rfl) (blind_orIncomplete fun _ _ => rfl) blind_fetchCommand)
    exact hloop v s

theorem blind_fetchPush (b : Byte) : Blind presenceFetched (fetchPush b) := by
  intro v s
  unfold fetchPush
  cases decodeReport b <;> rfl

theorem blind_fetchReport : Blind presenceFetched fetchReport := by
  intro v s
  have hpayload : replyPayload (withPresence v s) = replyPayload s := rfl
  unfold fetchReport
  rw [hpayload]
  cases decodeReport (payAt (replyPayload s) 1) <;> rfl

theorem blind_fetchHost : Blind presenceFetched fetchHost := by
  refine Blind.ite (fun _ _ => rfl) (Blind.ite (fun _ _ => rfl) (fun v s => ?_) fun _ _ => rfl)
    blind_hostArm.done
  have hpayload : replyPayload (withPresence v s) = replyPayload s := rfl
  rw [hpayload]
  cases decodeStatus (payAt (replyPayload s) 0) <;> rfl

theorem blind_fetch : Blind presenceFetched fetch := by
  intro v s
  have hphase : (withPresence v s).phase = s.phase := rfl
  unfold fetch
  rw [hphase]
  cases s.phase with
  | idle => rfl
  | receive r => exact blind_fetchReceive r v s
  | nodeLoop spec => exact blind_fetchNode spec v s
  | push b => exact blind_fetchPush b v s
  | hostArm => exact blind_fetchHost v s
  | hostReport => exact blind_fetchReport v s

/-! ## A step -/

/-- A running call does not look at the presence signal (rule R305). -/
theorem blind_work : Blind presenceOut work := by
  intro v s
  unfold work
  rw [blind_fetch v s]
  cases fetch s with
  | run i t => exact blind_exec i v t
  | done o => rfl

theorem blind_heSync : Blind withPresence heSync :=
  Blind.ite (fun _ _ => rfl) (fun _ _ => rfl) fun _ _ => rfl

theorem blind_linkLost : Blind withPresence (raise .linkLost) := by
  intro v s
  have hcfg : (withPresence v s).cfg = s.cfg := rfl
  simp only [raise, hcfg]
  cases s.cfg.role <;> rfl

/-- Of the calls only `HE_RUN` looks at the presence signal (rules R304, R305). -/
theorem begin_withPresence {c : Call} {s : State} (v : Bool) (hc : ¬ (s.cfg.role = .host ∧ c = .heRun)) :
    begin c (withPresence v s) = presenceOut v (begin c s) := by
  have hcfg : (withPresence v s).cfg = s.cfg := rfl
  cases hrole : s.cfg.role with
  | node =>
    simp only [begin, hcfg, hrole]
    cases c with
    | neLinkLost =>
      dsimp only
      rw [blind_linkLost v s]
      rfl
    | _ => rfl
  | host =>
    simp only [begin, hcfg, hrole]
    cases c with
    | heRun => exact absurd ⟨hrole, rfl⟩ hc
    | heSync =>
      dsimp only
      rw [blind_heSync v s]
      rfl
    | _ => rfl

/-- The environment's events but the one that sets the signal leave it alone (rule R402). -/
theorem applyEnv_withPresence {e : EnvEvent} (v : Bool) (s : State) (he : ∀ w, e ≠ .connected w) :
    applyEnv e (withPresence v s) = withPresence v (applyEnv e s) := by
  cases e with
  | connected w => exact absurd rfl (he w)
  | _ => rfl

/-- But for the beginning of `HE_RUN` and the signal itself, no step looks at the presence signal (rule R305). -/
theorem step_withPresence {s : State} (v : Bool)
    (hrun : ∀ rest, ¬(s.phase = .idle ∧ s.cfg.role = .host ∧ s.inputs = .call .heRun :: rest))
    (hsignal : ∀ w rest, s.inputs ≠ .env (.connected w) :: rest) :
    step (withPresence v s) = presenceOut v (step s) := by
  have hblock {t : State} (hturn : nextTurn s = .block t)
      (hturn' : nextTurn (withPresence v s) = .block (withPresence v t)) :
      step (withPresence v s) = presenceOut v (step s) := by
    rw [step_of_block hturn, step_of_block hturn', blind_work v t]
  cases hinputs : s.inputs with
  | nil => exact hblock (nextTurn_of_inputs_nil hinputs) (nextTurn_of_inputs_nil hinputs)
  | cons entry rest =>
    cases entry with
    | env e =>
      rw [step_env hinputs, step_env (s := withPresence v s) hinputs]
      refine congrArg Host.Outcome.next (applyEnv_withPresence v { s with inputs := rest } fun w he => ?_)
      exact hsignal w rest (he ▸ hinputs)
    | turn =>
      exact hblock (nextTurn_block.mpr (.inr (.inl ⟨rest, hinputs, rfl⟩)))
        (nextTurn_block.mpr (.inr (.inl ⟨rest, hinputs, rfl⟩)))
    | call c =>
      by_cases hidle : s.phase = .idle
      · rw [step_call hidle hinputs, step_call (s := withPresence v s) hidle hinputs]
        refine begin_withPresence (s := { s with inputs := rest }) v fun ⟨hrole, hc⟩ => ?_
        exact hrun rest ⟨hidle, hrole, hc ▸ hinputs⟩
      · exact hblock (nextTurn_block.mpr (.inr (.inr ⟨c, rest, hinputs, hidle, rfl⟩)))
          (nextTurn_block.mpr (.inr (.inr ⟨c, rest, hinputs, hidle, rfl⟩)))

/-- The beginning of `HE_RUN`: the signal decides between the receive loop and a disconnected session (rules R304,
R305, R316). -/
theorem step_heRun {s : State} {rest : List Input} (hidle : s.phase = .idle) (hrole : s.cfg.role = .host)
    (hinputs : s.inputs = .call .heRun :: rest) :
    step s =
      if s.connectedIn then .next { s with inputs := rest, phase := .receive .heRun }
      else .next (finish (.bool false) (heDisconnect { s with inputs := rest })) := by
  rw [step_call hidle hinputs]
  simp only [begin, raise, hrole]

/-- Settles O36: the beginning of `HE_RUN` looks at the signal, the signal's own event sets it, and every other step is
blind to it. -/
theorem presenceLossDisconnects : Obligations.PresenceLossDisconnects := by
  refine ⟨fun s rest => ⟨fun hidle hrole hinputs => ⟨fun habsent => ?_, fun hpresent => ?_⟩, fun v hinputs => ?_⟩,
    fun s v hrun hsignal => ⟨fun t h => ?_, fun r h => ?_⟩⟩
  · have hnot : ¬ s.connectedIn = true := by rw [habsent]; decide
    rw [step_heRun hidle hrole hinputs, if_neg hnot, finish, ← hidle]
    rfl
  · rw [step_heRun hidle hrole hinputs, if_pos hpresent]
  · exact step_env hinputs
  · exact (step_withPresence v hrun hsignal).trans (congrArg (presenceOut v) h)
  · exact (step_withPresence v hrun hsignal).trans (congrArg (presenceOut v) h)

end Sys2Proof.Machine
end
